-- ==== Sys2Proof/Word.lean ====
section
/-! DEFINITION. The word types of the mx795 CORE engine (00_scope.md R9, 10_state.md R21 to R24). -/

namespace Sys2Proof

/-- One byte of a byte buffer, of SEED or of the host address map (10_state.md R23, R24). -/
abbrev Byte := BitVec 8

/-- One 32-bit word: a scalar register, a control or status register, a command word
(10_state.md R21, R28; 30_encoding.md R80). -/
abbrev Word := BitVec 32

/-- One stored polynomial coefficient, 16 bits two's complement (10_state.md R22). -/
abbrev Coeff := BitVec 16

end Sys2Proof
end

