-- ==== Sys2Proof/Config.lean ====
section
/-! DEFINITION. What is fixed for the machine (00_scope.md R7, R8) and the parameters the spec leaves open
(92_eei_decisions.md "Open parameters"): opaque constants, so that no proof can see a value of them.
The twiddle ROM, also a constant, stands in Sys2Proof/Machine/Rom.lean. -/

namespace Sys2Proof.Config

/-- Coefficients of a polynomial: N (00_scope.md R7). -/
def ringDim : Nat := 256

/-- Bytes of a byte buffer: BUFSZ (00_scope.md R8). -/
def bufSize : Nat := 2048

/-- Bytes of one squeezed block: XOF_BLOCK (00_scope.md R8). -/
def xofBlockSize : Nat := 168

/-- FREE VALUE (log 5). By how much REJ_MAX_BLOCKS exceeds its least legal value 3. -/
opaque rejMaxExtra : Nat

/-- REJ_MAX_BLOCKS, "an integer >= 3", otherwise open (00_scope.md R8, 43_sampler.md R207). -/
def rejMaxBlocks : Nat := rejMaxExtra + 3

/-- FREE VALUE (log 5). Byte `i` of PRF(in33, n), for an input that `ByteSource.prf` does not list: a
function of the request's bytes and length alone (43_sampler.md R196). -/
opaque prfByte (in33 : List Byte) (n i : Nat) : Byte

/-- FREE VALUE (log 5). Byte `i` of the stream XOF(in34), where `ByteSource.xof` does not list it: a
function of the input bytes alone (43_sampler.md R196). -/
opaque xofByte (in34 : List Byte) (i : Nat) : Byte

end Sys2Proof.Config
end

