-- ==== Sys2Proof/Syntax.lean ====
section
/-! DEFINITION. The commands of the engine as syntax: one constructor per row of spec/opcode_table.json
(30_encoding.md R81 to R83, R86). Field names are the spec's own. -/

namespace Sys2Proof

/-- Number of a scalar register, x0 to x15 (10_state.md R21). -/
abbrev Reg := Fin 16

/-- Number of a polynomial slot, P[0] to P[15] (10_state.md R22). -/
abbrev Slot := Fin 16

/-- Record index `blk`, imm[5:0] (20_memory.md R60). -/
abbrev Blk := Fin 64

/-- Buffer select `bs`: BUF[0] is A, BUF[1] is B (10_state.md R23). -/
inductive BufSel
  | A
  | B
  deriving DecidableEq, Repr

/-- A command. Where the table has one row per legal value of the parameter in rb (eta, d), there is one
constructor per row (30_encoding.md R86). -/
inductive Instr
  | montred (rd ra : Reg)
  | barrett (rd ra : Reg)
  | csubq (rd ra : Reg)
  | montmul (rd ra rb : Reg)
  | basemul (rd ra rb : Reg) (neg : Bool) (zi : Fin 128)
  | pbarrett (rd ra : Slot)
  | pcsubq (rd ra : Slot)
  | padd (rd ra rb : Slot)
  | psub (rd ra rb : Slot)
  | ntt (rd : Slot)
  | intt (rd : Slot)
  | pwacc (rd ra rb : Slot) (K : Fin 8)
  | cbdEta2 (rd : Slot) (bs : BufSel) (blk : Blk)
  | cbdEta3 (rd : Slot) (bs : BufSel) (blk : Blk)
  | getnoiseEta2 (rd : Slot) (nonce : Byte)
  | getnoiseEta3 (rd : Slot) (nonce : Byte)
  | gena (rd : Slot) (row col : Fin 16) (t : Bool)
  | compressD4 (ra : Slot) (bs : BufSel) (blk : Blk)
  | compressD5 (ra : Slot) (bs : BufSel) (blk : Blk)
  | compressD10 (ra : Slot) (bs : BufSel) (blk : Blk)
  | compressD11 (ra : Slot) (bs : BufSel) (blk : Blk)
  | decompressD4 (rd : Slot) (bs : BufSel) (blk : Blk)
  | decompressD5 (rd : Slot) (bs : BufSel) (blk : Blk)
  | decompressD10 (rd : Slot) (bs : BufSel) (blk : Blk)
  | decompressD11 (rd : Slot) (bs : BufSel) (blk : Blk)
  | frommsg (rd : Slot) (bs : BufSel) (blk : Blk)
  | tomsg (ra : Slot) (bs : BufSel) (blk : Blk)
  | tobytes (ra : Slot) (bs : BufSel) (blk : Blk)
  | frombytes (rd : Slot) (bs : BufSel) (blk : Blk)
  | ctcmp (len : Fin 4096)
  deriving DecidableEq, Repr

end Sys2Proof
end

