-- ==== Sys2Proof/WellFormed.lean ====
section
/-! DEFINITION. Which terms of `Instr` are legal commands: the constraints of 30_encoding.md R83 that the
types of the fields do not already enforce. -/

namespace Sys2Proof

/-- The IllegalField constraints (30_encoding.md R87): a BASEMUL pair base is at most 14; K is 1 to 4 and
both PWACC vectors end at slot 15 or before. -/
def Instr.fieldsLegal : Instr → Bool
  | .basemul rd ra rb _ _ => decide (rd.val ≤ 14 ∧ ra.val ≤ 14 ∧ rb.val ≤ 14)
  | .pwacc _ ra rb K =>
      decide (1 ≤ K.val ∧ K.val ≤ 4 ∧ ra.val + K.val ≤ 16 ∧ rb.val + K.val ≤ 16)
  | .montred .. | .barrett .. | .csubq .. | .montmul .. | .pbarrett .. | .pcsubq .. | .padd ..
  | .psub .. | .ntt .. | .intt .. | .cbdEta2 .. | .cbdEta3 .. | .getnoiseEta2 .. | .getnoiseEta3 ..
  | .gena .. | .compressD4 .. | .compressD5 .. | .compressD10 .. | .compressD11 ..
  | .decompressD4 .. | .decompressD5 .. | .decompressD10 .. | .decompressD11 .. | .frommsg ..
  | .tomsg .. | .tobytes .. | .frombytes .. | .ctcmp .. => true

/-- A record lies wholly inside its buffer: `(blk + 1) * S <= BUFSZ` (20_memory.md R60). -/
abbrev RecordFits (S : Nat) (blk : Blk) : Prop := (blk.val + 1) * S ≤ Config.bufSize

/-- The BufRange constraints (60_exceptions.md R282), with the record sizes of 20_memory.md R60. -/
def Instr.rangeLegal : Instr → Bool
  | .cbdEta2 _ _ blk => decide (RecordFits 128 blk)
  | .cbdEta3 _ _ blk => decide (RecordFits 192 blk)
  | .compressD4 _ _ blk | .decompressD4 _ _ blk => decide (RecordFits 128 blk)
  | .compressD5 _ _ blk | .decompressD5 _ _ blk => decide (RecordFits 160 blk)
  | .compressD10 _ _ blk | .decompressD10 _ _ blk => decide (RecordFits 320 blk)
  | .compressD11 _ _ blk | .decompressD11 _ _ blk => decide (RecordFits 352 blk)
  | .frommsg _ _ blk | .tomsg _ _ blk => decide (RecordFits 32 blk)
  | .tobytes _ _ blk | .frombytes _ _ blk => decide (RecordFits 384 blk)
  | .ctcmp len => decide (len.val ≤ Config.bufSize)
  | .montred .. | .barrett .. | .csubq .. | .montmul .. | .basemul .. | .pbarrett .. | .pcsubq ..
  | .padd .. | .psub .. | .ntt .. | .intt .. | .pwacc .. | .getnoiseEta2 .. | .getnoiseEta3 ..
  | .gena .. => true

/-- A legal command: what 30_encoding.md R84 step 4 executes. -/
def Instr.wellFormed (i : Instr) : Bool := i.fieldsLegal && i.rangeLegal

end Sys2Proof
end

