-- ==== Sys2Proof/Decode.lean ====
section
/-! DEFINITION. The decoder of a command word, total and rejecting by name (30_encoding.md R80 to R87), and
after it the encoder. Both are written from the layout of R80 and the formats of R81. -/

namespace Sys2Proof

/-- The three errors a decode can end in (30_encoding.md R84; codes in 60_exceptions.md R281). -/
inductive DecodeError
  | illegalOpcode
  | illegalField
  | bufRange
  deriving DecidableEq, Repr

/-- The fields of a command word below its opcode (30_encoding.md R80). -/
structure Fields where
  rd : Fin 16
  ra : Fin 16
  rb : Fin 16
  imm : Nat
  deriving DecidableEq, Repr

/-- bits 31:24 of a command word (30_encoding.md R80). -/
def opcodeOf (w : Word) : Nat := w.toNat / 16777216

/-- bits 23:20, 19:16, 15:12 and 11:0 of a command word (30_encoding.md R80). -/
def fieldsOf (w : Word) : Fields where
  rd := Fin.ofNat 16 (w.toNat / 1048576)
  ra := Fin.ofNat 16 (w.toNat / 65536)
  rb := Fin.ofNat 16 (w.toNat / 4096)
  imm := w.toNat % 4096

/-- bs = imm[11] (30_encoding.md R82). -/
def Fields.bs (f : Fields) : BufSel := if f.imm / 2048 % 2 = 1 then .B else .A

/-- blk = imm[5:0] (30_encoding.md R82). -/
def Fields.blk (f : Fields) : Blk := Fin.ofNat 64 f.imm

/-- imm[10:6] = 0, the must-be-zero immediate bits of formats BU and BP (30_encoding.md R81). -/
def Fields.recordZeros (f : Fields) : Bool := f.imm / 64 % 32 == 0

/-- Steps 2 and 3 of 30_encoding.md R84 for a word whose opcode stands for `i`: first the must-be-zero bits
(`zeros`) and the IllegalField constraints, then the BufRange constraint. -/
def checked (zeros : Bool) (i : Instr) : Except DecodeError Instr :=
  if zeros && i.fieldsLegal then
    if i.rangeLegal then .ok i else .error .bufRange
  else .error .illegalField

/-- Formats BU and BP: the unused slot field is `unused` and imm[10:6] must be 0 (30_encoding.md R81). -/
def checkedRecord (f : Fields) (unused : Fin 16) (i : Instr) : Except DecodeError Instr :=
  checked (unused == 0 && f.recordZeros) i

/-- The command that an opcode and its fields spell (30_encoding.md R81, R83), or the error of R84. -/
def decodeFields (op : Nat) (f : Fields) : Except DecodeError Instr :=
  match op with
  | 0x01 => checked (f.rb == 0 && f.imm == 0) (.montred f.rd f.ra)
  | 0x02 => checked (f.rb == 0 && f.imm == 0) (.barrett f.rd f.ra)
  | 0x03 => checked (f.rb == 0 && f.imm == 0) (.csubq f.rd f.ra)
  | 0x04 => checked (f.imm == 0) (.montmul f.rd f.ra f.rb)
  | 0x05 => checked (f.imm / 256 == 0)
      (.basemul f.rd f.ra f.rb (f.imm / 128 % 2 == 1) (Fin.ofNat 128 f.imm))
  | 0x10 => checked (f.rb == 0 && f.imm == 0) (.pbarrett f.rd f.ra)
  | 0x11 => checked (f.rb == 0 && f.imm == 0) (.pcsubq f.rd f.ra)
  | 0x12 => checked (f.imm == 0) (.padd f.rd f.ra f.rb)
  | 0x13 => checked (f.imm == 0) (.psub f.rd f.ra f.rb)
  | 0x20 => checked (f.ra == 0 && f.rb == 0 && f.imm == 0) (.ntt f.rd)
  | 0x21 => checked (f.ra == 0 && f.rb == 0 && f.imm == 0) (.intt f.rd)
  | 0x28 => checked (f.imm / 8 == 0) (.pwacc f.rd f.ra f.rb (Fin.ofNat 8 f.imm))
  | 0x30 =>
      match f.rb.val with
      | 2 => checkedRecord f f.ra (.cbdEta2 f.rd f.bs f.blk)
      | 3 => checkedRecord f f.ra (.cbdEta3 f.rd f.bs f.blk)
      | _ => .error .illegalField
  | 0x31 =>
      match f.rb.val with
      | 2 => checked (f.ra == 0 && f.imm / 256 == 0) (.getnoiseEta2 f.rd (BitVec.ofNat 8 f.imm))
      | 3 => checked (f.ra == 0 && f.imm / 256 == 0) (.getnoiseEta3 f.rd (BitVec.ofNat 8 f.imm))
      | _ => .error .illegalField
  | 0x32 => checked (f.imm / 2 == 0) (.gena f.rd f.ra f.rb (f.imm % 2 == 1))
  | 0x40 =>
      match f.rb.val with
      | 4 => checkedRecord f f.rd (.compressD4 f.ra f.bs f.blk)
      | 5 => checkedRecord f f.rd (.compressD5 f.ra f.bs f.blk)
      | 10 => checkedRecord f f.rd (.compressD10 f.ra f.bs f.blk)
      | 11 => checkedRecord f f.rd (.compressD11 f.ra f.bs f.blk)
      | _ => .error .illegalField
  | 0x41 =>
      match f.rb.val with
      | 4 => checkedRecord f f.ra (.decompressD4 f.rd f.bs f.blk)
      | 5 => checkedRecord f f.ra (.decompressD5 f.rd f.bs f.blk)
      | 10 => checkedRecord f f.ra (.decompressD10 f.rd f.bs f.blk)
      | 11 => checkedRecord f f.ra (.decompressD11 f.rd f.bs f.blk)
      | _ => .error .illegalField
  | 0x48 => checked (f.ra == 0 && f.rb == 0 && f.recordZeros) (.frommsg f.rd f.bs f.blk)
  | 0x49 => checked (f.rd == 0 && f.rb == 0 && f.recordZeros) (.tomsg f.ra f.bs f.blk)
  | 0x4A => checked (f.rd == 0 && f.rb == 0 && f.recordZeros) (.tobytes f.ra f.bs f.blk)
  | 0x4B => checked (f.ra == 0 && f.rb == 0 && f.recordZeros) (.frombytes f.rd f.bs f.blk)
  | 0x50 => checked (f.rd == 0 && f.ra == 0 && f.rb == 0) (.ctcmp (Fin.ofNat 4096 f.imm))
  | _ => .error .illegalOpcode

/-- The decoding of a command word (30_encoding.md R84, steps 1 to 3). -/
def decode (w : Word) : Except DecodeError Instr := decodeFields (opcodeOf w) (fieldsOf w)

/-- The instruction the decoder reads from a word numbered as spec/opcode_table.json numbers it. Every
command is one 32-bit word (30_encoding.md R80, R89), so a row has 32 bits and a longer one is no command. -/
def decodeTableWord (nbits w : Nat) : Option Instr :=
  if nbits ≤ 32 ∧ w < 4294967296 then
    match decode (BitVec.ofNat 32 w) with
    | .ok i => some i
    | .error _ => none
  else none

/-! ### The encoder -/

/-- `W = op << 24 | rd << 20 | ra << 16 | rb << 12 | imm` (30_encoding.md R80). -/
def encodeFields (op : Nat) (rd ra rb : Fin 16) (imm : Nat) : Word :=
  BitVec.ofNat 32 (op * 16777216 + rd.val * 1048576 + ra.val * 65536 + rb.val * 4096 + imm)

/-- imm of formats BU and BP: imm[11] = bs, imm[10:6] = 0, imm[5:0] = blk (30_encoding.md R81). -/
def recordImm (bs : BufSel) (blk : Blk) : Nat :=
  (match bs with
    | .A => 0
    | .B => 2048) + blk.val

/-- The command word of a command (30_encoding.md R80, R81, R83). -/
def encode : Instr → Word
  | .montred rd ra => encodeFields 0x01 rd ra 0 0
  | .barrett rd ra => encodeFields 0x02 rd ra 0 0
  | .csubq rd ra => encodeFields 0x03 rd ra 0 0
  | .montmul rd ra rb => encodeFields 0x04 rd ra rb 0
  | .basemul rd ra rb neg zi => encodeFields 0x05 rd ra rb ((if neg then 128 else 0) + zi.val)
  | .pbarrett rd ra => encodeFields 0x10 rd ra 0 0
  | .pcsubq rd ra => encodeFields 0x11 rd ra 0 0
  | .padd rd ra rb => encodeFields 0x12 rd ra rb 0
  | .psub rd ra rb => encodeFields 0x13 rd ra rb 0
  | .ntt rd => encodeFields 0x20 rd 0 0 0
  | .intt rd => encodeFields 0x21 rd 0 0 0
  | .pwacc rd ra rb K => encodeFields 0x28 rd ra rb K.val
  | .cbdEta2 rd bs blk => encodeFields 0x30 rd 0 2 (recordImm bs blk)
  | .cbdEta3 rd bs blk => encodeFields 0x30 rd 0 3 (recordImm bs blk)
  | .getnoiseEta2 rd nonce => encodeFields 0x31 rd 0 2 nonce.toNat
  | .getnoiseEta3 rd nonce => encodeFields 0x31 rd 0 3 nonce.toNat
  | .gena rd row col t => encodeFields 0x32 rd row col (if t then 1 else 0)
  | .compressD4 ra bs blk => encodeFields 0x40 0 ra 4 (recordImm bs blk)
  | .compressD5 ra bs blk => encodeFields 0x40 0 ra 5 (recordImm bs blk)
  | .compressD10 ra bs blk => encodeFields 0x40 0 ra 10 (recordImm bs blk)
  | .compressD11 ra bs blk => encodeFields 0x40 0 ra 11 (recordImm bs blk)
  | .decompressD4 rd bs blk => encodeFields 0x41 rd 0 4 (recordImm bs blk)
  | .decompressD5 rd bs blk => encodeFields 0x41 rd 0 5 (recordImm bs blk)
  | .decompressD10 rd bs blk => encodeFields 0x41 rd 0 10 (recordImm bs blk)
  | .decompressD11 rd bs blk => encodeFields 0x41 rd 0 11 (recordImm bs blk)
  | .frommsg rd bs blk => encodeFields 0x48 rd 0 0 (recordImm bs blk)
  | .tomsg ra bs blk => encodeFields 0x49 0 ra 0 (recordImm bs blk)
  | .tobytes ra bs blk => encodeFields 0x4A 0 ra 0 (recordImm bs blk)
  | .frombytes rd bs blk => encodeFields 0x4B rd 0 0 (recordImm bs blk)
  | .ctcmp len => encodeFields 0x50 0 0 0 len.val

end Sys2Proof
end

