-- ==== Sys2Proof/Machine/Arith.lean ====
section
/-! DEFINITION. The integer functions of the engine, over the mathematical integers with their preconditions
(40_reduction.md R110): the reduction family, the base multiplication, compression of one coefficient. `/`
and `%` with a positive divisor are floor division and its remainder, as in 00_scope.md R10, R11. -/

namespace Sys2Proof.Machine

/-- `low16(v)` (00_scope.md R10). -/
def low16 (v : Int) : Int := v % 65536

/-- `sext_16(u)` (00_scope.md R10). -/
def sext16 (u : Int) : Int := if u < 32768 then u else u - 65536

/-- The values a coefficient can hold (40_reduction.md R110). -/
abbrev Fits16 (v : Int) : Prop := -32768 ≤ v ∧ v ≤ 32767

/-- MontRed's precondition: `-2^15 * q <= a < 2^15 * q` (40_reduction.md R111). -/
abbrev MontRange (a : Int) : Prop := -109084672 ≤ a ∧ a ≤ 109084671

/-- Montgomery reduction (40_reduction.md R111). -/
def montRed (a : Int) : Int :=
  let u := low16 a * 62209 % 65536
  let t := sext16 u
  let m := t * 3329
  (a - m) / 65536

/-- Barrett reduction (40_reduction.md R113). -/
def barrett (a : Int) : Int :=
  let p := 20159 * a
  let t := p / 67108864
  a - t * 3329

/-- csubq's precondition (40_reduction.md R115). -/
abbrev CsubqRange (x : Int) : Prop := -29439 ≤ x

/-- Conditional subtract q (40_reduction.md R115): `t + (mask & 3329)`, where mask, the arithmetic shift of
t's sign bit, is all ones if t is negative and 0 otherwise. -/
def csubq (x : Int) : Int :=
  let t := x - 3329
  if t < 0 then t + 3329 else t

/-- `fqmul(a, b)` (40_reduction.md R117). -/
def fqmul (a b : Int) : Int := montRed (a * b)

/-- The arguments of one base multiplication (42_basemul.md R171). -/
structure BasemulArgs where
  a0 : Int
  a1 : Int
  b0 : Int
  b1 : Int
  z : Int
  deriving DecidableEq, Repr

/-- `s0 = u * z + a0 * b0` with `u = MontRed(a1 * b1)` (42_basemul.md R171). -/
def BasemulArgs.s0 (c : BasemulArgs) : Int := montRed (c.a1 * c.b1) * c.z + c.a0 * c.b0

/-- `s1 = a0 * b1 + a1 * b0` (42_basemul.md R171). -/
def BasemulArgs.s1 (c : BasemulArgs) : Int := c.a0 * c.b1 + c.a1 * c.b0

/-- The precondition of a base multiplication (42_basemul.md R171). -/
abbrev BasemulArgs.Legal (c : BasemulArgs) : Prop :=
  MontRange (c.a1 * c.b1) ∧ MontRange c.s0 ∧ MontRange c.s1

/-- `basemul(a0, a1, b0, b1, z)`, the pair (r0, r1) (42_basemul.md R171). -/
def BasemulArgs.product (c : BasemulArgs) : Int × Int := (montRed c.s0, montRed c.s1)

/-- The coefficients that csubq makes canonical: the precondition of Compress and of TOMSG
(44_compress.md R231, 45_codec.md R253). -/
abbrev CompressRange (x : Int) : Prop := 0 ≤ x ∧ x ≤ 6657

/-- `Compress(x, d)`, an unsigned integer of d bits (44_compress.md R231). -/
def compress (d : Nat) (x : Int) : Nat := ((csubq x * 2 ^ d + 1664) / 3329 % 2 ^ d).toNat

/-- `Decompress(v, d)` (44_compress.md R234). -/
def decompress (d v : Nat) : Int := ((v * 3329 + 2 ^ (d - 1)) / 2 ^ d : Nat)

end Sys2Proof.Machine
end

