-- ==== Sys2Proof/Machine/Bits.lean ====
section
/-! DEFINITION. Byte strings as bit streams, LSB first (00_scope.md R13), the packing of d-bit values
(44_compress.md R237), and the little-endian bytes of wider units (20_memory.md R53). -/

namespace Sys2Proof.Machine

/-- The first `n` pieces of `w` elements each. -/
def chunks {α : Type} (w : Nat) : Nat → List α → List (List α)
  | 0, _ => []
  | n + 1, l => l.take w :: chunks w n (l.drop w)

/-- The low `d` bits of `v`, bit 0 first. -/
def bitsOfNat (d v : Nat) : List Bool := (List.range d).map (fun i => v.testBit i)

/-- The number whose bits are given, bit 0 first. -/
def natOfBits : List Bool → Nat
  | [] => 0
  | b :: bs => b.toNat + 2 * natOfBits bs

/-- The LSB-first bit stream of a byte string: bit `8 * i + j` is bit j of byte i (00_scope.md R13). -/
def bitStream (bytes : List Byte) : List Bool := bytes.flatMap (fun b => bitsOfNat 8 b.toNat)

/-- The byte string whose bit stream begins with `bits`; `n` bytes of it. -/
def bytesOfBits (n : Nat) (bits : List Bool) : List Byte :=
  (chunks 8 n bits).map (fun g => BitVec.ofNat 8 (natOfBits g))

/-- `PackLSB(v, d)`: bit b of value i is stream bit `i * d + b` (44_compress.md R237). -/
def packLSB (d : Nat) (vs : List Nat) : List Byte :=
  bytesOfBits (vs.length * d / 8) (vs.flatMap (bitsOfNat d))

/-- `UnpackLSB(rec, d, n)` (44_compress.md R237). -/
def unpackLSB (d n : Nat) (bytes : List Byte) : List Nat :=
  (chunks d n (bitStream bytes)).map natOfBits

/-- The two bytes of a coefficient, low byte first (20_memory.md R53). -/
def coeffBytes (v : Int) : List Byte :=
  [(BitVec.ofInt 16 v).extractLsb' 0 8, (BitVec.ofInt 16 v).extractLsb' 8 8]

/-- The signed coefficients of a byte string, two bytes each, low byte first (20_memory.md R53). -/
def coeffsOfBytes : List Byte → List Int
  | lo :: hi :: rest => (hi ++ lo : Coeff).toInt :: coeffsOfBytes rest
  | _ => []

/-- The first `n` bytes of a word, bits 7:0 first (20_memory.md R53). -/
def wordBytes (n : Nat) (v : Word) : List Byte :=
  (List.range n).map (fun k => v.extractLsb' (8 * k) 8)

/-- The word whose lowest bytes are given, bits 7:0 first, the rest 0 (20_memory.md R53). -/
def wordOfBytes : List Byte → Word
  | [] => 0
  | b :: bs => b.zeroExtend 32 ||| (wordOfBytes bs <<< 8)

end Sys2Proof.Machine
end

