-- ==== Sys2Proof/Machine/State.lean ====
section
/-! DEFINITION. The engine's state as plain data (10_state.md), with the two things outside the engine that
a run needs: the host's coming accesses and the byte source's coming answers (10_state.md R20). -/

namespace Sys2Proof.Machine

/-- STATUS.ERR (60_exceptions.md R281). Codes 6 to 15 are reserved and never produced. -/
inductive ErrCode
  | none
  | illegalOpcode
  | illegalField
  | bufRange
  | xofFail
  | rejCap
  deriving DecidableEq, Repr

/-- Why a run ends (10_state.md R37). -/
inductive Fault
  /-- Raised by any command, and by any host read, that reads a coefficient of a slot or a byte of a byte
  buffer that nothing has written since reset, or that a failed GETNOISE or GENA left unspecified
  (10_state.md R37, 60_exceptions.md R285). Safe. -/
  | unwrittenRead
  deriving DecidableEq, Repr

/-- What the model has no step for. -/
inductive Refusal
  /-- Raised by an arm of `exec` whose command has no meaning yet. No arm does. Safe. -/
  | notModelled (mnemonic : String)
  /-- `refuse(ContractViolation)`: raised by a command issued with an operand outside its stated
  precondition; the spec gives no state after it (60_exceptions.md R290). Safe. -/
  | contractViolation
  /-- Raised by a host access that the address map refuses: a reserved offset, a write to the ROM, a wrong
  width or a misaligned address (20_memory.md R57, R58). Safe. -/
  | busError
  /-- Raised by a host access other than a read of STATUS while BUSY = 1
  (70_reset_and_hazards.md R315). Safe. -/
  | accessWhileBusy
  deriving DecidableEq, Repr

/-- Memory: the windows of the byte buffers and the polynomial slots in the host address map
(20_memory.md R56), keyed by offset. An offset that is not listed holds no value (10_state.md R37). -/
abbrev Memory := List Host.Cell

/-- The offsets that `Memory` covers: BUF[0], BUF[1] and P, 0x1000 to 0x3FFF (20_memory.md R56). -/
abbrev InStorage (a : Nat) : Prop := 0x1000 ≤ a ∧ a < 0x4000

/-- The canonical form of memory: offsets strictly rising, all of them in the windows. -/
abbrev Memory.wf (m : Memory) : Prop :=
  m.Pairwise (fun c d => c.1 < d.1) ∧ ∀ c ∈ m, InStorage c.1

/-- One action of the agents outside the engine on its pins: an access of the host to the address map, at an
offset from BASE and of a number of bytes (20_memory.md R56, R58), or a reset of the platform
(70_reset_and_hazards.md R310). -/
inductive HostAction
  | read (off size : Nat)
  | write (off size : Nat) (v : Word)
  | reset
  deriving DecidableEq, Repr

/-- How the byte source answers one request (43_sampler.md R197 to R199). -/
inductive SourceAnswer
  /-- ok, with the bytes that the source's function gives. -/
  | ok
  /-- fail(code). -/
  | fail (code : Word)
  /-- No answer ever comes (43_sampler.md R199). -/
  | silent
  deriving DecidableEq, Repr

/-- The byte source (43_sampler.md R196), an agent outside the engine: the outputs of its two functions for
the inputs listed (elsewhere they are the open parameters of `Config`), and its coming answers, oldest
first; when none is listed it answers ok. -/
structure ByteSource where
  prf : List ((List Byte × Nat) × List Byte)
  xof : List (List Byte × List Byte)
  answers : List SourceAnswer
  deriving DecidableEq, Repr

/-- The state of the machine. -/
structure State where
  /-- x0 to x15 (10_state.md R21). -/
  x : Vector Word 16
  /-- SEED[0] to SEED[31] (10_state.md R24). -/
  seed : Vector Byte 32
  /-- BUF[0], BUF[1] and P[0] to P[15] (10_state.md R22, R23). -/
  mem : Memory
  /-- STATUS.BUSY (10_state.md R31). -/
  busy : Bool
  /-- STATUS.CMPNE (10_state.md R27). -/
  cmpne : Bool
  /-- STATUS.ERR (10_state.md R27). -/
  err : ErrCode
  /-- ERRINFO (10_state.md R32). -/
  errInfo : Word
  /-- The byte source behind the XOF port (10_state.md R33). -/
  source : ByteSource
  /-- The host's coming actions, oldest first (70_reset_and_hazards.md R314). The model's own field. -/
  host : List HostAction
  /-- The data of the host's last read (20_memory.md R51). The model's own field. -/
  readData : Word
  deriving DecidableEq, Repr

/-- How a command or a step ends. -/
abbrev Result := Host.Outcome State Fault Refusal

/-- After reset (10_state.md R36): STATUS and ERRINFO are 0 and no byte of P or BUF holds a value. x and SEED
are unspecified there; zero is the model's choice (DESIGN CHOICE, log 1). The host has placed no action yet
(log 3) and the byte source lists nothing (log 4). -/
def State.reset : State where
  x := Vector.replicate 16 0
  seed := Vector.replicate 32 0
  mem := []
  busy := false
  cmpne := false
  err := .none
  errInfo := 0
  source := { prf := [], xof := [], answers := [] }
  host := []
  readData := 0

end Sys2Proof.Machine
end

