-- ==== Sys2Proof/Machine/Ops.lean ====
section
/-! DEFINITION. The named operations over memory and registers (20_memory.md R50, R60), and taking an error
and clearing it (60_exceptions.md R284, R285, R287). -/

namespace Sys2Proof.Machine

/-! ### Memory -/

/-- The byte at an offset, if it holds a value. -/
def Memory.read (m : Memory) (a : Nat) : Option Byte :=
  (m.find? (fun c => c.1 == a)).map Prod.snd

/-- The cells of `n` bytes from offset `a` on. -/
def Memory.window (m : Memory) (a n : Nat) : Memory :=
  m.filter (fun c => decide (a ≤ c.1 ∧ c.1 < a + n))

/-- The `n` bytes from offset `a` on, if every one of them holds a value. -/
def Memory.readRange (m : Memory) (a n : Nat) : Option (List Byte) :=
  if (m.window a n).map Prod.fst = List.range' a n then some ((m.window a n).map Prod.snd) else none

/-- The cells of a byte string laid down from offset `a` on. -/
def cellsAt (a : Nat) : List Byte → Memory
  | [] => []
  | b :: bs => (a, b) :: cellsAt (a + 1) bs

/-- Memory after `bytes` are stored from offset `a` on. -/
def Memory.writeRange (m : Memory) (a : Nat) (bytes : List Byte) : Memory :=
  m.filter (fun c => decide (c.1 < a)) ++ cellsAt a bytes ++
    m.filter (fun c => decide (a + bytes.length ≤ c.1))

/-- Memory after the `n` bytes from offset `a` on lose their values (60_exceptions.md R285). -/
def Memory.eraseRange (m : Memory) (a n : Nat) : Memory :=
  m.filter (fun c => decide ¬(a ≤ c.1 ∧ c.1 < a + n))

/-! ### The address map of the storage (20_memory.md R56) -/

/-- The offset of BUF[b][0]. -/
def bufBase : BufSel → Nat
  | .A => 0x1000
  | .B => 0x1800

/-- The offset of P[s][0]. -/
def slotBase (s : Nat) : Nat := 0x2000 + 512 * s

/-- Bytes of a slot: 256 coefficients of 2 bytes. -/
def slotBytes : Nat := 512

/-- The offset of byte 0 of record `blk` of size `S`: `BUF[bs][blk*S]` (20_memory.md R60). -/
def recordBase (bs : BufSel) (blk : Blk) (S : Nat) : Nat := bufBase bs + blk.val * S

/-! ### Registers, slots and records -/

/-- `x[i]`, read as signed (00_scope.md R10). -/
def State.readX (s : State) (i : Reg) : Int := s.x[i].toInt

/-- `x[i] <- v` (00_scope.md R10). -/
def State.writeX (s : State) (i : Reg) (v : Int) : State :=
  { s with x := s.x.set i (BitVec.ofInt 32 v) }

/-- P[r], its 256 signed coefficients, if every one of them holds a value. -/
def State.readSlot (s : State) (r : Nat) : Option (List Int) :=
  (s.mem.readRange (slotBase r) slotBytes).map coeffsOfBytes

/-- `P[r] <- p`. -/
def State.writeSlot (s : State) (r : Nat) (p : List Int) : State :=
  { s with mem := s.mem.writeRange (slotBase r) (p.flatMap coeffBytes) }

/-- P[r] becomes unspecified: never-written storage (60_exceptions.md R285). -/
def State.eraseSlot (s : State) (r : Nat) : State :=
  { s with mem := s.mem.eraseRange (slotBase r) slotBytes }

/-- The bytes `BUF[bs][o .. o + n - 1]`, if every one of them holds a value. -/
def State.readBuf (s : State) (bs : BufSel) (o n : Nat) : Option (List Byte) :=
  s.mem.readRange (bufBase bs + o) n

/-- `BUF[bs][o ..] <- bytes`. -/
def State.writeBuf (s : State) (bs : BufSel) (o : Nat) (bytes : List Byte) : State :=
  { s with mem := s.mem.writeRange (bufBase bs + o) bytes }

/-- `STATUS.CMPNE <- v` (46_compare.md R270). -/
def State.writeCmpne (s : State) (v : Bool) : State := { s with cmpne := v }

/-! ### Taking an error, and clearing it -/

/-- `raise E(info)` (60_exceptions.md R284): ERR takes the code, ERRINFO takes the info of XofFail and 0 for
any other error, BUSY falls; nothing else is written. -/
def State.raise (s : State) (e : ErrCode) (info : Word) : State :=
  { s with
    err := e
    errInfo := match e with
      | .xofFail => info
      | .none | .illegalOpcode | .illegalField | .bufRange | .rejCap => 0
    busy := false }

/-- The state after a GETNOISE or GENA that ended in XofFail or RejCap: its destination slot is unspecified
(60_exceptions.md R285). -/
def State.raiseLosing (s : State) (rd : Slot) (e : ErrCode) (info : Word) : State :=
  (s.eraseSlot rd.val).raise e info

/-- CLRERR, the "return" (60_exceptions.md R287): ERR and ERRINFO become 0, CMPNE is kept. -/
def State.clearErr (s : State) : State := { s with err := .none, errInfo := 0 }

/-- A platform reset (70_reset_and_hazards.md R310): the engine is as after reset; the host's later actions,
what it has read, and the byte source, which are outside the engine, stay. -/
def State.platformReset (s : State) : State :=
  { State.reset with source := s.source, host := s.host, readData := s.readData }

end Sys2Proof.Machine
end

