-- ==== Sys2Proof/Machine/Operands.lean ====
section
/-! DEFINITION. Every operand form of the commands (30_encoding.md R81, R82): scalar registers read as 32 or
16 bits, slots, vectors of slots, records of a byte buffer, and the stops they share. -/

namespace Sys2Proof.Machine

/-- A scalar source of MONTRED: all 32 bits, signed (10_state.md R21). -/
def State.operand32 (s : State) (r : Reg) : Int := s.readX r

/-- A scalar source of BARRETT, CSUBQ, MONTMUL and BASEMUL: bits 15:0, signed; bits 31:16 are ignored
(10_state.md R21). -/
def State.operand16 (s : State) (r : Reg) : Int := (s.x[r].truncate 16).toInt

/-- The upper register of a pair (n, n+1) (30_encoding.md R82). -/
def pairUpper (r : Reg) : Reg := r + 1

/-- `refuse(ContractViolation)` unless the precondition holds (60_exceptions.md R290). -/
def requiring (pre : Prop) [Decidable pre] (k : Result) : Result :=
  if pre then k else .refused .contractViolation

/-- A value read from storage; a read of storage that holds no value is a fault (10_state.md R37). -/
def written {α : Type} (v : Option α) (k : α → Result) : Result :=
  match v with
  | some a => k a
  | none => .fault .unwrittenRead

/-- An error of the command word, raised before anything is read or written (30_encoding.md R84). -/
def unlessError (legal : Prop) [Decidable legal] (e : ErrCode) (s : State) (k : Result) : Result :=
  if legal then k else .next (s.raise e 0)

/-- A source slot: all 256 coefficients (70_reset_and_hazards.md R312). -/
def withSlot (s : State) (r : Slot) (k : List Int → Result) : Result := written (s.readSlot r.val) k

/-- A vector: the `K` consecutive slots from `r` on, as they stand (42_basemul.md R174). -/
def State.readVector (s : State) (r : Slot) (K : Nat) : Option (List (List Int)) :=
  (List.range K).mapM (fun k => s.readSlot (r.val + k))

/-- The record `blk` of size `S` exists in its buffer: `(blk + 1) * S <= BUFSZ` (20_memory.md R60). -/
abbrev RecordInside (S : Nat) (blk : Blk) : Prop := (blk.val + 1) * S ≤ 2048

/-- A source record: BufRange if it leaves the buffer, else its `S` bytes (20_memory.md R60). -/
def withRecord (s : State) (bs : BufSel) (blk : Blk) (S : Nat) (k : List Byte → Result) : Result :=
  unlessError (RecordInside S blk) .bufRange s (written (s.readBuf bs (blk.val * S) S) k)

/-- `BUF[bs][blk*S ..] <- rec`: the bytes go to `recordBase bs blk S` and on (20_memory.md R60). -/
def State.writeRecord (s : State) (bs : BufSel) (blk : Blk) (S : Nat) (bytes : List Byte) : State :=
  { s with mem := s.mem.writeRange (recordBase bs blk S) bytes }

end Sys2Proof.Machine
end

