-- ==== Sys2Proof/Machine/Basemul.lean ====
section
/-! DEFINITION. Pointwise multiplication: BASEMUL on register pairs, PWACC on vectors of slots
(42_basemul.md). -/

namespace Sys2Proof.Machine

/-- The twiddle of a BASEMUL: `ZETAS[zi]`, or `-ZETAS[zi]` if neg (42_basemul.md R172). -/
def basemulTwiddle (neg : Bool) (zi : Nat) : Int := if neg then -zeta zi else zeta zi

/-- The arguments of a BASEMUL: the pairs (ra, ra+1) and (rb, rb+1) and the twiddle (42_basemul.md R172). -/
def State.basemulOperands (s : State) (ra rb : Reg) (neg : Bool) (zi : Fin 128) : BasemulArgs where
  a0 := s.operand16 ra
  a1 := s.operand16 (pairUpper ra)
  b0 := s.operand16 rb
  b1 := s.operand16 (pairUpper rb)
  z := basemulTwiddle neg zi.val

/-- BASEMUL (42_basemul.md R172): IllegalField for a pair base of 15; all four sources are read before either
destination is written. -/
def execBasemul (rd ra rb : Reg) (neg : Bool) (zi : Fin 128) (s : State) : Result :=
  unlessError (rd.val ≤ 14 ∧ ra.val ≤ 14 ∧ rb.val ≤ 14) .illegalField s
    (requiring (s.basemulOperands ra rb neg zi).Legal
      (.next ((s.writeX rd (s.basemulOperands ra rb neg zi).product.1).writeX (pairUpper rd)
        (s.basemulOperands ra rb neg zi).product.2)))

/-- `n` successive base multiplications of PolyMulNTT, the first of them number `i`: each takes the next two
coefficients of both arrays, with the twiddle +ZETAS[64 + i/2] for even i and -ZETAS[64 + i/2] for odd i
(42_basemul.md R173). -/
def pairArgs : Nat → Nat → List Int → List Int → List BasemulArgs
  | 0, _, _, _ => []
  | n + 1, i, a, b =>
    { a0 := a.getD 0 0, a1 := a.getD 1 0, b0 := b.getD 0 0, b1 := b.getD 1 0,
      z := basemulTwiddle (i % 2 == 1) (64 + i / 2) } :: pairArgs n (i + 1) (a.drop 2) (b.drop 2)

/-- Every base multiplication of `PolyMulNTT(a, b)` meets its precondition (42_basemul.md R175). -/
abbrev PolyMulLegal (a b : List Int) : Prop := ∀ c ∈ pairArgs 128 0 a b, c.Legal

/-- `PolyMulNTT(a, b)` (42_basemul.md R173). -/
def polyMulNtt (a b : List Int) : List Int :=
  (pairArgs 128 0 a b).flatMap fun c => [c.product.1, c.product.2]

/-- The sum of the K products; the first initialises it, each later one is added without reduction
(42_basemul.md R175). -/
def pwaccSum : List (List Int × List Int) → List Int
  | [] => []
  | ab :: rest =>
    rest.foldl (fun acc ab => List.zipWith (fun u v => u + v) acc (polyMulNtt ab.1 ab.2))
      (polyMulNtt ab.1 ab.2)

/-- PWACC (42_basemul.md R175): IllegalField for K outside 1..4 or a vector past slot 15; all 2K source slots
are read as they stand, then the destination is written. -/
def execPwacc (rd ra rb : Slot) (K : Fin 8) (s : State) : Result :=
  unlessError (1 ≤ K.val ∧ K.val ≤ 4 ∧ ra.val + K.val ≤ 16 ∧ rb.val + K.val ≤ 16) .illegalField s
    (written (s.readVector ra K.val) fun as => written (s.readVector rb K.val) fun bs =>
      requiring (∀ ab ∈ as.zip bs, PolyMulLegal ab.1 ab.2)
        (.next (s.writeSlot rd.val (pwaccSum (as.zip bs)))))

end Sys2Proof.Machine
end

