-- ==== Sys2Proof/Machine/Compressor.lean ====
section
/-! DEFINITION. The coefficient compressor and decompressor: COMPRESS, DECOMPRESS (44_compress.md). -/

namespace Sys2Proof.Machine

/-- The record COMPRESS writes: the 256 compressed values, packed (44_compress.md R233). -/
def compressRecord (d : Nat) (p : List Int) : List Byte := packLSB d (p.map (compress d))

/-- The polynomial DECOMPRESS writes (44_compress.md R236). -/
def decompressRecord (d : Nat) (bytes : List Byte) : List Int := (unpackLSB d 256 bytes).map (decompress d)

/-- The commands that pack a slot into a record of `S` bytes: BufRange if the record leaves the buffer, then
the precondition on every coefficient (44_compress.md R233; 45_codec.md R253, R255). -/
def execPack (S : Nat) (pre : Int → Prop) [DecidablePred pre] (f : List Int → List Byte)
    (ra : Slot) (bs : BufSel) (blk : Blk) (s : State) : Result :=
  unlessError (RecordInside S blk) .bufRange s
    (withSlot s ra fun p =>
      requiring (∀ c ∈ p, pre c) (.next (s.writeRecord bs blk S (f p))))

/-- The commands that unpack a record of `S` bytes into a slot (44_compress.md R236; 45_codec.md R251, R257). -/
def execUnpack (S : Nat) (f : List Byte → List Int) (rd : Slot) (bs : BufSel) (blk : Blk) (s : State) :
    Result :=
  withRecord s bs blk S fun bytes => .next (s.writeSlot rd.val (f bytes))

/-- COMPRESS to d bits: a record of 32 * d bytes (44_compress.md R233). -/
def execCompress (d : Nat) (ra : Slot) (bs : BufSel) (blk : Blk) (s : State) : Result :=
  execPack (32 * d) CompressRange (compressRecord d) ra bs blk s

/-- COMPRESS, d = 4. -/
def execCompressD4 (ra : Slot) (bs : BufSel) (blk : Blk) (s : State) : Result := execCompress 4 ra bs blk s

/-- COMPRESS, d = 5. -/
def execCompressD5 (ra : Slot) (bs : BufSel) (blk : Blk) (s : State) : Result := execCompress 5 ra bs blk s

/-- COMPRESS, d = 10. -/
def execCompressD10 (ra : Slot) (bs : BufSel) (blk : Blk) (s : State) : Result := execCompress 10 ra bs blk s

/-- COMPRESS, d = 11. -/
def execCompressD11 (ra : Slot) (bs : BufSel) (blk : Blk) (s : State) : Result := execCompress 11 ra bs blk s

/-- DECOMPRESS from d bits: a record of 32 * d bytes (44_compress.md R236). -/
def execDecompress (d : Nat) (rd : Slot) (bs : BufSel) (blk : Blk) (s : State) : Result :=
  execUnpack (32 * d) (decompressRecord d) rd bs blk s

/-- DECOMPRESS, d = 4. -/
def execDecompressD4 (rd : Slot) (bs : BufSel) (blk : Blk) (s : State) : Result :=
  execDecompress 4 rd bs blk s

/-- DECOMPRESS, d = 5. -/
def execDecompressD5 (rd : Slot) (bs : BufSel) (blk : Blk) (s : State) : Result :=
  execDecompress 5 rd bs blk s

/-- DECOMPRESS, d = 10. -/
def execDecompressD10 (rd : Slot) (bs : BufSel) (blk : Blk) (s : State) : Result :=
  execDecompress 10 rd bs blk s

/-- DECOMPRESS, d = 11. -/
def execDecompressD11 (rd : Slot) (bs : BufSel) (blk : Blk) (s : State) : Result :=
  execDecompress 11 rd bs blk s

end Sys2Proof.Machine
end

