-- ==== Sys2Proof/Machine/Codec.lean ====
section
/-! DEFINITION. The message codec and the 12-bit byte codec: FROMMSG, TOMSG, TOBYTES, FROMBYTES
(45_codec.md). -/

namespace Sys2Proof.Machine

/-- `(0 - bit) & 1665` (45_codec.md R251). -/
def messageCoeff (bit : Bool) : Int := if bit then 1665 else 0

/-- The polynomial of a 32-byte message: coefficient 8i + j from bit j of byte i (45_codec.md R251). -/
def fromMsg (m : List Byte) : List Int := (bitStream m).map messageCoeff

/-- The message bit of a coefficient: `((2*c + 1664) div 3329) & 1` with c = csubq of it, which is
`Compress(x, 1)` (45_codec.md R253). -/
def messageBit (x : Int) : Nat := compress 1 x

/-- The 32-byte message of a polynomial (45_codec.md R253). -/
def toMsg (p : List Int) : List Byte := packLSB 1 (p.map messageBit)

/-- TOBYTES's precondition on a coefficient (45_codec.md R255). -/
abbrev Fits12 (c : Int) : Prop := 0 ≤ c ∧ c ≤ 4095

/-- `PackLSB(P[ra], 12)` (45_codec.md R255). -/
def toBytes (p : List Int) : List Byte := packLSB 12 (p.map Int.toNat)

/-- `UnpackLSB(rec, 12, 256)` (45_codec.md R257). -/
def fromBytes (bytes : List Byte) : List Int := (unpackLSB 12 256 bytes).map Int.ofNat

/-- FROMMSG (45_codec.md R251). -/
def execFrommsg (rd : Slot) (bs : BufSel) (blk : Blk) (s : State) : Result :=
  execUnpack 32 fromMsg rd bs blk s

/-- TOMSG (45_codec.md R253). -/
def execTomsg (ra : Slot) (bs : BufSel) (blk : Blk) (s : State) : Result :=
  execPack 32 CompressRange toMsg ra bs blk s

/-- TOBYTES (45_codec.md R255). -/
def execTobytes (ra : Slot) (bs : BufSel) (blk : Blk) (s : State) : Result :=
  execPack 384 Fits12 toBytes ra bs blk s

/-- FROMBYTES (45_codec.md R257). -/
def execFrombytes (rd : Slot) (bs : BufSel) (blk : Blk) (s : State) : Result :=
  execUnpack 384 fromBytes rd bs blk s

end Sys2Proof.Machine
end

