-- ==== Sys2Proof/Machine/Flags.lean ====
section
/-! DEFINITION. STATUS as the host reads it, and the computation of its one result flag (10_state.md R27,
R31; 46_compare.md R270). -/

namespace Sys2Proof.Machine

/-- The 4-bit code of an error (60_exceptions.md R281). -/
def ErrCode.code : ErrCode → Nat
  | .none => 0
  | .illegalOpcode => 1
  | .illegalField => 2
  | .bufRange => 3
  | .xofFail => 4
  | .rejCap => 5

/-- The STATUS word (10_state.md R31): BUSY in bit 0, CMPNE in bit 1, ERR in bits 7:4, the rest 0. -/
def State.statusWord (s : State) : Word :=
  BitVec.ofNat 32 (s.busy.toNat + 2 * s.cmpne.toNat + 16 * s.err.code)

/-- CLRERR: bit 31 of a word written to STATUS (10_state.md R31). -/
def clrErrBit (v : Word) : Bool := v.getLsbD 31

/-- The comparator's accumulator after all byte pairs (46_compare.md R270): the OR of their XORs. -/
def orOfXors (a b : List Byte) : Byte :=
  (List.zipWith (fun p q => p ^^^ q) a b).foldl (fun acc d => acc ||| d) 0

/-- CMPNE: 0 if the accumulator is 0, else 1 (46_compare.md R270). -/
def cmpneOf (a b : List Byte) : Bool := orOfXors a b != 0

end Sys2Proof.Machine
end

