-- ==== Sys2Proof/Machine/Compare.lean ====
section
/-! DEFINITION. The constant-time comparator: CTCMP (46_compare.md). -/

namespace Sys2Proof.Machine

/-- CTCMP (46_compare.md R270): BufRange for len above 2048; only the first len bytes of each buffer are
read. -/
def execCtcmp (len : Fin 4096) (s : State) : Result :=
  unlessError (len.val ≤ 2048) .bufRange s
    (written (s.readBuf .A 0 len.val) fun a => written (s.readBuf .B 0 len.val) fun b =>
      .next (s.writeCmpne (cmpneOf a b)))

end Sys2Proof.Machine
end

