-- ==== Sys2Proof/Machine/Reduction.lean ====
section
/-! DEFINITION. The reduction family: MONTRED, BARRETT, CSUBQ, MONTMUL on scalar registers; PBARRETT, PCSUBQ,
PADD, PSUB on polynomial slots (40_reduction.md). -/

namespace Sys2Proof.Machine

/-- MONTRED (40_reduction.md R112). -/
def execMontred (rd ra : Reg) (s : State) : Result :=
  requiring (MontRange (s.operand32 ra)) (.next (s.writeX rd (montRed (s.operand32 ra))))

/-- BARRETT (40_reduction.md R114). -/
def execBarrett (rd ra : Reg) (s : State) : Result :=
  .next (s.writeX rd (barrett (s.operand16 ra)))

/-- CSUBQ (40_reduction.md R116). -/
def execCsubq (rd ra : Reg) (s : State) : Result :=
  requiring (CsubqRange (s.operand16 ra)) (.next (s.writeX rd (csubq (s.operand16 ra))))

/-- MONTMUL (40_reduction.md R118). -/
def execMontmul (rd ra rb : Reg) (s : State) : Result :=
  requiring (MontRange (s.operand16 ra * s.operand16 rb))
    (.next (s.writeX rd (fqmul (s.operand16 ra) (s.operand16 rb))))

/-- PBARRETT (40_reduction.md R120). -/
def execPbarrett (rd ra : Slot) (s : State) : Result :=
  withSlot s ra fun a => .next (s.writeSlot rd.val (a.map barrett))

/-- PCSUBQ (40_reduction.md R121). -/
def execPcsubq (rd ra : Slot) (s : State) : Result :=
  withSlot s ra fun a =>
    requiring (∀ c ∈ a, CsubqRange c) (.next (s.writeSlot rd.val (a.map csubq)))

/-- The coefficient-wise commands with two sources: both are read before the destination is written, and every
result must fit 16 bits (40_reduction.md R119, R122, R123). -/
def execPointwise (f : Int → Int → Int) (rd ra rb : Slot) (s : State) : Result :=
  withSlot s ra fun a => withSlot s rb fun b =>
    requiring (∀ c ∈ List.zipWith f a b, Fits16 c) (.next (s.writeSlot rd.val (List.zipWith f a b)))

/-- PADD (40_reduction.md R122). -/
def execPadd (rd ra rb : Slot) (s : State) : Result := execPointwise (fun a b => a + b) rd ra rb s

/-- PSUB (40_reduction.md R123). -/
def execPsub (rd ra rb : Slot) (s : State) : Result := execPointwise (fun a b => a - b) rd ra rb s

end Sys2Proof.Machine
end

