-- ==== Sys2Proof/Machine/Source.lean ====
section
/-! DEFINITION. The XOF port (43_sampler.md R196 to R199): what the byte source answers to a request. -/

namespace Sys2Proof.Machine

/-- `n` bytes numbered from `i` on: those listed, then what `free` gives for the numbers that follow. -/
def listedThenFree (free : Nat → Byte) : Nat → Nat → List Byte → List Byte
  | 0, _, _ => []
  | n + 1, i, [] => free i :: listedThenFree free n (i + 1) []
  | n + 1, i, b :: bs => b :: listedThenFree free n (i + 1) bs

/-- `PRF(in33, n)`, a byte string of length n (43_sampler.md R196). -/
def ByteSource.prfBytes (src : ByteSource) (in33 : List Byte) (n : Nat) : List Byte :=
  listedThenFree (Config.prfByte in33 n) n 0 ((src.prf.lookup (in33, n)).getD [])

/-- Block `k` of the stream `XOF(in34)`: stream bytes 168k to 168k+167 (43_sampler.md R196). -/
def ByteSource.xofBlock (src : ByteSource) (in34 : List Byte) (k : Nat) : List Byte :=
  listedThenFree (Config.xofByte in34) Config.xofBlockSize (Config.xofBlockSize * k)
    (((src.xof.lookup in34).getD []).drop (Config.xofBlockSize * k))

/-- The answer to the next request, and the answers that remain (43_sampler.md R199). -/
def nextAnswer : List SourceAnswer → SourceAnswer × List SourceAnswer
  | [] => (.ok, [])
  | a :: rest => (a, rest)

/-- The state once the byte source has only `rest` left to answer. -/
def State.setAnswers (s : State) (rest : List SourceAnswer) : State :=
  { s with source := { s.source with answers := rest } }

/-- A command whose request is never answered: BUSY stays 1 (43_sampler.md R199). -/
def State.hang (s : State) : State := { s with busy := true }

end Sys2Proof.Machine
end

