-- ==== Sys2Proof/Machine/Sampler.lean ====
section
/-! DEFINITION. The samplers: CBD, GETNOISE, GENA (43_sampler.md). -/

namespace Sys2Proof.Machine

/-! ### Centered binomial sampling -/

/-- The number of ones among some bits. -/
def popcount (bits : List Bool) : Int := (bits.count true : Nat)

/-- One coefficient from 2*eta bits: popcount of the first eta minus popcount of the rest
(43_sampler.md R191). -/
def cbdCoeff (eta : Nat) (bits : List Bool) : Int := popcount (bits.take eta) - popcount (bits.drop eta)

/-- `cbd(buf, eta)` (43_sampler.md R191). -/
def cbd (eta : Nat) (buf : List Byte) : List Int :=
  (chunks (2 * eta) 256 (bitStream buf)).map (cbdCoeff eta)

/-- CBD with parameter eta (43_sampler.md R192). -/
def execCbd (eta : Nat) (rd : Slot) (bs : BufSel) (blk : Blk) (s : State) : Result :=
  withRecord s bs blk (64 * eta) fun buf => .next (s.writeSlot rd.val (cbd eta buf))

/-- CBD, eta = 2 (43_sampler.md R192). -/
def execCbdEta2 (rd : Slot) (bs : BufSel) (blk : Blk) (s : State) : Result := execCbd 2 rd bs blk s

/-- CBD, eta = 3 (43_sampler.md R192). -/
def execCbdEta3 (rd : Slot) (bs : BufSel) (blk : Blk) (s : State) : Result := execCbd 3 rd bs blk s

/-! ### Noise generation -/

/-- in33: the 32 bytes of SEED, then the nonce (43_sampler.md R200). -/
def State.noiseInput (s : State) (nonce : Byte) : List Byte := s.seed.toList ++ [nonce]

/-- The noise polynomial that a GETNOISE samples when its request is answered ok (43_sampler.md R200). -/
def State.noise (s : State) (eta : Nat) (nonce : Byte) : List Int :=
  cbd eta (s.source.prfBytes (s.noiseInput nonce) (64 * eta))

/-- GETNOISE with parameter eta (43_sampler.md R200): one request to the PRF service. -/
def execGetnoise (eta : Nat) (rd : Slot) (nonce : Byte) (s : State) : Result :=
  let s' := s.setAnswers (nextAnswer s.source.answers).2
  match (nextAnswer s.source.answers).1 with
  | .ok => .next (s'.writeSlot rd.val (s.noise eta nonce))
  | .fail code => .next (s'.raiseLosing rd .xofFail code)
  | .silent => .next s'.hang

/-- GETNOISE, eta = 2 (43_sampler.md R200). -/
def execGetnoiseEta2 (rd : Slot) (nonce : Byte) (s : State) : Result := execGetnoise 2 rd nonce s

/-- GETNOISE, eta = 3 (43_sampler.md R200). -/
def execGetnoiseEta3 (rd : Slot) (nonce : Byte) (s : State) : Result := execGetnoise 3 rd nonce s

/-! ### Rejection sampling of a matrix entry -/

/-- `if ctr < 256 and d < 3329: r[ctr] = d; ctr = ctr + 1`, with r the coefficients accepted so far and ctr
their number (43_sampler.md R203). -/
def accept (r : List Int) (d : Nat) : List Int :=
  if r.length < 256 ∧ d < 3329 then r ++ [(d : Int)] else r

/-- The two 12-bit candidates of a 3-byte group (43_sampler.md R203). -/
def groupCandidates (b0 b1 b2 : Byte) : List Nat :=
  [b0.toNat + b1.toNat % 16 * 256, b1.toNat / 16 + b2.toNat * 16]

/-- The candidates of a byte string, group by group (43_sampler.md R203). -/
def candidates : List Byte → List Nat
  | b0 :: b1 :: b2 :: rest => groupCandidates b0 b1 b2 ++ candidates rest
  | _ => []

/-- `RejParse(block, r, ctr)` (43_sampler.md R203). -/
def rejParse (block : List Byte) (r : List Int) : List Int := (candidates block).foldl accept r

/-- How the loop of GENA ends. -/
inductive RejEnd
  | done (r : List Int)
  | fail (code : Word)
  | cap
  | silent
  deriving DecidableEq, Repr

/-- The loop of GENA (43_sampler.md R205). `block k` is block k of the stream, `left` the number of blocks
that may still be requested, `nblk` the number requested so far; it answers how the loop ends and the byte
source's answers that remain. The count is compared with 256 first, then the cap is tested, then a block
requested. -/
def rejLoop (block : Nat → List Byte) :
    Nat → Nat → List SourceAnswer → List Int → RejEnd × List SourceAnswer
  | 0, _, answers, r => if r.length < 256 then (.cap, answers) else (.done r, answers)
  | left + 1, nblk, answers, r =>
    if r.length < 256 then
      match (nextAnswer answers).1 with
      | .ok => rejLoop block left (nblk + 1) (nextAnswer answers).2 (rejParse (block nblk) r)
      | .fail code => (.fail code, (nextAnswer answers).2)
      | .silent => (.silent, (nextAnswer answers).2)
    else (.done r, answers)

/-- One session of GENA with the XOF service: the start request, then the loop (43_sampler.md R205). -/
def rejSession (block : Nat → List Byte) (cap : Nat) (answers : List SourceAnswer) :
    RejEnd × List SourceAnswer :=
  match (nextAnswer answers).1 with
  | .ok => rejLoop block cap 0 (nextAnswer answers).2 []
  | .fail code => (.fail code, (nextAnswer answers).2)
  | .silent => (.silent, (nextAnswer answers).2)

/-- in34: the 32 bytes of SEED, then row and column, or column and row if transposed (43_sampler.md R205). -/
def State.matrixInput (s : State) (row col : Fin 16) (t : Bool) : List Byte :=
  s.seed.toList ++
    (if t then [BitVec.ofNat 8 col.val, BitVec.ofNat 8 row.val]
     else [BitVec.ofNat 8 row.val, BitVec.ofNat 8 col.val])

/-- What a GENA leaves, from how its session ended (43_sampler.md R205; 60_exceptions.md R283, R285). -/
def State.afterSession (s : State) (rd : Slot) : RejEnd → State
  | .done r => s.writeSlot rd.val r
  | .fail code => s.raiseLosing rd .xofFail code
  | .cap => s.raiseLosing rd .rejCap 0
  | .silent => s.hang

/-- GENA (43_sampler.md R205). -/
def execGena (rd : Slot) (row col : Fin 16) (t : Bool) (s : State) : Result :=
  let e := rejSession (s.source.xofBlock (s.matrixInput row col t)) Config.rejMaxBlocks s.source.answers
  .next ((s.setAnswers e.2).afterSession rd e.1)

end Sys2Proof.Machine
end

