-- ==== Sys2Proof/Machine/Transform.lean ====
section
/-! DEFINITION. The transform engine: NTT and INTT (41_ntt.md). One layer of span `len` walks the groups
`start = 0, 2*len, 4*len, …` and takes one twiddle for each; inside a group it pairs position `j` of the
first `len` positions with position `j + len`. -/

namespace Sys2Proof.Machine

/-- The forward butterfly on the pair (r[j], r[j+len]) (41_ntt.md R143). -/
def fwdButterfly (z lo hi : Int) : Int × Int :=
  let t := fqmul z hi
  (lo + t, lo - t)

/-- The inverse butterfly on the pair (r[j], r[j+len]) (41_ntt.md R145). -/
def invButterfly (red : Bool) (z lo hi : Int) : Int × Int :=
  let s := lo + hi
  let d := lo - hi
  (if red then barrett s else s, fqmul z d)

/-- One layer of span `len`: one group of `2 * len` positions for each twiddle (41_ntt.md R144, R146). -/
def layer (bf : Int → Int → Int → Int × Int) (len : Nat) : List Int → List Int → List Int
  | [], _ => []
  | z :: zs, r =>
    let pairs := List.zipWith (bf z) (r.take len) ((r.drop len).take len)
    pairs.map Prod.fst ++ pairs.map Prod.snd ++ layer bf len zs (r.drop (2 * len))

/-- `n` successive twiddles of the forward ROM from index `k` on. -/
def fwdTwiddles (k n : Nat) : List Int := (List.range' k n).map zeta

/-- `n` successive twiddles of the inverse ROM from index `k` on. -/
def invTwiddles (k n : Nat) : List Int := (List.range' k n).map zetaInv

/-- The forward layer of span `len`: ZETAS indices `128/len` to `256/len - 1` (41_ntt.md R144). -/
def fwdLayer (r : List Int) (len : Nat) : List Int :=
  layer fwdButterfly len (fwdTwiddles (128 / len) (128 / len)) r

/-- The seven layers of NTT, before its final Barrett pass (41_ntt.md R144). -/
def nttLayers (r : List Int) : List Int := [128, 64, 32, 16, 8, 4, 2].foldl fwdLayer r

/-- NTT: seven layers, then Barrett on every coefficient (41_ntt.md R144). -/
def ntt (r : List Int) : List Int := (nttLayers r).map barrett

/-- One inverse layer: its span, whether it carries the Barrett reduction, and its first ZETAS_INV index. -/
structure InvLayer where
  len : Nat
  red : Bool
  first : Nat
  deriving DecidableEq, Repr

/-- The inverse layers in order: Barrett in layers 1, 3, 5, 7, and the ZETAS_INV index of each layer's first
group (41_ntt.md R146). -/
def invLayers : List InvLayer :=
  [⟨2, true, 0⟩, ⟨4, false, 64⟩, ⟨8, true, 96⟩, ⟨16, false, 112⟩, ⟨32, true, 120⟩, ⟨64, false, 124⟩,
   ⟨128, true, 126⟩]

/-- The inverse layer described by `l`. -/
def invLayer (r : List Int) (l : InvLayer) : List Int :=
  layer (invButterfly l.red) l.len (invTwiddles l.first (128 / l.len)) r

/-- INTT: seven layers, then the scale pass with ZETAS_INV[127] (41_ntt.md R146). -/
def intt (r : List Int) : List Int := (invLayers.foldl invLayer r).map (fqmul (zetaInv 127))

/-- NTT's precondition on a coefficient (41_ntt.md R144). -/
abbrev NttRange (c : Int) : Prop := -9471 ≤ c ∧ c ≤ 9471

/-- INTT's precondition on a coefficient (41_ntt.md R146). -/
abbrev InttRange (c : Int) : Prop := -16383 ≤ c ∧ c ≤ 16383

/-- NTT (41_ntt.md R144). -/
def execNtt (rd : Slot) (s : State) : Result :=
  withSlot s rd fun r => requiring (∀ c ∈ r, NttRange c) (.next (s.writeSlot rd.val (ntt r)))

/-- INTT (41_ntt.md R146). -/
def execIntt (rd : Slot) (s : State) : Result :=
  withSlot s rd fun r => requiring (∀ c ∈ r, InttRange c) (.next (s.writeSlot rd.val (intt r)))

end Sys2Proof.Machine
end

