-- ==== Sys2Proof/Machine/Dispatch.lean ====
section
/-! DEFINITION. One arm per command: the whole effect of an accepted command
(70_reset_and_hazards.md R314). -/

namespace Sys2Proof.Machine

def exec (i : Instr) (s : State) : Host.Outcome State Fault Refusal :=
  match i with
  | .montred rd ra => Sys2Proof.Machine.execMontred rd ra s
  | .barrett rd ra => Sys2Proof.Machine.execBarrett rd ra s
  | .csubq rd ra => Sys2Proof.Machine.execCsubq rd ra s
  | .montmul rd ra rb => Sys2Proof.Machine.execMontmul rd ra rb s
  | .basemul rd ra rb neg zi => Sys2Proof.Machine.execBasemul rd ra rb neg zi s
  | .pbarrett rd ra => Sys2Proof.Machine.execPbarrett rd ra s
  | .pcsubq rd ra => Sys2Proof.Machine.execPcsubq rd ra s
  | .padd rd ra rb => Sys2Proof.Machine.execPadd rd ra rb s
  | .psub rd ra rb => Sys2Proof.Machine.execPsub rd ra rb s
  | .ntt rd => Sys2Proof.Machine.execNtt rd s
  | .intt rd => Sys2Proof.Machine.execIntt rd s
  | .pwacc rd ra rb K => Sys2Proof.Machine.execPwacc rd ra rb K s
  | .cbdEta2 rd bs blk => Sys2Proof.Machine.execCbdEta2 rd bs blk s
  | .cbdEta3 rd bs blk => Sys2Proof.Machine.execCbdEta3 rd bs blk s
  | .getnoiseEta2 rd nonce => Sys2Proof.Machine.execGetnoiseEta2 rd nonce s
  | .getnoiseEta3 rd nonce => Sys2Proof.Machine.execGetnoiseEta3 rd nonce s
  | .gena rd row col t => Sys2Proof.Machine.execGena rd row col t s
  | .compressD4 ra bs blk => Sys2Proof.Machine.execCompressD4 ra bs blk s
  | .compressD5 ra bs blk => Sys2Proof.Machine.execCompressD5 ra bs blk s
  | .compressD10 ra bs blk => Sys2Proof.Machine.execCompressD10 ra bs blk s
  | .compressD11 ra bs blk => Sys2Proof.Machine.execCompressD11 ra bs blk s
  | .decompressD4 rd bs blk => Sys2Proof.Machine.execDecompressD4 rd bs blk s
  | .decompressD5 rd bs blk => Sys2Proof.Machine.execDecompressD5 rd bs blk s
  | .decompressD10 rd bs blk => Sys2Proof.Machine.execDecompressD10 rd bs blk s
  | .decompressD11 rd bs blk => Sys2Proof.Machine.execDecompressD11 rd bs blk s
  | .frommsg rd bs blk => Sys2Proof.Machine.execFrommsg rd bs blk s
  | .tomsg ra bs blk => Sys2Proof.Machine.execTomsg ra bs blk s
  | .tobytes ra bs blk => Sys2Proof.Machine.execTobytes ra bs blk s
  | .frombytes rd bs blk => Sys2Proof.Machine.execFrombytes rd bs blk s
  | .ctcmp len => Sys2Proof.Machine.execCtcmp len s

end Sys2Proof.Machine
end

