-- ==== Sys2Proof/Machine/HostPort.lean ====
section
/-! DEFINITION. The host's side of the engine: the address map (20_memory.md R56 to R59), the abstract
accessors bound to it (R51), the issue of a command (10_state.md R30) and the platform reset. -/

namespace Sys2Proof.Machine

/-! ### The address map -/

/-- What stands at an offset (20_memory.md R56). -/
inductive Region
  | cmd
  | status
  | errInfo
  | x (i : Fin 16)
  | seed (i : Fin 32)
  | storage
  | rom (k : Nat)
  | reserved
  deriving DecidableEq, Repr

/-- The map of 20_memory.md R56. A byte of the ROM window is numbered from ZETAS[0] on: ZETAS is bytes 0 to
255 and ZETAS_INV bytes 256 to 511. -/
def regionAt (off : Nat) : Region :=
  if off < 0x04 then .cmd
  else if off < 0x08 then .status
  else if off < 0x0C then .errInfo
  else if off < 0x40 then .reserved
  else if off < 0x80 then .x (Fin.ofNat 16 ((off - 0x40) / 4))
  else if off < 0xA0 then .seed (Fin.ofNat 32 (off - 0x80))
  else if off < 0x1000 then .reserved
  else if off < 0x4000 then .storage
  else if off < 0x4200 then .rom (off - 0x4000)
  else .reserved

/-- Regions that take 4-byte accesses only (20_memory.md R58). -/
def Region.wordOnly : Region → Bool
  | .cmd | .status | .errInfo | .x _ => true
  | .seed _ | .storage | .rom _ | .reserved => false

/-- An access the map accepts: 1, 2 or 4 bytes, naturally aligned, not at a reserved offset, and of 4 bytes
where only those are taken (20_memory.md R57, R58). Every window begins and ends at a multiple of 4, so an
aligned access never leaves the window it begins in. -/
abbrev AccessOk (off size : Nat) : Prop :=
  (size = 1 ∨ size = 2 ∨ size = 4) ∧ off % size = 0 ∧ regionAt off ≠ .reserved ∧
    ((regionAt off).wordOnly = true → size = 4)

/-- Byte `k` of the ROM window: entries of 16 bits, low byte first (20_memory.md R53, R56). -/
def romByte (k : Nat) : Byte := BitVec.ofNat 8 ((zetas ++ zetasInv).getD (k / 2) 0 / 256 ^ (k % 2))

/-- The byte at an offset of a byte-addressed window, if it holds a value. -/
def State.byteAt (s : State) (off : Nat) : Option Byte :=
  match regionAt off with
  | .seed i => some s.seed[i]
  | .storage => s.mem.read off
  | .rom k => some (romByte k)
  | .cmd | .status | .errInfo | .x _ | .reserved => none

/-- The value at an offset, little-endian (20_memory.md R53): CMD reads 0 (10_state.md R30). -/
def State.load (s : State) (off size : Nat) : Option Word :=
  match regionAt off with
  | .cmd => some 0
  | .status => some s.statusWord
  | .errInfo => some s.errInfo
  | .x i => some s.x[i]
  | .seed _ | .storage | .rom _ | .reserved =>
    ((List.range size).mapM (fun k => s.byteAt (off + k))).map wordOfBytes

/-- SEED after `bytes` are stored from byte `i` on. -/
def storeSeed (seed : Vector Byte 32) (i : Nat) : List Byte → Vector Byte 32
  | [] => seed
  | b :: bs => storeSeed (seed.setIfInBounds i b) (i + 1) bs

/-! ### Host actions -/

/-- The error a decode error raises (60_exceptions.md R281). -/
def errCodeOf : DecodeError → ErrCode
  | .illegalOpcode => .illegalOpcode
  | .illegalField => .illegalField
  | .bufRange => .bufRange

/-- A CMD write while BUSY = 0 (10_state.md R30): ignored while ERR is not 0 (60_exceptions.md R286), else the
word is decoded and executed, or its decode error raised (30_encoding.md R84). -/
def issue (w : Word) (s : State) : Result :=
  if s.err = .none then
    match decode w with
    | .ok i => exec i s
    | .error e => .next (s.raise (errCodeOf e) 0)
  else .next s

/-- A STATUS write while BUSY = 0 (10_state.md R31). -/
def writeStatus (v : Word) (s : State) : State := if clrErrBit v then s.clearErr else s

/-- A host read (20_memory.md R58, R59; 70_reset_and_hazards.md R315). -/
def hostRead (off size : Nat) (s : State) : Result :=
  if s.busy = true ∧ ¬(off = 0x04 ∧ size = 4) then .refused .accessWhileBusy
  else if AccessOk off size then
    written (s.load off size) fun v => .next { s with readData := v }
  else .refused .busError

/-- A host write (20_memory.md R57 to R59; 70_reset_and_hazards.md R315). -/
def hostWrite (off size : Nat) (v : Word) (s : State) : Result :=
  if s.busy = true then .refused .accessWhileBusy
  else if AccessOk off size then
    match regionAt off with
    | .cmd => issue v s
    | .status => .next (writeStatus v s)
    | .errInfo => .next s
    | .x i => .next { s with x := s.x.set i v }
    | .seed i => .next { s with seed := storeSeed s.seed i.val (wordBytes size v) }
    | .storage => .next { s with mem := s.mem.writeRange off (wordBytes size v) }
    | .rom _ | .reserved => .refused .busError
  else .refused .busError

/-- One action of the outside on the engine. -/
def hostAct (a : HostAction) (s : State) : Result :=
  match a with
  | .read off size => hostRead off size s
  | .write off size v => hostWrite off size v s
  | .reset => .next s.platformReset

/-! ### The abstract accessors (20_memory.md R51), bound to the map -/

/-- `HostReadX(i)`. -/
def hostReadX (i : Fin 16) : HostAction := .read (0x40 + 4 * i.val) 4

/-- `HostWriteX(i, v32)`. -/
def hostWriteX (i : Fin 16) (v : Word) : HostAction := .write (0x40 + 4 * i.val) 4 v

/-- `HostReadCoeff(s, i)`. -/
def hostReadCoeff (r : Slot) (i : Fin 256) : HostAction := .read (slotBase r.val + 2 * i.val) 2

/-- `HostWriteCoeff(s, i, v16)`. -/
def hostWriteCoeff (r : Slot) (i : Fin 256) (v : Coeff) : HostAction :=
  .write (slotBase r.val + 2 * i.val) 2 (v.zeroExtend 32)

/-- `HostReadBuf(b, o)`. -/
def hostReadBuf (b : BufSel) (o : Fin 2048) : HostAction := .read (bufBase b + o.val) 1

/-- `HostWriteBuf(b, o, v8)`. -/
def hostWriteBuf (b : BufSel) (o : Fin 2048) (v : Byte) : HostAction :=
  .write (bufBase b + o.val) 1 (v.zeroExtend 32)

/-- `HostReadSeed(i)`. -/
def hostReadSeed (i : Fin 32) : HostAction := .read (0x80 + i.val) 1

/-- `HostWriteSeed(i, v8)`. -/
def hostWriteSeed (i : Fin 32) (v : Byte) : HostAction := .write (0x80 + i.val) 1 (v.zeroExtend 32)

/-- `HostReadZeta(k)`. -/
def hostReadZeta (k : Fin 128) : HostAction := .read (0x4000 + 2 * k.val) 2

/-- `HostReadZetaInv(k)`. -/
def hostReadZetaInv (k : Fin 128) : HostAction := .read (0x4100 + 2 * k.val) 2

/-- `HostReadStatus()`. -/
def hostReadStatus : HostAction := .read 0x04 4

/-- `HostReadErrInfo()`. -/
def hostReadErrInfo : HostAction := .read 0x08 4

/-- `HostClearErr()`: a STATUS write with bit 31 set. -/
def hostClearErr : HostAction := .write 0x04 4 0x80000000

/-- `HostIssue(w32)`: a CMD write. -/
def hostIssue (w : Word) : HostAction := .write 0x00 4 w

/-! ### The step -/

/-- One step: the next action of the outside acts on the engine (70_reset_and_hazards.md R314); while there is
none the machine idles. -/
def stepHost (s : State) : Result :=
  match s.host with
  | [] => .next s
  | a :: rest => hostAct a { s with host := rest }

/-- The state whose next step issues the command word `w` to an engine that accepts it (10_state.md R30). -/
def State.withCommand (s : State) (w : Word) : State :=
  { s.clearErr with host := hostIssue w :: s.host, busy := false }

end Sys2Proof.Machine
end

