-- ==== Sys2Proof/Machine/Step.lean ====
section
/-! DEFINITION. One step of the machine, and a state whose next step runs a given command word. -/

namespace Sys2Proof.Machine

/-- One step (70_reset_and_hazards.md R314). -/
def step (s : State) : Host.Outcome State Fault Refusal := stepHost s

/-- `s` with a command word about to be issued. The engine fetches nothing (10_state.md R26): a command comes
from the host's write to CMD, and is accepted while BUSY = 0 and ERR = 0 (log 3). -/
def State.withFetchWord (s : State) (_nbits w : Nat) : State := s.withCommand (BitVec.ofNat 32 w)

end Sys2Proof.Machine
end

