-- ==== Sys2Proof/Safety.lean ====
section
/-! DEFINITION. The terms the claims use: what a good state and a safe run are, which storage a command may
write, and the schedules and sums of the spec written out index by index, beside which the machine's own
functions are held. -/

namespace Sys2Proof.Machine

/-! ### Good states and safe runs -/

/-- The invariant of the machine: memory is in canonical form and inside its windows (20_memory.md R56);
ERRINFO is 0 unless the error is XofFail (60_exceptions.md R281); a command in progress was accepted with
ERR = 0 (10_state.md R30). -/
structure State.Inv (s : State) : Prop where
  memWf : s.mem.wf
  infoOnlyOfXofFail : s.err ≠ .xofFail → s.errInfo = 0
  busyHasNoError : s.busy = true → s.err = .none

/-- The host's next `k` actions neither fault nor are refused. -/
def State.SafeFor (k : Nat) (s : State) : Prop := ∃ t, Sys2Proof.core.run k s = .next t

/-! ### Frames -/

/-- STATUS and ERRINFO of the two states agree. -/
abbrev SameStatus (s t : State) : Prop :=
  t.busy = s.busy ∧ t.cmpne = s.cmpne ∧ t.err = s.err ∧ t.errInfo = s.errInfo

/-- What is outside the engine agrees in the two states. -/
abbrev SameOutside (s t : State) : Prop :=
  t.source = s.source ∧ t.host = s.host ∧ t.readData = s.readData

/-- Every offset outside the `n` bytes from `a` on reads the same in the two states. -/
abbrev SameMemoryBut (a n : Nat) (s t : State) : Prop :=
  ∀ b, b < a ∨ a + n ≤ b → t.mem.read b = s.mem.read b

end Sys2Proof.Machine

namespace Sys2Proof

open Sys2Proof.Machine

/-! ### Who writes what (10_state.md R38) -/

/-- Column x: the commands that write scalar registers. -/
def Instr.writesX : Instr → Bool
  | .montred .. | .barrett .. | .csubq .. | .montmul .. | .basemul .. => true
  | .pbarrett .. | .pcsubq .. | .padd .. | .psub .. | .ntt .. | .intt .. | .pwacc .. | .cbdEta2 ..
  | .cbdEta3 .. | .getnoiseEta2 .. | .getnoiseEta3 .. | .gena .. | .compressD4 .. | .compressD5 ..
  | .compressD10 .. | .compressD11 .. | .decompressD4 .. | .decompressD5 .. | .decompressD10 ..
  | .decompressD11 .. | .frommsg .. | .tomsg .. | .tobytes .. | .frombytes .. | .ctcmp .. => false

/-- Column CMPNE: the command that writes the comparison flag. -/
def Instr.writesCmpne : Instr → Bool
  | .ctcmp .. => true
  | .montred .. | .barrett .. | .csubq .. | .montmul .. | .basemul .. | .pbarrett .. | .pcsubq ..
  | .padd .. | .psub .. | .ntt .. | .intt .. | .pwacc .. | .cbdEta2 .. | .cbdEta3 ..
  | .getnoiseEta2 .. | .getnoiseEta3 .. | .gena .. | .compressD4 .. | .compressD5 ..
  | .compressD10 .. | .compressD11 .. | .decompressD4 .. | .decompressD5 .. | .decompressD10 ..
  | .decompressD11 .. | .frommsg .. | .tomsg .. | .tobytes .. | .frombytes .. => false

/-- Column XOF port: the commands that make requests to the byte source. -/
def Instr.usesPort : Instr → Bool
  | .getnoiseEta2 .. | .getnoiseEta3 .. | .gena .. => true
  | .montred .. | .barrett .. | .csubq .. | .montmul .. | .basemul .. | .pbarrett .. | .pcsubq ..
  | .padd .. | .psub .. | .ntt .. | .intt .. | .pwacc .. | .cbdEta2 .. | .cbdEta3 ..
  | .compressD4 .. | .compressD5 .. | .compressD10 .. | .compressD11 .. | .decompressD4 ..
  | .decompressD5 .. | .decompressD10 .. | .decompressD11 .. | .frommsg .. | .tomsg .. | .tobytes ..
  | .frombytes .. | .ctcmp .. => false

/-- The storage a command may write: the 512 bytes of its destination slot (column P), the record it packs
into (column BUF), or nothing. Given as a first offset and a number of bytes. -/
def Instr.storeRange : Instr → Nat × Nat
  | .pbarrett rd _ | .pcsubq rd _ | .padd rd _ _ | .psub rd _ _ | .ntt rd | .intt rd
  | .pwacc rd _ _ _ | .cbdEta2 rd _ _ | .cbdEta3 rd _ _ | .getnoiseEta2 rd _ | .getnoiseEta3 rd _
  | .gena rd _ _ _ | .decompressD4 rd _ _ | .decompressD5 rd _ _ | .decompressD10 rd _ _
  | .decompressD11 rd _ _ | .frommsg rd _ _ | .frombytes rd _ _ => (slotBase rd.val, slotBytes)
  | .compressD4 _ bs blk => (recordBase bs blk 128, 128)
  | .compressD5 _ bs blk => (recordBase bs blk 160, 160)
  | .compressD10 _ bs blk => (recordBase bs blk 320, 320)
  | .compressD11 _ bs blk => (recordBase bs blk 352, 352)
  | .tomsg _ bs blk => (recordBase bs blk 32, 32)
  | .tobytes _ bs blk => (recordBase bs blk 384, 384)
  | .montred .. | .barrett .. | .csubq .. | .montmul .. | .basemul .. | .ctcmp .. => (0, 0)

end Sys2Proof

namespace Sys2Proof.Machine

/-! ### The accesses the address map takes (20_memory.md R56, R58), window by window -/

/-- A 4-byte access to CMD, STATUS, ERRINFO or x[i], at a multiple of 4. -/
abbrev WordAccess (off size : Nat) : Prop :=
  size = 4 ∧ off % 4 = 0 ∧ (off < 0x0C ∨ 0x40 ≤ off ∧ off < 0x80)

/-- A naturally aligned access of 1, 2 or 4 bytes wholly inside the window from `lo` to `hi`. -/
abbrev ByteAccess (lo hi off size : Nat) : Prop :=
  (size = 1 ∨ size = 2 ∨ size = 4) ∧ off % size = 0 ∧ lo ≤ off ∧ off + size ≤ hi

/-- An access the map takes for reading. -/
abbrev Readable (off size : Nat) : Prop :=
  WordAccess off size ∨ ByteAccess 0x80 0xA0 off size ∨ ByteAccess 0x1000 0x1800 off size ∨
    ByteAccess 0x1800 0x2000 off size ∨ ByteAccess 0x2000 0x4000 off size ∨
    ByteAccess 0x4000 0x4100 off size ∨ ByteAccess 0x4100 0x4200 off size

/-! ### The spec's formulas, index by index -/

/-- `BitsLSB(bytes, k)` (00_scope.md R13). -/
def bitLSB (bytes : List Byte) (k : Nat) : Bool := (bytes.getD (k / 8) 0).getLsbD (k % 8)

/-- The number of ones among stream bits `p` to `p + n - 1`. -/
def onesAt (bytes : List Byte) (p n : Nat) : Int :=
  ((List.range n).map (fun j => ((bitLSB bytes (p + j)).toNat : Int))).sum

/-- The 7-bit bit reversal (41_ntt.md R141). -/
def brv7 (k : Nat) : Nat :=
  ((List.range 7).map (fun j => k / 2 ^ j % 2 * 2 ^ (6 - j))).sum

/-- `FwdButterfly(r, j, len, z)` on the array r (41_ntt.md R143). -/
def fwdButterflyAt (len : Nat) (z : Int) (r : List Int) (j : Nat) : List Int :=
  let t := fqmul z (r.getD (j + len) 0)
  (r.set (j + len) (r.getD j 0 - t)).set j (r.getD j 0 + t)

/-- `InvButterfly(r, j, len, z, red)` on the array r (41_ntt.md R145). -/
def invButterflyAt (len : Nat) (red : Bool) (z : Int) (r : List Int) (j : Nat) : List Int :=
  let t := r.getD j 0
  let s := t + r.getD (j + len) 0
  let d := t - r.getD (j + len) 0
  (r.set j (if red then barrett s else s)).set (j + len) (fqmul z d)

/-- The loops over `start` and `j` of one layer: group `g` begins at `2 * len * g` and takes twiddle `tw g`. -/
def layerLoop (bf : Int → List Int → Nat → List Int) (len : Nat) (tw : Nat → Int) (r : List Int) :
    List Int :=
  (List.range (128 / len)).foldl
    (fun r g => (List.range' (2 * len * g) len).foldl (bf (tw g)) r) r

/-- NTT as the loops of 41_ntt.md R144: k begins at 1, so layer `len` begins at k = 128/len. -/
def nttLoops (r : List Int) : List Int :=
  ([128, 64, 32, 16, 8, 4, 2].foldl
    (fun r len => layerLoop (fwdButterflyAt len) len (fun g => zeta (128 / len + g)) r) r).map barrett

/-- INTT as the loops of 41_ntt.md R146: k begins at 0, so layer `len` begins at k = 128 - 256/len; Barrett in
layers 1, 3, 5, 7. -/
def inttLoops (r : List Int) : List Int :=
  ([(2, true), (4, false), (8, true), (16, false), (32, true), (64, false), (128, true)].foldl
    (fun r l => layerLoop (invButterflyAt l.1 l.2) l.1 (fun g => zetaInv (128 - 256 / l.1 + g)) r)
    r).map (fqmul (zetaInv 127))

/-- All patterns of `n` bits. -/
def bitPatterns : Nat → List (List Bool)
  | 0 => [[]]
  | n + 1 => (bitPatterns n).flatMap (fun bits => [false :: bits, true :: bits])

/-- How many of the 4^eta patterns of 2*eta bits give a coefficient the value `v` (43_sampler.md R194): for
independent and uniform bits, 4^eta times the probability of `v`. -/
def cbdWeight (eta : Nat) (v : Int) : Nat :=
  (bitPatterns (2 * eta)).countP (fun bits => decide (cbdCoeff eta bits = v))

/-- A stream's accepted candidates among its first `n` blocks, in order (43_sampler.md R203). -/
def acceptedIn (block : Nat → List Byte) (n : Nat) : List Int :=
  ((List.range n).flatMap (fun k => candidates (block k))).filterMap
    (fun d : Nat => if d < 3329 then some (Int.ofNat d) else none)

end Sys2Proof.Machine
end

