-- ==== Sys2Proof/Certificates/Slice0/Obligations.lean ====
section
/-! DEFINITION. What is claimed of the machine, rule by rule of the spec: statements for the provers. -/

open Sys2Proof Sys2Proof.Machine

/-! ### Encoding (30_encoding.md) -/

/-- 30_encoding.md R80 to R83: no field of a legal command is lost in its word. -/
def Obligations.DecodeEncodeRoundTrip : Prop :=
  ∀ i : Instr, i.wellFormed = true → decode (encode i) = .ok i

/-- 30_encoding.md R80 to R83, R87: a word that decodes is the word of the legal command it decodes to, so no
must-be-zero bit is ignored. -/
def Obligations.DecodedWordEncodesBack : Prop :=
  ∀ (w : Word) (i : Instr), decode w = .ok i → i.wellFormed = true ∧ encode i = w

/-- 30_encoding.md R84, R85, R87, 60_exceptions.md R289: which of the three decode errors a word raises. The
opcode is looked at first; then every must-be-zero bit and IllegalField constraint; then the range. -/
def Obligations.DecodeErrorsByPriority : Prop :=
  ∀ w : Word,
    let op := (w >>> 24).toNat
    let known := op ∈ [0x01, 0x02, 0x03, 0x04, 0x05, 0x10, 0x11, 0x12, 0x13, 0x20, 0x21, 0x28, 0x30, 0x31,
      0x32, 0x40, 0x41, 0x48, 0x49, 0x4A, 0x4B, 0x50]
    (decode w = .error .illegalOpcode ↔ ¬known) ∧
    (decode w = .error .illegalField ↔ known ∧ ¬∃ i : Instr, i.fieldsLegal = true ∧ encode i = w) ∧
    (decode w = .error .bufRange ↔
      ∃ i : Instr, i.fieldsLegal = true ∧ i.rangeLegal = false ∧ encode i = w)

/-- 30_encoding.md R92: the worked encodings, both ways. -/
def Obligations.WorkedEncodings : Prop :=
  ∀ c ∈ ([(.montred 1 0, 0x01100000), (.basemul 4 0 2 true 64, 0x054020C0), (.ntt 3, 0x20300000),
      (.pwacc 8 0 4 3, 0x28804003), (.cbdEta3 2 .B 1, 0x30203801), (.getnoiseEta2 5 7, 0x31502007),
      (.gena 9 1 2 true, 0x32912001), (.compressD10 6 .A 2, 0x4006A002), (.decompressD4 7 .B 15, 0x4170480F),
      (.frommsg 0 .A 0, 0x48000000), (.tomsg 1 .B 63, 0x4901083F), (.tobytes 2 .A 4, 0x4A020004),
      (.frombytes 3 .A 0, 0x4B300000), (.ctcmp 1568, 0x50000620)] : List (Instr × Word)),
    decode c.2 = .ok c.1 ∧ encode c.1 = c.2

/-! ### Issue, errors, reset (10_state.md, 60_exceptions.md, 70_reset_and_hazards.md) -/

/-- 10_state.md R30, 70_reset_and_hazards.md R314: a CMD write to an engine that accepts it runs the command it
decodes to, on the state as it stands; and the host's check word does so. -/
def Obligations.StepRunsDecodedCommand : Prop :=
  ∀ (s : State) (rest : List HostAction) (w : Word) (i : Instr), decode w = .ok i →
    (s.busy = false → s.err = .none → s.host = hostIssue w :: rest →
      step s = exec i { s with host := rest }) ∧
    step (s.withFetchWord 32 w.toNat) = exec i { s.clearErr with busy := false }

/-- 10_state.md R30, 20_memory.md R58, 60_exceptions.md R286, 70_reset_and_hazards.md R315: every way a CMD
access can go, a write or a read, of any size, with BUSY and ERR clear or set. While ERR is set a CMD write
changes nothing, and the host reads ERRINFO and the registers as usual. -/
def Obligations.CmdRegister : Prop :=
  ∀ (s : State) (rest : List HostAction) (w : Word),
    (s.busy = false → s.err = .none → s.host = hostIssue w :: rest →
      (∀ i, decode w = .ok i → step s = exec i { s with host := rest }) ∧
      (∀ e, decode w = .error e → step s = .next (({ s with host := rest } : State).raise (errCodeOf e) 0))) ∧
    (s.busy = false → s.err ≠ .none →
      (s.host = hostIssue w :: rest → step s = .next { s with host := rest }) ∧
      (s.host = hostReadErrInfo :: rest → step s = .next { s with host := rest, readData := s.errInfo }) ∧
      (∀ i : Fin 16, s.host = hostReadX i :: rest → step s = .next { s with host := rest, readData := s.x[i] })) ∧
    (∀ n, s.busy = true → s.host = .write 0 n w :: rest ∨ s.host = .read 0 n :: rest →
      step s = .refused .accessWhileBusy) ∧
    (s.busy = false → s.host = .read 0 4 :: rest → step s = .next { s with host := rest, readData := 0 }) ∧
    (∀ n, s.busy = false → n ≠ 4 → s.host = .write 0 n w :: rest ∨ s.host = .read 0 n :: rest →
      step s = .refused .busError)

/-- 60_exceptions.md R281, R282, R284: a decode error sets ERR to its code, ERRINFO to 0, and changes nothing
else; the byte source receives no request. -/
def Obligations.DecodeErrorSetsOnlyErr : Prop :=
  ∀ (s : State) (rest : List HostAction) (w : Word) (e : DecodeError),
    s.busy = false → s.err = .none → s.host = hostIssue w :: rest → decode w = .error e →
    ∃ t, step s = .next t ∧ t.host = rest ∧
      t.err.code = (match e with
        | .illegalOpcode => 1
        | .illegalField => 2
        | .bufRange => 3) ∧
      t.errInfo = 0 ∧ t.busy = false ∧ t.cmpne = s.cmpne ∧ t.x = s.x ∧ t.seed = s.seed ∧ t.mem = s.mem ∧
      t.source = s.source ∧ t.readData = s.readData

/-- 60_exceptions.md R287: CLRERR clears ERR and ERRINFO and nothing else; a STATUS write with bit 31 = 0 does
nothing; CLRERR with ERR already 0 does nothing (in a state that meets the invariant). -/
def Obligations.ClrErrClearsTheError : Prop :=
  ∀ (s : State) (rest : List HostAction) (v : Word), s.busy = false → s.host = .write 0x04 4 v :: rest →
    (v.getLsbD 31 = true → step s = .next { s with host := rest, err := .none, errInfo := 0 }) ∧
    (v.getLsbD 31 = false → step s = .next { s with host := rest }) ∧
    (s.Inv → s.err = .none → step s = .next { s with host := rest })

/-- 10_state.md R31: the STATUS word as the host reads it, bit by bit, whether or not the engine is busy. -/
def Obligations.StatusWordBits : Prop :=
  ∀ (s : State) (rest : List HostAction), s.host = hostReadStatus :: rest →
    ∃ t, step s = .next t ∧ t = { s with host := rest, readData := t.readData } ∧
      t.readData.getLsbD 0 = s.busy ∧ t.readData.getLsbD 1 = s.cmpne ∧
      (t.readData.extractLsb' 4 4).toNat = s.err.code ∧ s.err.code ≤ 5 ∧
      t.readData.extractLsb' 2 2 = 0 ∧ t.readData.extractLsb' 8 24 = 0

/-- 10_state.md R36: what the spec gives for reset. (x and SEED, where it gives nothing, are the model's
choice, log 1, and are not claimed.) -/
def Obligations.ResetState : Prop :=
  State.reset.statusWord = 0 ∧ State.reset.errInfo = 0 ∧ State.reset.busy = false ∧
    State.reset.cmpne = false ∧ State.reset.err = .none ∧ (∀ a, State.reset.mem.read a = none)

/-- 70_reset_and_hazards.md R310: a platform reset from any state, a command in progress included, leaves
STATUS and ERRINFO 0 and no slot or buffer byte with a value, and the engine accepts a command at once. The
invariant holds after it whatever held before. -/
def Obligations.PlatformReset : Prop :=
  ∀ (s : State) (rest : List HostAction), s.host = .reset :: rest →
    ∃ t, step s = .next t ∧ t.statusWord = 0 ∧ t.errInfo = 0 ∧ t.busy = false ∧ t.err = .none ∧
      (∀ a, t.mem.read a = none) ∧ t.host = rest ∧ t.source = s.source ∧ t.Inv

/-- 10_state.md R36: the invariant holds after reset. -/
def Obligations.InvariantAtReset : Prop := State.reset.Inv

/-- 20_memory.md R56, 60_exceptions.md R281, 10_state.md R30: every step, whatever the host does, keeps the
invariant. -/
def Obligations.StepKeepsInvariant : Prop :=
  ∀ s t : State, s.Inv → step s = .next t → t.Inv

/-- 70_reset_and_hazards.md R315: while BUSY = 1 every host access but a read of STATUS is refused; that read
answers BUSY = 1 and changes nothing; and nothing but a platform reset ends it. -/
def Obligations.BusyDiscipline : Prop :=
  ∀ (s : State) (rest : List HostAction), s.busy = true →
    (∀ off size v, s.host = .write off size v :: rest → step s = .refused .accessWhileBusy) ∧
    (∀ off size, ¬(off = 0x04 ∧ size = 4) → s.host = .read off size :: rest →
      step s = .refused .accessWhileBusy) ∧
    (s.host = hostReadStatus :: rest →
      ∃ t, step s = .next t ∧ t = { s with host := rest, readData := t.readData } ∧
        t.readData = s.statusWord ∧ t.readData.getLsbD 0 = true) ∧
    (∀ t, step s = .next t → t.busy = false → s.host = .reset :: t.host)

/-- 60_exceptions.md R290: an operand outside the stated precondition is refused, never a reported error. -/
def Obligations.ContractViolationRefused : Prop :=
  ∀ s : State,
    (∀ rd ra : Reg, ¬MontRange s.x[ra].toInt → exec (.montred rd ra) s = .refused .contractViolation) ∧
    (∀ rd ra : Reg, ¬CsubqRange (s.x[ra].truncate 16).toInt →
      exec (.csubq rd ra) s = .refused .contractViolation) ∧
    (∀ rd ra rb : Reg, ¬MontRange ((s.x[ra].truncate 16).toInt * (s.x[rb].truncate 16).toInt) →
      exec (.montmul rd ra rb) s = .refused .contractViolation) ∧
    (∀ (rd ra rb : Reg) (neg : Bool) (zi : Fin 128), (Instr.basemul rd ra rb neg zi).wellFormed = true →
      ¬(s.basemulOperands ra rb neg zi).Legal →
      exec (.basemul rd ra rb neg zi) s = .refused .contractViolation) ∧
    (∀ (rd ra : Slot) (p : List Int), s.readSlot ra.val = some p → (∃ c ∈ p, ¬(-29439 ≤ c)) →
      exec (.pcsubq rd ra) s = .refused .contractViolation) ∧
    (∀ (rd ra rb : Slot) (p q : List Int), s.readSlot ra.val = some p → s.readSlot rb.val = some q →
      ((∃ i < 256, ¬Fits16 (p.getD i 0 + q.getD i 0)) →
        exec (.padd rd ra rb) s = .refused .contractViolation) ∧
      ((∃ i < 256, ¬Fits16 (p.getD i 0 - q.getD i 0)) →
        exec (.psub rd ra rb) s = .refused .contractViolation)) ∧
    (∀ (rd : Slot) (p : List Int), s.readSlot rd.val = some p →
      ((∃ c ∈ p, ¬(-9471 ≤ c ∧ c ≤ 9471)) → exec (.ntt rd) s = .refused .contractViolation) ∧
      ((∃ c ∈ p, ¬(-16383 ≤ c ∧ c ≤ 16383)) → exec (.intt rd) s = .refused .contractViolation)) ∧
    (∀ (rd ra rb : Slot) (K : Fin 8) (as bs : List (List Int)), (Instr.pwacc rd ra rb K).wellFormed = true →
      s.readVector ra K.val = some as → s.readVector rb K.val = some bs →
      (∃ ab ∈ as.zip bs, ¬PolyMulLegal ab.1 ab.2) →
      exec (.pwacc rd ra rb K) s = .refused .contractViolation) ∧
    (∀ (ra : Slot) (bs : BufSel) (blk : Blk) (p : List Int), s.readSlot ra.val = some p →
      (∃ c ∈ p, ¬(0 ≤ c ∧ c ≤ 6657)) →
      ∀ i ∈ [Instr.compressD4 ra bs blk, .compressD5 ra bs blk, .compressD10 ra bs blk,
        .compressD11 ra bs blk, .tomsg ra bs blk], i.wellFormed = true →
        exec i s = .refused .contractViolation) ∧
    (∀ (ra : Slot) (bs : BufSel) (blk : Blk) (p : List Int), s.readSlot ra.val = some p →
      (∃ c ∈ p, ¬(0 ≤ c ∧ c ≤ 4095)) → (Instr.tobytes ra bs blk).wellFormed = true →
      exec (.tobytes ra bs blk) s = .refused .contractViolation)

/-- 10_state.md R37, 70_reset_and_hazards.md R312: a command whose source slot, record or prefix holds a byte
that was never written faults. (The registers x and SEED always hold a value, log 1.) -/
def Obligations.UnwrittenSourceFaults : Prop :=
  ∀ s : State,
    (∀ (rd r : Slot), s.readSlot r.val = none →
      ∀ i ∈ [Instr.pbarrett rd r, .pcsubq rd r, .ntt r, .intt r], exec i s = .fault .unwrittenRead) ∧
    (∀ (rd ra rb : Slot), s.readSlot ra.val = none ∨ s.readSlot rb.val = none →
      ∀ i ∈ [Instr.padd rd ra rb, .psub rd ra rb], exec i s = .fault .unwrittenRead) ∧
    (∀ (rd ra rb : Slot) (K : Fin 8), (Instr.pwacc rd ra rb K).wellFormed = true →
      (∃ k < K.val, s.readSlot (ra.val + k) = none ∨ s.readSlot (rb.val + k) = none) →
      exec (.pwacc rd ra rb K) s = .fault .unwrittenRead) ∧
    (∀ (ra : Slot) (bs : BufSel) (blk : Blk), s.readSlot ra.val = none →
      ∀ i ∈ [Instr.compressD4 ra bs blk, .compressD5 ra bs blk, .compressD10 ra bs blk,
        .compressD11 ra bs blk, .tomsg ra bs blk, .tobytes ra bs blk], i.wellFormed = true →
        exec i s = .fault .unwrittenRead) ∧
    (∀ (rd : Slot) (bs : BufSel) (blk : Blk),
      ∀ c ∈ [(Instr.cbdEta2 rd bs blk, 128), (.cbdEta3 rd bs blk, 192), (.decompressD4 rd bs blk, 128),
        (.decompressD5 rd bs blk, 160), (.decompressD10 rd bs blk, 320), (.decompressD11 rd bs blk, 352),
        (.frommsg rd bs blk, 32), (.frombytes rd bs blk, 384)], c.1.wellFormed = true →
        (∃ k < c.2, s.mem.read (recordBase bs blk c.2 + k) = none) →
        exec c.1 s = .fault .unwrittenRead) ∧
    (∀ len : Fin 4096, len.val ≤ 2048 →
      (∃ k < len.val, s.mem.read (0x1000 + k) = none ∨ s.mem.read (0x1800 + k) = none) →
      exec (.ctcmp len) s = .fault .unwrittenRead)

/-! ### The address map (20_memory.md) -/

/-- 20_memory.md R56, R57, R58: exactly which accesses are refused with a bus error while BUSY = 0. For offsets
from 0x8000 on, which the engine does not decode, the refusal is the model's reading (log 9). -/
def Obligations.AddressMapRefusals : Prop :=
  ∀ (s : State) (rest : List HostAction) (off size : Nat) (v : Word), s.busy = false →
    (s.host = .read off size :: rest → (step s = .refused .busError ↔ ¬Readable off size)) ∧
    (s.host = .write off size v :: rest →
      (step s = .refused .busError ↔ ¬(Readable off size ∧ off < 0x4000)))

/-- 20_memory.md R59: a host read changes nothing in the machine; a host write changes no more than the bytes
it names, but for CMD and STATUS. -/
def Obligations.HostAccessSideEffects : Prop :=
  ∀ (s t : State) (off size : Nat) (v : Word),
    (hostAct (.read off size) s = .next t → t = { s with readData := t.readData }) ∧
    (hostAct (.write off size v) s = .next t → 0x08 ≤ off →
      SameStatus s t ∧ SameOutside s t ∧ SameMemoryBut off size s t ∧
      (∀ i : Fin 16, off ≠ 0x40 + 4 * i.val → t.x[i] = s.x[i]) ∧
      (∀ i : Fin 32, (0x80 + i.val < off ∨ off + size ≤ 0x80 + i.val) → t.seed[i] = s.seed[i]))

/-- 20_memory.md R51, R53, R56: each of the four host-written spaces gives back what was written, through the
accessors of R51; and a write of 1, 2 or 4 bytes to SEED, BUF or P puts bits 7:0 at its lowest address and each
next byte at the next, as reading byte by byte shows. That the higher bits of a 1- or 2-byte read are 0 is the
model's reading (log 22). -/
def Obligations.HostWriteThenRead : Prop :=
  ∀ s : State, s.busy = false →
    (∀ (i : Fin 16) (v : Word), ∃ t u, hostAct (hostWriteX i v) s = .next t ∧
      hostAct (hostReadX i) t = .next u ∧ u.readData = v) ∧
    (∀ (r : Slot) (i : Fin 256) (v : Coeff), ∃ t u, hostAct (hostWriteCoeff r i v) s = .next t ∧
      hostAct (hostReadCoeff r i) t = .next u ∧ u.readData = v.zeroExtend 32) ∧
    (∀ (b : BufSel) (o : Fin 2048) (v : Byte), ∃ t u, hostAct (hostWriteBuf b o v) s = .next t ∧
      hostAct (hostReadBuf b o) t = .next u ∧ u.readData = v.zeroExtend 32) ∧
    (∀ (i : Fin 32) (v : Byte), ∃ t u, hostAct (hostWriteSeed i v) s = .next t ∧
      hostAct (hostReadSeed i) t = .next u ∧ u.readData = v.zeroExtend 32) ∧
    (∀ (off n : Nat) (v : Word), ByteAccess 0x80 0xA0 off n ∨ ByteAccess 0x1000 0x1800 off n ∨
        ByteAccess 0x1800 0x2000 off n ∨ ByteAccess 0x2000 0x4000 off n →
      ∃ t, hostAct (.write off n v) s = .next t ∧ ∀ k < n, ∃ u, hostAct (.read (off + k) 1) t = .next u ∧
        u.readData = (v.extractLsb' (8 * k) 8).zeroExtend 32)

/-- 20_memory.md R53: a coefficient's low byte stands at the lower address, and reading 4 bytes at the address
of P[s][2i] returns `low16(P[s][2i]) | low16(P[s][2i+1]) << 16`; a read of 1, 2 or 4 bytes of BUF or SEED has the
byte at the lowest address in bits 7:0 and each next byte above it. That the higher bits of a 1- or 2-byte read
are 0 is the model's reading (log 22). -/
def Obligations.MixedWidthRead : Prop :=
  ∀ s : State, s.busy = false →
    (∀ (r : Slot) (i : Fin 128) (p : List Int), s.readSlot r.val = some p →
      (∃ u, hostAct (.read (slotBase r.val + 4 * i.val) 4) s = .next u ∧
        u.readData = (BitVec.ofInt 16 (p.getD (2 * i.val + 1) 0) ++ BitVec.ofInt 16 (p.getD (2 * i.val) 0))) ∧
      (∃ u, hostAct (.read (slotBase r.val + 4 * i.val) 1) s = .next u ∧
        (u.readData.toNat : Int) = p.getD (2 * i.val) 0 % 256)) ∧
    (∀ (b : BufSel) (o n : Nat) (bytes : List Byte), n = 1 ∨ n = 2 ∨ n = 4 → o % n = 0 → o + n ≤ 2048 →
      s.readBuf b o n = some bytes →
      ∃ u, hostAct (.read (bufBase b + o) n) s = .next u ∧ u.readData.toNat < 2 ^ (8 * n) ∧
        ∀ k < n, u.readData.extractLsb' (8 * k) 8 = bytes.getD k 0) ∧
    (∀ i n : Nat, n = 1 ∨ n = 2 ∨ n = 4 → i % n = 0 → i + n ≤ 32 →
      ∃ u, hostAct (.read (0x80 + i) n) s = .next u ∧ u.readData.toNat < 2 ^ (8 * n) ∧
        ∀ k < n, u.readData.extractLsb' (8 * k) 8 = s.seed.getD (i + k) 0)

/-- 41_ntt.md R141, R142, 20_memory.md R56: the twiddle ROM holds what the formulas give, and the host reads
it. That the higher bits of the host's 2-byte read are 0 is the model's reading (log 22). -/
def Obligations.TwiddleRomContents : Prop :=
  (∀ k : Fin 128, zeta k.val = 65536 * 17 ^ brv7 k.val % 3329) ∧
  (∀ k : Fin 128, zetaInv k.val = if k.val = 127 then 512 else (3329 - zeta (127 - k.val)) % 3329) ∧
  (∀ (s : State) (k : Fin 128), s.busy = false →
    hostAct (hostReadZeta k) s = .next { s with readData := BitVec.ofInt 32 (zeta k.val) } ∧
    hostAct (hostReadZetaInv k) s = .next { s with readData := BitVec.ofInt 32 (zetaInv k.val) })

/-! ### The reduction family (40_reduction.md) -/

/-- 40_reduction.md R111: on its whole range MontRed gives the representative of a * 2^-16 strictly between -q
and q, and is the datapath of a 16 x 16 -> 16 truncating multiply, a 16 x 16 -> 32 multiply, a subtract and an
arithmetic shift. -/
def Obligations.MontRedIsTheDatapath : Prop :=
  ∀ a : Word, MontRange a.toInt →
    let u : BitVec 16 := a.truncate 16 * 62209
    let m : Word := u.signExtend 32 * 3329
    montRed a.toInt = ((a - m).sshiftRight 16).toInt ∧ 65536 ∣ a.toInt - m.toInt ∧
      montRed a.toInt * 65536 % 3329 = a.toInt % 3329 ∧ -3329 < montRed a.toInt ∧ montRed a.toInt < 3329

/-- 40_reduction.md R113: Barrett on every 16-bit value: the four steps, and their result, a mod q but for the
nine negative multiples of q. -/
def Obligations.BarrettResidue : Prop :=
  ∀ a : Int, -32768 ≤ a → a ≤ 32767 →
    barrett a = a - (20159 * a / 2 ^ 26) * 3329 ∧
    (if a ∈ [-3329, -6658, -9987, -13316, -16645, -19974, -23303, -26632, -29961] then barrett a = 3329
      else barrett a = a % 3329) ∧
    0 ≤ barrett a ∧ barrett a ≤ 3329 ∧ csubq (barrett a) = a % 3329

/-- 40_reduction.md R115: csubq is the branch-free mask form on 16 bits, and what it gives on 0 to 2q-1, below 0
and from 2q on. -/
def Obligations.CsubqIsTheMaskForm : Prop :=
  ∀ x : Coeff, -29439 ≤ x.toInt →
    let t : Coeff := x - 3329
    csubq x.toInt = (t + (t.sshiftRight 15 &&& 3329)).toInt ∧
    (0 ≤ x.toInt → x.toInt < 6658 → csubq x.toInt = x.toInt % 3329) ∧
    (x.toInt < 0 → csubq x.toInt = x.toInt) ∧
    (6658 ≤ x.toInt → csubq x.toInt = x.toInt - 3329 ∧ 3329 ≤ csubq x.toInt)

/-- 40_reduction.md R125: MontRed and Barrett agree with exact modular arithmetic. -/
def Obligations.ReductionsAgreeWithReference : Prop :=
  (∀ a : Int, Fits16 a → montRed a % 3329 = a * 169 % 3329 ∧ barrett a % 3329 = a % 3329) ∧
  (∀ a : Int, MontRange a → montRed a % 3329 = a * 169 % 3329)

/-- 40_reduction.md R112: MONTRED, with the corner cases the rule lists. -/
def Obligations.MontredCommand : Prop :=
  (∀ (s : State) (rd ra : Reg),
    (-109084672 ≤ s.x[ra].toInt ∧ s.x[ra].toInt ≤ 109084671 →
      exec (.montred rd ra) s = .next { s with x := s.x.set rd (BitVec.ofInt 32 (montRed s.x[ra].toInt)) }) ∧
    (¬(-109084672 ≤ s.x[ra].toInt ∧ s.x[ra].toInt ≤ 109084671) →
      exec (.montred rd ra) s = .refused .contractViolation)) ∧
  [0, 3329, -3329, 65536, 2285, 1, -1, 109084671, -109084672, 1000000].map montRed =
    [0, 0, 0, 1, 1, 169, -169, 3160, 0, -14]

/-- 40_reduction.md R114: BARRETT runs on every value; bits 31:16 of its source are ignored; with the corner
cases the rule lists. -/
def Obligations.BarrettCommand : Prop :=
  (∀ (s : State) (rd ra : Reg),
    exec (.barrett rd ra) s =
      .next { s with x := s.x.set rd (BitVec.ofInt 32 (barrett (s.x[ra].truncate 16).toInt)) }) ∧
  [0, -1, 3328, 3329, 3330, -3328, -3329, -3330, 6658, -6658, 32767, -32768, -10000].map barrett =
    [0, 3328, 3328, 0, 1, 1, 3329, 3328, 0, 3329, 2806, 522, 3316]

/-- 40_reduction.md R116: CSUBQ, with the corner cases the rule lists. -/
def Obligations.CsubqCommand : Prop :=
  (∀ (s : State) (rd ra : Reg),
    (-29439 ≤ (s.x[ra].truncate 16).toInt →
      exec (.csubq rd ra) s =
        .next { s with x := s.x.set rd (BitVec.ofInt 32 (csubq (s.x[ra].truncate 16).toInt)) }) ∧
    (¬(-29439 ≤ (s.x[ra].truncate 16).toInt) → exec (.csubq rd ra) s = .refused .contractViolation)) ∧
  [0, 3328, 3329, 3330, 6657, 6658, -1, 32767, -29439].map csubq =
    [0, 3328, 0, 1, 3328, 3329, -1, 29438, -29439]

/-- 40_reduction.md R117, R118: MONTMUL, the congruence and the bounds of its result, the operands for which it
is always defined, and the corner cases the rule lists. -/
def Obligations.MontmulCommand : Prop :=
  (∀ (s : State) (rd ra rb : Reg),
    let a := (s.x[ra].truncate 16).toInt
    let b := (s.x[rb].truncate 16).toInt
    (-109084672 ≤ a * b ∧ a * b ≤ 109084671 →
      exec (.montmul rd ra rb) s = .next { s with x := s.x.set rd (BitVec.ofInt 32 (montRed (a * b))) } ∧
      montRed (a * b) * 65536 % 3329 = a * b % 3329 ∧ -3329 < montRed (a * b) ∧ montRed (a * b) < 3329) ∧
    (-3328 ≤ b ∧ b ≤ 3328 → MontRange (a * b)) ∧
    (¬(-109084672 ≤ a * b ∧ a * b ≤ 109084671) →
      exec (.montmul rd ra rb) s = .refused .contractViolation)) ∧
  (∀ x : Int, fqmul x 0 = 0) ∧
  [fqmul 2285 2285, fqmul 1 1, fqmul 3328 3328, fqmul (-3328) 3328, fqmul 32767 3328, fqmul (-32768) 3328,
    fqmul (-32768) 3329, fqmul 17 2285] = [-1044, 169, 169, -169, 1833, -1664, 0, 17] ∧
  ¬MontRange (32767 * 32767)

/-- 40_reduction.md R120 to R123: the coefficient-wise commands run on every readable source that meets their
precondition, whatever slots coincide; every coefficient of the destination is the rule's function of the
source coefficients as they stood, with the postconditions of R120 and R121; nothing but storage changes. -/
def Obligations.PointwiseCommands : Prop :=
  (∀ (s : State) (rd ra : Slot) (p : List Int), s.readSlot ra.val = some p →
    (∃ t, exec (.pbarrett rd ra) s = .next t ∧ t = { s with mem := t.mem } ∧
      t.readSlot rd.val = some (p.map barrett) ∧
      ∀ i < 256, 0 ≤ barrett (p.getD i 0) ∧ barrett (p.getD i 0) ≤ 3329 ∧
        barrett (p.getD i 0) % 3329 = p.getD i 0 % 3329) ∧
    ((∀ c ∈ p, -29439 ≤ c) →
      ∃ t, exec (.pcsubq rd ra) s = .next t ∧ t = { s with mem := t.mem } ∧
        t.readSlot rd.val = some (p.map csubq) ∧
        ((∀ c ∈ p, 0 ≤ c ∧ c ≤ 6657) → ∀ c ∈ p.map csubq, 0 ≤ c ∧ c ≤ 3328))) ∧
  (∀ (s : State) (rd ra rb : Slot) (p q : List Int), s.readSlot ra.val = some p →
    s.readSlot rb.val = some q →
    ((∀ i < 256, Fits16 (p.getD i 0 + q.getD i 0)) →
      ∃ t r, exec (.padd rd ra rb) s = .next t ∧ t = { s with mem := t.mem } ∧
        t.readSlot rd.val = some r ∧ r.length = 256 ∧ ∀ i < 256, r.getD i 0 = p.getD i 0 + q.getD i 0) ∧
    ((∀ i < 256, Fits16 (p.getD i 0 - q.getD i 0)) →
      ∃ t r, exec (.psub rd ra rb) s = .next t ∧ t = { s with mem := t.mem } ∧
        t.readSlot rd.val = some r ∧ r.length = 256 ∧ ∀ i < 256, r.getD i 0 = p.getD i 0 - q.getD i 0))

/-! ### The transform engine (41_ntt.md) -/

/-- 41_ntt.md R144: NTT runs on every readable slot with coefficients within 9471 and is refused on any other
readable slot; its result is what the rule's loops give on the array, and every coefficient of it is in
0..3329; nothing but storage changes. -/
def Obligations.NttCommand : Prop :=
  ∀ (s : State) (rd : Slot) (p : List Int), s.readSlot rd.val = some p →
    ((∀ c ∈ p, -9471 ≤ c ∧ c ≤ 9471) →
      ∃ t, exec (.ntt rd) s = .next t ∧ t = { s with mem := t.mem } ∧ t.readSlot rd.val = some (nttLoops p) ∧
        ∀ c ∈ nttLoops p, 0 ≤ c ∧ c ≤ 3329) ∧
    ((¬∀ c ∈ p, -9471 ≤ c ∧ c ≤ 9471) → exec (.ntt rd) s = .refused .contractViolation)

/-- 41_ntt.md R146: INTT runs on every readable slot with coefficients within 16383 and is refused on any other
readable slot; its result is what the rule's loops give on the array, and every coefficient of it is in
-3328..3328; nothing but storage changes. -/
def Obligations.InttCommand : Prop :=
  ∀ (s : State) (rd : Slot) (p : List Int), s.readSlot rd.val = some p →
    ((∀ c ∈ p, -16383 ≤ c ∧ c ≤ 16383) →
      ∃ t, exec (.intt rd) s = .next t ∧ t = { s with mem := t.mem } ∧ t.readSlot rd.val = some (inttLoops p) ∧
        ∀ c ∈ inttLoops p, -3328 ≤ c ∧ c ≤ 3328) ∧
    ((¬∀ c ∈ p, -16383 ≤ c ∧ c ≤ 16383) → exec (.intt rd) s = .refused .contractViolation)

/-- 41_ntt.md R149: NTT, INTT, PBARRETT, PCSUBQ on a slot give back exactly the canonical polynomial it held. -/
def Obligations.TransformRoundTrip : Prop :=
  ∀ (s : State) (r : Slot) (p : List Int), s.readSlot r.val = some p → (∀ c ∈ p, 0 ≤ c ∧ c ≤ 3328) →
    ∃ t1 t2 t3 t4, exec (.ntt r) s = .next t1 ∧ exec (.intt r) t1 = .next t2 ∧
      (∃ b, t2.readSlot r.val = some b ∧
        ∀ i < 256, b.getD i 0 % 3329 = p.getD i 0 ∧ -3328 ≤ b.getD i 0 ∧ b.getD i 0 ≤ 3328) ∧
      exec (.pbarrett r r) t2 = .next t3 ∧ exec (.pcsubq r r) t3 = .next t4 ∧ t4.readSlot r.val = some p

/-- 41_ntt.md R148: the pair (2i, 2i+1) of NTT(a) is the remainder of a modulo X^2 - 17^(2*brv7(i)+1). -/
def Obligations.NttIsTheRemainders : Prop :=
  ∀ a : List Int, a.length = 256 → (∀ c ∈ a, -9471 ≤ c ∧ c ≤ 9471) → ∀ i < 128,
    (ntt a).getD (2 * i) 0 % 3329 =
      ((List.range 128).map (fun j => a.getD (2 * j) 0 * 17 ^ ((2 * brv7 i + 1) * j))).sum % 3329 ∧
    (ntt a).getD (2 * i + 1) 0 % 3329 =
      ((List.range 128).map (fun j => a.getD (2 * j + 1) 0 * 17 ^ ((2 * brv7 i + 1) * j))).sum % 3329

/-! ### Pointwise multiplication (42_basemul.md) -/

/-- 42_basemul.md R171: the base multiplication is the product modulo X^2 - ζ' times 2^-16, in -3328..3328; and
coefficients within 7385 always meet its precondition. -/
def Obligations.BasemulIsQuadraticProduct : Prop :=
  ∀ c : BasemulArgs, -3328 ≤ c.z → c.z ≤ 3328 →
    (c.Legal → ∀ ζ : Int, c.z % 3329 = 65536 * ζ % 3329 →
      c.product.1 * 65536 % 3329 = (c.a0 * c.b0 + c.a1 * c.b1 * ζ) % 3329 ∧
      c.product.2 * 65536 % 3329 = (c.a0 * c.b1 + c.a1 * c.b0) % 3329 ∧
      -3328 ≤ c.product.1 ∧ c.product.1 ≤ 3328 ∧ -3328 ≤ c.product.2 ∧ c.product.2 ≤ 3328) ∧
    (-7385 ≤ c.a0 → c.a0 ≤ 7385 → -7385 ≤ c.a1 → c.a1 ≤ 7385 → -7385 ≤ c.b0 → c.b0 ≤ 7385 →
      -7385 ≤ c.b1 → c.b1 ≤ 7385 → c.Legal)

/-- 42_basemul.md R172: BASEMUL. The four sources are read as they stand before either destination is written;
a pair base of 15 raises IllegalField; only rd and rd + 1 change. -/
def Obligations.BasemulCommand : Prop :=
  ∀ (s : State) (rd ra rb : Reg) (neg : Bool) (zi : Fin 128),
    let low (n : Nat) : Int := ((s.x.getD n 0).truncate 16).toInt
    let c : BasemulArgs := ⟨low ra.val, low (ra.val + 1), low rb.val, low (rb.val + 1),
      if neg then -zeta zi.val else zeta zi.val⟩
    (rd.val ≤ 14 ∧ ra.val ≤ 14 ∧ rb.val ≤ 14 →
      (c.Legal → ∃ t, exec (.basemul rd ra rb neg zi) s = .next t ∧
        t.x.getD rd.val 0 = BitVec.ofInt 32 (montRed (montRed (c.a1 * c.b1) * c.z + c.a0 * c.b0)) ∧
        t.x.getD (rd.val + 1) 0 = BitVec.ofInt 32 (montRed (c.a0 * c.b1 + c.a1 * c.b0)) ∧
        (∀ n, n ≠ rd.val → n ≠ rd.val + 1 → t.x.getD n 0 = s.x.getD n 0) ∧
        t = { s with x := t.x }) ∧
      (¬c.Legal → exec (.basemul rd ra rb neg zi) s = .refused .contractViolation)) ∧
    (¬(rd.val ≤ 14 ∧ ra.val ≤ 14 ∧ rb.val ≤ 14) →
      exec (.basemul rd ra rb neg zi) s = .next (s.raise .illegalField 0))

/-- 42_basemul.md R173: PolyMulNTT, quadruple by quadruple: +ZETAS[64 + i] on the first pair, -ZETAS[64 + i] on
the second. -/
def Obligations.PolyMulQuadruples : Prop :=
  ∀ (a b : List Int) (i : Nat), i < 64 →
    let c (k : Nat) (z : Int) : BasemulArgs :=
      ⟨a.getD (4 * i + k) 0, a.getD (4 * i + k + 1) 0, b.getD (4 * i + k) 0, b.getD (4 * i + k + 1) 0, z⟩
    (polyMulNtt a b).length = 256 ∧
    ((polyMulNtt a b).getD (4 * i) 0, (polyMulNtt a b).getD (4 * i + 1) 0)
      = (c 0 (zeta (64 + i))).product ∧
    ((polyMulNtt a b).getD (4 * i + 2) 0, (polyMulNtt a b).getD (4 * i + 3) 0)
      = (c 2 (-zeta (64 + i))).product

/-- 42_basemul.md R174, R175: PWACC runs on every pair of readable vectors whose base multiplications meet
their precondition (coefficients within 7385 always do), whatever slots coincide, and is refused on any other
pair of readable vectors; the destination is the unreduced sum of the K products of the sources as they
stood, within K * 3328; nothing but storage changes; K or a vector out of range raises IllegalField. -/
def Obligations.PwaccCommand : Prop :=
  ∀ (s : State) (rd ra rb : Slot) (K : Fin 8),
    (∀ as bs : Nat → List Int, 1 ≤ K.val → K.val ≤ 4 → ra.val + K.val ≤ 16 → rb.val + K.val ≤ 16 →
      (∀ k < K.val, s.readSlot (ra.val + k) = some (as k) ∧ s.readSlot (rb.val + k) = some (bs k)) →
      ((∀ k < K.val, PolyMulLegal (as k) (bs k)) →
        ∃ t r, exec (.pwacc rd ra rb K) s = .next t ∧ t = { s with mem := t.mem } ∧
          t.readSlot rd.val = some r ∧
          ∀ i < 256,
            r.getD i 0 = ((List.range K.val).map (fun k => (polyMulNtt (as k) (bs k)).getD i 0)).sum ∧
            -(K.val * 3328 : Int) ≤ r.getD i 0 ∧ r.getD i 0 ≤ K.val * 3328) ∧
      ((¬∀ k < K.val, PolyMulLegal (as k) (bs k)) →
        exec (.pwacc rd ra rb K) s = .refused .contractViolation) ∧
      ((∀ k < K.val, (∀ c ∈ as k, -7385 ≤ c ∧ c ≤ 7385) ∧ (∀ c ∈ bs k, -7385 ≤ c ∧ c ≤ 7385)) →
        ∀ k < K.val, PolyMulLegal (as k) (bs k))) ∧
    (¬(1 ≤ K.val ∧ K.val ≤ 4 ∧ ra.val + K.val ≤ 16 ∧ rb.val + K.val ≤ 16) →
      exec (.pwacc rd ra rb K) s = .next (s.raise .illegalField 0))

/-! ### The samplers (43_sampler.md) -/

/-- 43_sampler.md R191, R194: every coefficient of cbd is the popcount of its first eta stream bits minus that of
the next eta, a function of its own 2*eta bits alone, and lies in -eta..eta; and of all 4^eta patterns of those
bits C(2*eta, eta+v) give the value v: 1, 4, 6, 4, 1 for eta = 2 and 1, 6, 15, 20, 15, 6, 1 for eta = 3. -/
def Obligations.CbdCoefficients : Prop :=
  ∀ eta : Nat, eta = 2 ∨ eta = 3 →
    (∀ buf : List Byte, buf.length = 64 * eta → ∀ i < 256,
      (cbd eta buf).getD i 0 = onesAt buf (2 * eta * i) eta - onesAt buf (2 * eta * i + eta) eta ∧
      (cbd eta buf).getD i 0 =
        cbdCoeff eta ((List.range (2 * eta)).map (fun j => bitLSB buf (2 * eta * i + j))) ∧
      -(eta : Int) ≤ (cbd eta buf).getD i 0 ∧ (cbd eta buf).getD i 0 ≤ eta) ∧
    (∀ bits : List Bool, bits.length = 2 * eta → (bitPatterns (2 * eta)).count bits = 1) ∧
    (bitPatterns (2 * eta)).length = 4 ^ eta ∧
    (∀ v : Int, -(eta : Int) ≤ v → v ≤ eta → cbdWeight eta v = Nat.choose (2 * eta) (eta + v).toNat) ∧
    [-2, -1, 0, 1, 2].map (cbdWeight 2) = [1, 4, 6, 4, 1] ∧
    [-3, -2, -1, 0, 1, 2, 3].map (cbdWeight 3) = [1, 6, 15, 20, 15, 6, 1]

/-- 43_sampler.md R192: CBD, eta = 2 and 3, runs on every readable record and changes nothing but storage, the
record not; a record that leaves its buffer raises BufRange. -/
def Obligations.CbdCommand : Prop :=
  ∀ (s : State) (rd : Slot) (bs : BufSel) (blk : Blk),
    ∀ c ∈ [(Instr.cbdEta2 rd bs blk, 2), (.cbdEta3 rd bs blk, 3)],
      (∀ buf, (blk.val + 1) * (64 * c.2) ≤ 2048 →
        s.readBuf bs (blk.val * (64 * c.2)) (64 * c.2) = some buf →
        ∃ t, exec c.1 s = .next t ∧ t = { s with mem := t.mem } ∧ t.readSlot rd.val = some (cbd c.2 buf) ∧
          t.readBuf bs (blk.val * (64 * c.2)) (64 * c.2) = some buf) ∧
      (¬(blk.val + 1) * (64 * c.2) ≤ 2048 → exec c.1 s = .next (s.raise .bufRange 0))

/-- 43_sampler.md R196, R197, R200: GETNOISE, eta = 2 and 3. The PRF service answers with the bytes that the
source's function gives for the request, and its one answer is used up. When that is ok the slot holds cbd of
PRF(SEED, nonce) and nothing else changes; when it is fail the error is XofFail with the code as supplied, the
slot is unspecified, and nothing else changes; when it never comes BUSY stays 1 (43_sampler.md R199). A list of
answers at its end answers ok, and the table of listed outputs is the model's (log 4). -/
def Obligations.GetnoiseCommand : Prop :=
  (∀ (src : ByteSource) (in33 out : List Byte), src.prf.lookup (in33, out.length) = some out →
    src.prfBytes in33 out.length = out) ∧
  ∀ (s : State) (rd : Slot) (nonce : Byte),
    let source : ByteSource := { s.source with answers := s.source.answers.drop 1 }
    ∀ c ∈ [(Instr.getnoiseEta2 rd nonce, 2), (.getnoiseEta3 rd nonce, 3)],
      ((nextAnswer s.source.answers).1 = .ok →
        ∃ t, exec c.1 s = .next t ∧ t = { s with mem := t.mem, source := source } ∧
          SameMemoryBut (slotBase rd.val) 512 s t ∧
          t.readSlot rd.val =
            some (cbd c.2 (s.source.prfBytes (s.seed.toList ++ [nonce]) (64 * c.2)))) ∧
      (∀ code, (nextAnswer s.source.answers).1 = .fail code →
        ∃ t, exec c.1 s = .next t ∧
          t = { s with mem := t.mem, source := source, err := .xofFail, errInfo := code, busy := false } ∧
          SameMemoryBut (slotBase rd.val) 512 s t ∧ t.err.code = 4 ∧ t.readSlot rd.val = none) ∧
      ((nextAnswer s.source.answers).1 = .silent → ∃ t, exec c.1 s = .next t ∧ t.busy = true)

/-- 43_sampler.md R196, R203, R205: block k of a listed stream is its bytes 168k to 168k + 167; the candidates of
a block are its 112 fields of 12 bits, LSB first; and when the source answers ok and the first n blocks of
XOF(SEED, row, col), or of XOF(SEED, col, row) if transposed, n at most REJ_MAX_BLOCKS, hold 256 accepted
candidates, GENA completes and the slot holds the first 256 accepted candidates of the unbroken stream, all in
0..3328. A list of answers at its end answers ok, and the table of listed streams is the model's (log 4). -/
def Obligations.GenaTakesFirstAccepted : Prop :=
  (∀ (src : ByteSource) (in34 stream : List Byte) (k : Nat), src.xof.lookup in34 = some stream →
    168 * (k + 1) ≤ stream.length → src.xofBlock in34 k = (stream.drop (168 * k)).take 168) ∧
  (∀ block : List Byte, block.length = 168 →
    candidates block = (List.range 112).map (fun i =>
      ((List.range 12).map (fun j => (bitLSB block (12 * i + j)).toNat * 2 ^ j)).sum)) ∧
  ∀ (s : State) (rd : Slot) (row col : Fin 16) (t : Bool) (n : Nat),
    let block := s.source.xofBlock (s.seed.toList ++
      (if t then [BitVec.ofNat 8 col.val, BitVec.ofNat 8 row.val]
       else [BitVec.ofNat 8 row.val, BitVec.ofNat 8 col.val]))
    n ≤ Config.rejMaxBlocks → (∀ a ∈ s.source.answers.take (n + 1), a = .ok) →
    256 ≤ (acceptedIn block n).length →
    ∃ u, exec (.gena rd row col t) s = .next u ∧ SameStatus s u ∧
      u.readSlot rd.val = some ((acceptedIn block n).take 256) ∧
      (∀ c ∈ (acceptedIn block n).take 256, 0 ≤ c ∧ c ≤ 3328)

/-- 43_sampler.md R199, R205, R207, 60_exceptions.md R281, R283, R289: the ways GENA can end, and which. It
completes, or ends in XofFail (ERR = 4) with a code the source supplied, or in RejCap (ERR = 5) with ERRINFO = 0, or
hangs. It ends in XofFail with code c exactly as soon as a request it makes is answered fail(c), and hangs as soon
as one is never answered: answer 0 is that of the start request, answer k that of the k-th block request, which is
made while fewer than 256 candidates of the k - 1 blocks before it are accepted and k is at most REJ_MAX_BLOCKS. With
the start and REJ_MAX_BLOCKS blocks answered ok and fewer than 256 candidates accepted in them it ends in RejCap,
whatever the source would answer next. A list of answers at its end answers ok (log 4). -/
def Obligations.GenaOutcomes : Prop :=
  ∀ (s : State) (rd : Slot) (row col : Fin 16) (t : Bool), s.busy = false → s.err = .none →
    let block := s.source.xofBlock (s.seed.toList ++
      (if t then [BitVec.ofNat 8 col.val, BitVec.ofNat 8 row.val]
       else [BitVec.ofNat 8 row.val, BitVec.ofNat 8 col.val]))
    ∃ u, exec (.gena rd row col t) s = .next u ∧
      ((u.err = .none ∧ u.busy = false ∧ ∃ p, u.readSlot rd.val = some p ∧ ∀ c ∈ p, 0 ≤ c ∧ c ≤ 3328) ∨
        (u.err = .xofFail ∧ u.err.code = 4 ∧ u.busy = false ∧ u.readSlot rd.val = none ∧
          .fail u.errInfo ∈ s.source.answers) ∨
        (u.err = .rejCap ∧ u.err.code = 5 ∧ u.errInfo = 0 ∧ u.busy = false ∧ u.readSlot rd.val = none) ∨
        (u.busy = true ∧ .silent ∈ s.source.answers)) ∧
      (∀ k ≤ Config.rejMaxBlocks, (∀ a ∈ s.source.answers.take k, a = .ok) →
        (acceptedIn block (k - 1)).length < 256 →
        (∀ code, s.source.answers[k]? = some (.fail code) →
          u.err = .xofFail ∧ u.errInfo = code ∧ u.busy = false ∧ u.readSlot rd.val = none) ∧
        (s.source.answers[k]? = some .silent → u.busy = true)) ∧
      ((∀ a ∈ s.source.answers.take (1 + Config.rejMaxBlocks), a = .ok) →
        (acceptedIn block Config.rejMaxBlocks).length < 256 → u.err = .rejCap)

/-- 43_sampler.md R205, R207, 70_reset_and_hazards.md R317: GENA makes at most 1 + REJ_MAX_BLOCKS requests, and
one that completes makes at least four (the start and three blocks); GETNOISE makes one. A list of answers at its
end answers ok (log 4). -/
def Obligations.RequestsAreBounded : Prop :=
  (∀ (s u : State) (rd : Slot) (row col : Fin 16) (t : Bool), exec (.gena rd row col t) s = .next u →
    ∃ k ≤ 1 + Config.rejMaxBlocks, u.source.answers = s.source.answers.drop k ∧
      (s.err = .none → s.busy = false → u.err = .none → u.busy = false → 4 ≤ k)) ∧
  (∀ (s u : State) (rd : Slot) (nonce : Byte),
    ∀ i ∈ [Instr.getnoiseEta2 rd nonce, .getnoiseEta3 rd nonce], exec i s = .next u →
      u.source.answers = s.source.answers.drop 1)

/-- 43_sampler.md R208: transposition is a pure relabelling of the two indices. -/
def Obligations.GenaTransposition : Prop :=
  ∀ (s : State) (rd : Slot) (i j : Fin 16), exec (.gena rd i j false) s = exec (.gena rd j i true) s

/-- 60_exceptions.md R285: after XofFail or RejCap the destination slot is never-written storage, which faults
when the host or a command reads it, and every other slot, both buffers, the registers, SEED and CMPNE are as
before. -/
def Obligations.FailedSamplerLosesItsSlot : Prop :=
  ∀ (s t : State) (rd : Slot) (nonce : Byte) (row col : Fin 16) (tr : Bool),
    ∀ i ∈ [Instr.getnoiseEta2 rd nonce, .getnoiseEta3 rd nonce, .gena rd row col tr],
      exec i s = .next t → s.err = .none → t.err = .xofFail ∨ t.err = .rejCap →
      t.readSlot rd.val = none ∧ exec (.ntt rd) t = .fault .unwrittenRead ∧
      (∀ k : Fin 256, hostAct (hostReadCoeff rd k) t = .fault .unwrittenRead) ∧
      SameMemoryBut (slotBase rd.val) 512 s t ∧ t.x = s.x ∧ t.seed = s.seed ∧ t.cmpne = s.cmpne

/-- 43_sampler.md R196: no step changes what the byte source's functions give, so the same input gives the
same output in every command; a step only uses up answers, oldest first. -/
def Obligations.ByteSourceIsAFunction : Prop :=
  ∀ s t : State, step s = .next t →
    (∀ in33 n, t.source.prfBytes in33 n = s.source.prfBytes in33 n) ∧
    (∀ in34 k, t.source.xofBlock in34 k = s.source.xofBlock in34 k) ∧
    ∃ k, t.source.answers = s.source.answers.drop k

/-! ### Compression and the codecs (44_compress.md, 45_codec.md) -/

/-- 44_compress.md R232: the fixed-point constants equal the division form for every canonical value. -/
def Obligations.CompressFixedPointForms : Prop :=
  ∀ c : Nat, c ≤ 3328 →
    compress 1 c = ((c * 2 + 1665) * 80635) / 2 ^ 28 % 2 ∧
    compress 4 c = ((c * 16 + 1665) * 80635) / 2 ^ 28 % 16 ∧
    compress 5 c = ((c * 32 + 1664) * 40318) / 2 ^ 27 % 32 ∧
    compress 10 c = ((c * 1024 + 1665) * 1290167) / 2 ^ 32 % 1024 ∧
    compress 11 c = ((c * 2048 + 1664) * 645084) / 2 ^ 31 % 2048

/-- 44_compress.md R240: the largest distance modulo q from a canonical value to its decompressed value is 104,
52, 2, 1 at d = 4, 5, 10, 11, first reached at 104, 52, 5, 1; the other direction is exact. -/
def Obligations.CompressionErrorBound : Prop :=
  ∀ e ∈ [(4, 104, 104), (5, 52, 52), (10, 2, 5), (11, (1 : Int), (1 : Int))],
    let dist (c : Int) : Int :=
      min ((decompress e.1 (compress e.1 c) - c) % 3329) ((c - decompress e.1 (compress e.1 c)) % 3329)
    (∀ c : Int, 0 ≤ c → c ≤ 3328 → dist c ≤ e.2.1) ∧
    dist e.2.2 = e.2.1 ∧ (∀ c : Int, 0 ≤ c → c < e.2.2 → dist c < e.2.1) ∧
    (∀ v : Nat, v < 2 ^ e.1 → compress e.1 (decompress e.1 v) = v)

/-- 44_compress.md R237: bit b of value i is stream bit i*d + b, and unpacking gives the values back, for the
widths the engine packs. -/
def Obligations.PackIsTheBitStream : Prop :=
  ∀ (d : Nat) (vs : List Nat), d ∈ [1, 4, 5, 10, 11, 12] → vs.length = 256 → (∀ v ∈ vs, v < 2 ^ d) →
    (packLSB d vs).length = 32 * d ∧
    (∀ i < 256, ∀ b < d, bitLSB (packLSB d vs) (i * d + b) = (vs.getD i 0).testBit b) ∧
    unpackLSB d 256 (packLSB d vs) = vs

/-- 44_compress.md R233: COMPRESS, all four widths, runs on every readable slot with coefficients in 0..6657;
the record is the packed compressed values, and nothing else changes; BufRange if the record leaves its
buffer. -/
def Obligations.CompressCommand : Prop :=
  ∀ (s : State) (ra : Slot) (bs : BufSel) (blk : Blk),
    ∀ c ∈ [(Instr.compressD4 ra bs blk, 4), (.compressD5 ra bs blk, 5), (.compressD10 ra bs blk, 10),
        (.compressD11 ra bs blk, 11)],
      (∀ p, (blk.val + 1) * (32 * c.2) ≤ 2048 → s.readSlot ra.val = some p →
        (∀ v ∈ p, 0 ≤ v ∧ v ≤ 6657) →
        ∃ t, exec c.1 s = .next t ∧ t = { s with mem := t.mem } ∧ t.readSlot ra.val = some p ∧
          SameMemoryBut (recordBase bs blk (32 * c.2)) (32 * c.2) s t ∧
          t.readBuf bs (blk.val * (32 * c.2)) (32 * c.2) =
            some (packLSB c.2 (p.map (fun v => ((v % 3329 * 2 ^ c.2 + 1664) / 3329 % 2 ^ c.2).toNat)))) ∧
      (¬(blk.val + 1) * (32 * c.2) ≤ 2048 → exec c.1 s = .next (s.raise .bufRange 0))

/-- 44_compress.md R234, R236: DECOMPRESS, all four widths, runs on every readable record; every coefficient is
the rounded `v * q / 2^d` of its value and lies in 0..3327; the record keeps its value; BufRange if it leaves
its buffer; nothing but storage changes. -/
def Obligations.DecompressCommand : Prop :=
  ∀ (s : State) (rd : Slot) (bs : BufSel) (blk : Blk),
    ∀ c ∈ [(Instr.decompressD4 rd bs blk, 4), (.decompressD5 rd bs blk, 5), (.decompressD10 rd bs blk, 10),
        (.decompressD11 rd bs blk, 11)],
      (∀ rec, (blk.val + 1) * (32 * c.2) ≤ 2048 →
        s.readBuf bs (blk.val * (32 * c.2)) (32 * c.2) = some rec →
        ∃ t p, exec c.1 s = .next t ∧ t = { s with mem := t.mem } ∧ t.readSlot rd.val = some p ∧
          t.readBuf bs (blk.val * (32 * c.2)) (32 * c.2) = some rec ∧
          ∀ i < 256, 0 ≤ p.getD i 0 ∧ p.getD i 0 ≤ 3327 ∧
            p.getD i 0 = (((unpackLSB c.2 256 rec).getD i 0 * 3329 + 2 ^ (c.2 - 1)) / 2 ^ c.2 : Nat)) ∧
      (¬(blk.val + 1) * (32 * c.2) ≤ 2048 → exec c.1 s = .next (s.raise .bufRange 0))

/-- 45_codec.md R251, R253: FROMMSG runs on every readable record and coefficient 8i + j is 1665 or 0 as bit j
of byte i is 1 or 0; TOMSG runs on every readable slot with coefficients in 0..6657, is refused on any other
readable slot, and bit j of byte i is 1 exactly if coefficient 8i + j, reduced once, is in 833..2496. Source
record and source slot keep their values, and nothing but storage changes. -/
def Obligations.MessageCommands : Prop :=
  (∀ (s : State) (rd : Slot) (bs : BufSel) (blk : Blk) (m : List Byte),
    s.readBuf bs (blk.val * 32) 32 = some m →
    ∃ t p, exec (.frommsg rd bs blk) s = .next t ∧ t = { s with mem := t.mem } ∧
      t.readSlot rd.val = some p ∧ t.readBuf bs (blk.val * 32) 32 = some m ∧
      ∀ i < 32, ∀ j < 8, p.getD (8 * i + j) 0 = if (m.getD i 0).getLsbD j then 1665 else 0) ∧
  (∀ (s : State) (ra : Slot) (bs : BufSel) (blk : Blk) (p : List Int), s.readSlot ra.val = some p →
    ((∀ c ∈ p, 0 ≤ c ∧ c ≤ 6657) →
      ∃ t m, exec (.tomsg ra bs blk) s = .next t ∧ t = { s with mem := t.mem } ∧
        t.readBuf bs (blk.val * 32) 32 = some m ∧ t.readSlot ra.val = some p ∧
        SameMemoryBut (recordBase bs blk 32) 32 s t ∧
        ∀ i < 32, ∀ j < 8, ((m.getD i 0).getLsbD j = true ↔
          833 ≤ p.getD (8 * i + j) 0 % 3329 ∧ p.getD (8 * i + j) 0 % 3329 ≤ 2496)) ∧
    ((¬∀ c ∈ p, 0 ≤ c ∧ c ≤ 6657) → exec (.tomsg ra bs blk) s = .refused .contractViolation))

/-- 45_codec.md R255 to R257: TOBYTES runs on every readable slot with coefficients in 0..4095, is refused on
any other readable slot, and packs two coefficients into three bytes as R255 lays them out; FROMBYTES runs on
every readable record and reads that layout; source slot and record keep their values; nothing but storage
changes; BufRange if the record leaves its buffer. -/
def Obligations.ByteCodecCommands : Prop :=
  ∀ (s : State) (r : Slot) (bs : BufSel) (blk : Blk),
    (∀ p, (blk.val + 1) * 384 ≤ 2048 → s.readSlot r.val = some p →
      ((∀ c ∈ p, 0 ≤ c ∧ c ≤ 4095) →
        ∃ t b, exec (.tobytes r bs blk) s = .next t ∧ t = { s with mem := t.mem } ∧
          t.readBuf bs (blk.val * 384) 384 = some b ∧ t.readSlot r.val = some p ∧
          ∀ i < 128, ((b.getD (3 * i) 0).toNat : Int) = p.getD (2 * i) 0 % 256 ∧
            ((b.getD (3 * i + 1) 0).toNat : Int) =
              p.getD (2 * i) 0 / 256 + p.getD (2 * i + 1) 0 % 16 * 16 ∧
            ((b.getD (3 * i + 2) 0).toNat : Int) = p.getD (2 * i + 1) 0 / 16) ∧
      ((¬∀ c ∈ p, 0 ≤ c ∧ c ≤ 4095) → exec (.tobytes r bs blk) s = .refused .contractViolation)) ∧
    (∀ b, (blk.val + 1) * 384 ≤ 2048 → s.readBuf bs (blk.val * 384) 384 = some b →
      ∃ t p, exec (.frombytes r bs blk) s = .next t ∧ t = { s with mem := t.mem } ∧
        t.readSlot r.val = some p ∧ t.readBuf bs (blk.val * 384) 384 = some b ∧
        ∀ i < 128,
          p.getD (2 * i) 0 = (b.getD (3 * i) 0).toNat + ((b.getD (3 * i + 1) 0).toNat % 16 * 256 : Nat) ∧
          p.getD (2 * i + 1) 0 =
            ((b.getD (3 * i + 1) 0).toNat / 16 : Nat) + ((b.getD (3 * i + 2) 0).toNat * 16 : Nat)) ∧
    (¬(blk.val + 1) * 384 ≤ 2048 → exec (.tobytes r bs blk) s = .next (s.raise .bufRange 0) ∧
      exec (.frombytes r bs blk) s = .next (s.raise .bufRange 0))

/-- 45_codec.md R254, R258: FROMMSG then TOMSG gives the message back, in any slot, buffers and records;
TOBYTES then FROMBYTES the polynomial, and FROMBYTES then TOBYTES the bytes. -/
def Obligations.CodecRoundTrips : Prop :=
  ∀ (s : State) (r r' : Slot) (bs bs' : BufSel) (blk blk' : Blk),
    (∀ m, s.readBuf bs (blk.val * 32) 32 = some m →
      ∃ t u, exec (.frommsg r bs blk) s = .next t ∧ exec (.tomsg r bs' blk') t = .next u ∧
        u.readBuf bs' (blk'.val * 32) 32 = some m) ∧
    (∀ p, (blk.val + 1) * 384 ≤ 2048 → s.readSlot r.val = some p → (∀ c ∈ p, 0 ≤ c ∧ c ≤ 4095) →
      ∃ t u, exec (.tobytes r bs blk) s = .next t ∧ exec (.frombytes r' bs blk) t = .next u ∧
        u.readSlot r'.val = some p) ∧
    (∀ b, (blk.val + 1) * 384 ≤ 2048 → s.readBuf bs (blk.val * 384) 384 = some b →
      ∃ t u, exec (.frombytes r bs blk) s = .next t ∧ exec (.tobytes r bs blk) t = .next u ∧
        u.readBuf bs (blk.val * 384) 384 = some b)

/-! ### The comparator (46_compare.md) -/

/-- 46_compare.md R270: CTCMP runs whenever the compared bytes hold values; CMPNE becomes 0 exactly if every
compared pair is equal, and nothing else is written; len above 2048 raises BufRange. -/
def Obligations.CtcmpCommand : Prop :=
  ∀ (s : State) (len : Fin 4096),
    (∀ a b, len.val ≤ 2048 → s.readBuf .A 0 len.val = some a → s.readBuf .B 0 len.val = some b →
      ∃ t, exec (.ctcmp len) s = .next t ∧ t = { s with cmpne := t.cmpne } ∧
        (t.cmpne = false ↔ ∀ i < len.val, a.getD i 0 = b.getD i 0)) ∧
    (¬len.val ≤ 2048 → exec (.ctcmp len) s = .next (s.raise .bufRange 0))

/-! ### Frames -/

/-- 10_state.md R21, 40_reduction.md R112, R114, R116, R118, 42_basemul.md R172: the scalar commands change
their destination register, BASEMUL its pair, and nothing else at all. -/
def Obligations.ScalarCommandsFrame : Prop :=
  ∀ (s t : State) (rd ra rb : Reg),
    (∀ i ∈ [Instr.montred rd ra, .barrett rd ra, .csubq rd ra, .montmul rd ra rb], exec i s = .next t →
      (∀ r, r ≠ rd → t.x[r] = s.x[r]) ∧ t.seed = s.seed ∧ SameStatus s t ∧ SameOutside s t ∧
      ∀ a, t.mem.read a = s.mem.read a) ∧
    (∀ (neg : Bool) (zi : Fin 128), (Instr.basemul rd ra rb neg zi).wellFormed = true →
      exec (.basemul rd ra rb neg zi) s = .next t →
      (∀ r : Reg, r ≠ rd → r.val ≠ rd.val + 1 → t.x[r] = s.x[r]) ∧ t.seed = s.seed ∧ SameStatus s t ∧
      SameOutside s t ∧ ∀ a, t.mem.read a = s.mem.read a)

/-- 10_state.md R38: the commands that write a slot or a record, the samplers apart, change those bytes and
nothing else at all. -/
def Obligations.StoringCommandsFrame : Prop :=
  ∀ (s t : State) (i : Instr), i.wellFormed = true → i.writesX = false → i.writesCmpne = false →
    i.usesPort = false → exec i s = .next t →
    t.x = s.x ∧ t.seed = s.seed ∧ SameStatus s t ∧ SameOutside s t ∧
      SameMemoryBut i.storeRange.1 i.storeRange.2 s t

/-- 43_sampler.md R200, R205, 60_exceptions.md R285: whatever its outcome, a GETNOISE or GENA changes no byte
outside its destination slot, no register, not SEED, not CMPNE. -/
def Obligations.SamplersFrame : Prop :=
  ∀ (s t : State) (i : Instr), i.usesPort = true → exec i s = .next t →
    t.x = s.x ∧ t.seed = s.seed ∧ t.cmpne = s.cmpne ∧ t.host = s.host ∧ t.readData = s.readData ∧
      SameMemoryBut i.storeRange.1 i.storeRange.2 s t

/-- 10_state.md R21, R24, R27, R38: over all commands, well formed or not: only the scalar commands write x,
only CTCMP writes CMPNE, none writes SEED, only the samplers make requests, and none stores outside its
destination. -/
def Obligations.AccessTable : Prop :=
  ∀ (s t : State) (i : Instr), exec i s = .next t →
    t.seed = s.seed ∧ t.host = s.host ∧ t.readData = s.readData ∧
      (i.writesX = false → t.x = s.x) ∧ (i.writesCmpne = false → t.cmpne = s.cmpne) ∧
      (i.usesPort = false → t.source = s.source) ∧
      SameMemoryBut i.storeRange.1 i.storeRange.2 s t
end

