-- ==== Sys2Proof/Laws/Lengths.lean ====
section
/-! SUPPORT. The lengths of what the family functions compute: a whole slot is 256 coefficients, a whole record
S bytes (10_state.md R22, 20_memory.md R60). -/

namespace Sys2Proof.Machine

/-! ### Bits -/

@[simp] theorem length_chunks {α : Type} (w n : Nat) (l : List α) : (chunks w n l).length = n := by
  induction n generalizing l with
  | zero => rfl
  | succ n ih => simp [chunks, ih]

@[simp] theorem length_bitsOfNat (d v : Nat) : (bitsOfNat d v).length = d := by simp [bitsOfNat]

theorem length_flatMap_bits {α : Type} (d : Nat) (f : α → Nat) (l : List α) :
    (l.flatMap (fun a => bitsOfNat d (f a))).length = l.length * d := by
  induction l with
  | nil => simp
  | cons a l ih => simp only [List.flatMap_cons, List.length_append, ih, length_bitsOfNat,
      List.length_cons]; ring

@[simp] theorem length_bitStream (bs : List Byte) : (bitStream bs).length = bs.length * 8 :=
  length_flatMap_bits 8 BitVec.toNat bs

@[simp] theorem length_bytesOfBits (n : Nat) (bits : List Bool) : (bytesOfBits n bits).length = n := by
  simp [bytesOfBits]

@[simp] theorem length_packLSB (d : Nat) (vs : List Nat) : (packLSB d vs).length = vs.length * d / 8 := by
  simp [packLSB]

@[simp] theorem length_unpackLSB (d n : Nat) (bs : List Byte) : (unpackLSB d n bs).length = n := by
  simp [unpackLSB]

/-! ### Slots -/

theorem length_layer (bf : Int → Int → Int → Int × Int) (len : Nat) (zs r : List Int)
    (h : r.length = zs.length * (2 * len)) : (layer bf len zs r).length = r.length := by
  induction zs generalizing r with
  | nil => simp at h; simp [layer, h]
  | cons z zs ih =>
    have hr : r.length = zs.length * (2 * len) + 2 * len := by rw [h, List.length_cons]; ring
    have hd : (r.drop (2 * len)).length = zs.length * (2 * len) := by
      rw [List.length_drop]; omega
    simp only [layer, List.length_append, List.length_map, List.length_zipWith, List.length_take,
      List.length_drop, ih _ hd]
    omega

theorem length_fwdLayer (r : List Int) (len : Nat) (hr : r.length = 256)
    (hl : 128 / len * (2 * len) = 256) : (fwdLayer r len).length = 256 := by
  unfold fwdLayer
  rw [length_layer, hr]
  rw [hr]; simp [fwdTwiddles, hl]

theorem length_invLayer (r : List Int) (l : InvLayer) (hr : r.length = 256)
    (hl : 128 / l.len * (2 * l.len) = 256) : (invLayer r l).length = 256 := by
  unfold invLayer
  rw [length_layer, hr]
  rw [hr]; simp [invTwiddles, hl]

theorem length_nttLayers {r : List Int} (h : r.length = 256) : (nttLayers r).length = 256 := by
  simp only [nttLayers, List.foldl_cons, List.foldl_nil]
  repeat rw [length_fwdLayer _ _ ?_ (by decide)]
  exact h

theorem length_ntt {r : List Int} (h : r.length = 256) : (ntt r).length = 256 := by
  rw [ntt, List.length_map, length_nttLayers h]

theorem length_intt {r : List Int} (h : r.length = 256) : (intt r).length = 256 := by
  rw [intt, List.length_map]
  simp only [invLayers, List.foldl_cons, List.foldl_nil]
  repeat rw [length_invLayer _ _ ?_ (by decide)]
  exact h

theorem length_pairArgs : ∀ (n i : Nat) (a b : List Int), (pairArgs n i a b).length = n
  | 0, _, _, _ => rfl
  | n + 1, i, a, b => by rw [pairArgs, List.length_cons, length_pairArgs n]

/-- The `k`-th base multiplication takes coefficients 2k and 2k+1 of both arrays (42_basemul.md R173). -/
theorem getElem?_pairArgs : ∀ (n i : Nat) (a b : List Int) (k : Nat), k < n →
    (pairArgs n i a b)[k]? = some
      { a0 := a.getD (2 * k) 0, a1 := a.getD (2 * k + 1) 0, b0 := b.getD (2 * k) 0,
        b1 := b.getD (2 * k + 1) 0, z := basemulTwiddle ((i + k) % 2 == 1) (64 + (i + k) / 2) }
  | n + 1, i, a, b, 0, _ => rfl
  | n + 1, i, a, b, k + 1, h => by
    rw [pairArgs, List.getElem?_cons_succ, getElem?_pairArgs n (i + 1) _ _ k (by omega)]
    have h1 : ∀ l : List Int, ∀ j, (l.drop 2).getD j 0 = l.getD (2 + j) 0 := by
      intro l j; rw [List.getD_eq_getElem?_getD, List.getElem?_drop, List.getD_eq_getElem?_getD]
    have e1 : 2 + 2 * k = 2 * (k + 1) := by omega
    have e2 : 2 + (2 * k + 1) = 2 * (k + 1) + 1 := by omega
    have e3 : i + 1 + k = i + (k + 1) := by omega
    rw [h1, h1, h1, h1, e1, e2, e3]

@[simp] theorem length_polyMulNtt (a b : List Int) : (polyMulNtt a b).length = 256 := by
  rw [polyMulNtt, List.length_flatMap]
  simp only [List.length_cons, List.length_nil, List.map_const', length_pairArgs,
    List.sum_replicate]
  rfl

theorem length_pwaccSum {abs : List (List Int × List Int)} (h : abs ≠ []) :
    (pwaccSum abs).length = 256 := by
  cases abs with
  | nil => exact absurd rfl h
  | cons ab rest =>
    have key : ∀ (l : List (List Int × List Int)) (acc : List Int), acc.length = 256 →
        (l.foldl (fun acc ab => List.zipWith (fun u v => u + v) acc (polyMulNtt ab.1 ab.2)) acc).length
          = 256 := by
      intro l
      induction l with
      | nil => intro acc h; exact h
      | cons c l ih => intro acc h; exact ih _ (by rw [List.length_zipWith, h, length_polyMulNtt]; rfl)
    exact key rest _ (length_polyMulNtt ..)

/-- The byte source's answers have the length asked for (43_sampler.md R196). -/
theorem length_listedThenFree (free : Nat → Byte) : ∀ (n i : Nat) (l : List Byte),
    (listedThenFree free n i l).length = n
  | 0, _, _ => rfl
  | n + 1, i, [] => by rw [listedThenFree, List.length_cons, length_listedThenFree free n]
  | n + 1, i, _ :: bs => by rw [listedThenFree, List.length_cons, length_listedThenFree free n]

/-- Where enough bytes are listed no free byte is used. -/
theorem listedThenFree_listed (free : Nat → Byte) : ∀ (n i : Nat) (l : List Byte), n ≤ l.length →
    listedThenFree free n i l = l.take n
  | 0, _, _, _ => rfl
  | n + 1, i, b :: bs, h => by
    rw [listedThenFree, List.take_succ_cons, listedThenFree_listed free n _ bs (by simpa using h)]

@[simp] theorem length_prfBytes (src : ByteSource) (in33 : List Byte) (n : Nat) :
    (src.prfBytes in33 n).length = n := length_listedThenFree ..

@[simp] theorem length_xofBlock (src : ByteSource) (in34 : List Byte) (k : Nat) :
    (src.xofBlock in34 k).length = 168 := length_listedThenFree ..

@[simp] theorem length_cbd (eta : Nat) (buf : List Byte) : (cbd eta buf).length = 256 := by simp [cbd]

@[simp] theorem length_decompressRecord (d : Nat) (bs : List Byte) :
    (decompressRecord d bs).length = 256 := by simp [decompressRecord]

@[simp] theorem length_fromBytes (bs : List Byte) : (fromBytes bs).length = 256 := by
  rw [fromBytes, List.length_map, length_unpackLSB]

theorem length_fromMsg {m : List Byte} (h : m.length = 32) : (fromMsg m).length = 256 := by
  rw [fromMsg, List.length_map, length_bitStream, h]

/-! ### Records -/

theorem length_compressRecord (d : Nat) {p : List Int} (h : p.length = 256) :
    (compressRecord d p).length = 32 * d := by
  simp only [compressRecord, length_packLSB, List.length_map, h]; omega

theorem length_toMsg {p : List Int} (h : p.length = 256) : (toMsg p).length = 32 := by
  simp [toMsg, h]

theorem length_toBytes {p : List Int} (h : p.length = 256) : (toBytes p).length = 384 := by
  simp [toBytes, h]

/-! ### The rejection sampler -/

/-- A candidate adds at most one coefficient and never exceeds 256 (43_sampler.md R203). -/
theorem length_accept_le (r : List Int) (d : Nat) (h : r.length ≤ 256) : (accept r d).length ≤ 256 := by
  unfold accept
  split
  case isTrue hc => rw [List.length_append]; exact hc.1
  case isFalse => exact h

theorem length_rejParse_le (block : List Byte) (r : List Int) (h : r.length ≤ 256) :
    (rejParse block r).length ≤ 256 := by
  have key : ∀ (l : List Nat) (r : List Int), r.length ≤ 256 → (l.foldl accept r).length ≤ 256 := by
    intro l
    induction l with
    | nil => intro r h; exact h
    | cons d l ih => intro r h; exact ih _ (length_accept_le r d h)
  exact key _ r h

/-- GENA's loop completes with exactly 256 coefficients (43_sampler.md R205). -/
theorem length_of_rejLoop_done (block : Nat → List Byte) (left nblk : Nat) (answers : List SourceAnswer)
    (r r' : List Int) (h : r.length ≤ 256) (hd : (rejLoop block left nblk answers r).1 = .done r') :
    r'.length = 256 := by
  induction left generalizing nblk answers r with
  | zero =>
    simp only [rejLoop] at hd
    split at hd <;> simp at hd
    subst hd; omega
  | succ n ih =>
    simp only [rejLoop] at hd
    split at hd
    · split at hd
      · exact ih _ _ _ (length_rejParse_le _ _ h) hd
      · simp at hd
      · simp at hd
    · simp at hd
      subst hd; omega

end Sys2Proof.Machine
end

