-- ==== Sys2Proof/Laws/State.lean ====
section
/-! SUPPORT. What each update of the state does to each field: one lemma per field per update. -/

namespace Sys2Proof.Machine

variable (s : State)

/-! ### writeX -/

@[simp] theorem State.writeX_x (i : Reg) (v : Int) : (s.writeX i v).x = s.x.set i (BitVec.ofInt 32 v) := rfl
@[simp] theorem State.writeX_seed (i : Reg) (v : Int) : (s.writeX i v).seed = s.seed := rfl
@[simp] theorem State.writeX_mem (i : Reg) (v : Int) : (s.writeX i v).mem = s.mem := rfl
@[simp] theorem State.writeX_busy (i : Reg) (v : Int) : (s.writeX i v).busy = s.busy := rfl
@[simp] theorem State.writeX_cmpne (i : Reg) (v : Int) : (s.writeX i v).cmpne = s.cmpne := rfl
@[simp] theorem State.writeX_err (i : Reg) (v : Int) : (s.writeX i v).err = s.err := rfl
@[simp] theorem State.writeX_errInfo (i : Reg) (v : Int) : (s.writeX i v).errInfo = s.errInfo := rfl
@[simp] theorem State.writeX_source (i : Reg) (v : Int) : (s.writeX i v).source = s.source := rfl
@[simp] theorem State.writeX_host (i : Reg) (v : Int) : (s.writeX i v).host = s.host := rfl
@[simp] theorem State.writeX_readData (i : Reg) (v : Int) : (s.writeX i v).readData = s.readData := rfl

/-! ### writeSlot -/

@[simp] theorem State.writeSlot_x (r : Nat) (p : List Int) : (s.writeSlot r p).x = s.x := rfl
@[simp] theorem State.writeSlot_seed (r : Nat) (p : List Int) : (s.writeSlot r p).seed = s.seed := rfl
@[simp] theorem State.writeSlot_mem (r : Nat) (p : List Int) : (s.writeSlot r p).mem = s.mem.writeRange (slotBase r) (p.flatMap coeffBytes) := rfl
@[simp] theorem State.writeSlot_busy (r : Nat) (p : List Int) : (s.writeSlot r p).busy = s.busy := rfl
@[simp] theorem State.writeSlot_cmpne (r : Nat) (p : List Int) : (s.writeSlot r p).cmpne = s.cmpne := rfl
@[simp] theorem State.writeSlot_err (r : Nat) (p : List Int) : (s.writeSlot r p).err = s.err := rfl
@[simp] theorem State.writeSlot_errInfo (r : Nat) (p : List Int) : (s.writeSlot r p).errInfo = s.errInfo := rfl
@[simp] theorem State.writeSlot_source (r : Nat) (p : List Int) : (s.writeSlot r p).source = s.source := rfl
@[simp] theorem State.writeSlot_host (r : Nat) (p : List Int) : (s.writeSlot r p).host = s.host := rfl
@[simp] theorem State.writeSlot_readData (r : Nat) (p : List Int) : (s.writeSlot r p).readData = s.readData := rfl

/-! ### eraseSlot -/

@[simp] theorem State.eraseSlot_x (r : Nat) : (s.eraseSlot r).x = s.x := rfl
@[simp] theorem State.eraseSlot_seed (r : Nat) : (s.eraseSlot r).seed = s.seed := rfl
@[simp] theorem State.eraseSlot_mem (r : Nat) : (s.eraseSlot r).mem = s.mem.eraseRange (slotBase r) slotBytes := rfl
@[simp] theorem State.eraseSlot_busy (r : Nat) : (s.eraseSlot r).busy = s.busy := rfl
@[simp] theorem State.eraseSlot_cmpne (r : Nat) : (s.eraseSlot r).cmpne = s.cmpne := rfl
@[simp] theorem State.eraseSlot_err (r : Nat) : (s.eraseSlot r).err = s.err := rfl
@[simp] theorem State.eraseSlot_errInfo (r : Nat) : (s.eraseSlot r).errInfo = s.errInfo := rfl
@[simp] theorem State.eraseSlot_source (r : Nat) : (s.eraseSlot r).source = s.source := rfl
@[simp] theorem State.eraseSlot_host (r : Nat) : (s.eraseSlot r).host = s.host := rfl
@[simp] theorem State.eraseSlot_readData (r : Nat) : (s.eraseSlot r).readData = s.readData := rfl

/-! ### writeBuf -/

@[simp] theorem State.writeBuf_x (b : BufSel) (o : Nat) (bytes : List Byte) : (s.writeBuf b o bytes).x = s.x := rfl
@[simp] theorem State.writeBuf_seed (b : BufSel) (o : Nat) (bytes : List Byte) : (s.writeBuf b o bytes).seed = s.seed := rfl
@[simp] theorem State.writeBuf_mem (b : BufSel) (o : Nat) (bytes : List Byte) : (s.writeBuf b o bytes).mem = s.mem.writeRange (bufBase b + o) bytes := rfl
@[simp] theorem State.writeBuf_busy (b : BufSel) (o : Nat) (bytes : List Byte) : (s.writeBuf b o bytes).busy = s.busy := rfl
@[simp] theorem State.writeBuf_cmpne (b : BufSel) (o : Nat) (bytes : List Byte) : (s.writeBuf b o bytes).cmpne = s.cmpne := rfl
@[simp] theorem State.writeBuf_err (b : BufSel) (o : Nat) (bytes : List Byte) : (s.writeBuf b o bytes).err = s.err := rfl
@[simp] theorem State.writeBuf_errInfo (b : BufSel) (o : Nat) (bytes : List Byte) : (s.writeBuf b o bytes).errInfo = s.errInfo := rfl
@[simp] theorem State.writeBuf_source (b : BufSel) (o : Nat) (bytes : List Byte) : (s.writeBuf b o bytes).source = s.source := rfl
@[simp] theorem State.writeBuf_host (b : BufSel) (o : Nat) (bytes : List Byte) : (s.writeBuf b o bytes).host = s.host := rfl
@[simp] theorem State.writeBuf_readData (b : BufSel) (o : Nat) (bytes : List Byte) : (s.writeBuf b o bytes).readData = s.readData := rfl

/-! ### writeRecord -/

@[simp] theorem State.writeRecord_x (b : BufSel) (blk : Blk) (S : Nat) (bytes : List Byte) : (s.writeRecord b blk S bytes).x = s.x := rfl
@[simp] theorem State.writeRecord_seed (b : BufSel) (blk : Blk) (S : Nat) (bytes : List Byte) : (s.writeRecord b blk S bytes).seed = s.seed := rfl
@[simp] theorem State.writeRecord_mem (b : BufSel) (blk : Blk) (S : Nat) (bytes : List Byte) : (s.writeRecord b blk S bytes).mem = s.mem.writeRange (recordBase b blk S) bytes := rfl
@[simp] theorem State.writeRecord_busy (b : BufSel) (blk : Blk) (S : Nat) (bytes : List Byte) : (s.writeRecord b blk S bytes).busy = s.busy := rfl
@[simp] theorem State.writeRecord_cmpne (b : BufSel) (blk : Blk) (S : Nat) (bytes : List Byte) : (s.writeRecord b blk S bytes).cmpne = s.cmpne := rfl
@[simp] theorem State.writeRecord_err (b : BufSel) (blk : Blk) (S : Nat) (bytes : List Byte) : (s.writeRecord b blk S bytes).err = s.err := rfl
@[simp] theorem State.writeRecord_errInfo (b : BufSel) (blk : Blk) (S : Nat) (bytes : List Byte) : (s.writeRecord b blk S bytes).errInfo = s.errInfo := rfl
@[simp] theorem State.writeRecord_source (b : BufSel) (blk : Blk) (S : Nat) (bytes : List Byte) : (s.writeRecord b blk S bytes).source = s.source := rfl
@[simp] theorem State.writeRecord_host (b : BufSel) (blk : Blk) (S : Nat) (bytes : List Byte) : (s.writeRecord b blk S bytes).host = s.host := rfl
@[simp] theorem State.writeRecord_readData (b : BufSel) (blk : Blk) (S : Nat) (bytes : List Byte) : (s.writeRecord b blk S bytes).readData = s.readData := rfl

/-! ### writeCmpne -/

@[simp] theorem State.writeCmpne_x (v : Bool) : (s.writeCmpne v).x = s.x := rfl
@[simp] theorem State.writeCmpne_seed (v : Bool) : (s.writeCmpne v).seed = s.seed := rfl
@[simp] theorem State.writeCmpne_mem (v : Bool) : (s.writeCmpne v).mem = s.mem := rfl
@[simp] theorem State.writeCmpne_busy (v : Bool) : (s.writeCmpne v).busy = s.busy := rfl
@[simp] theorem State.writeCmpne_cmpne (v : Bool) : (s.writeCmpne v).cmpne = v := rfl
@[simp] theorem State.writeCmpne_err (v : Bool) : (s.writeCmpne v).err = s.err := rfl
@[simp] theorem State.writeCmpne_errInfo (v : Bool) : (s.writeCmpne v).errInfo = s.errInfo := rfl
@[simp] theorem State.writeCmpne_source (v : Bool) : (s.writeCmpne v).source = s.source := rfl
@[simp] theorem State.writeCmpne_host (v : Bool) : (s.writeCmpne v).host = s.host := rfl
@[simp] theorem State.writeCmpne_readData (v : Bool) : (s.writeCmpne v).readData = s.readData := rfl

/-! ### raise -/

@[simp] theorem State.raise_x (e : ErrCode) (info : Word) : (s.raise e info).x = s.x := rfl
@[simp] theorem State.raise_seed (e : ErrCode) (info : Word) : (s.raise e info).seed = s.seed := rfl
@[simp] theorem State.raise_mem (e : ErrCode) (info : Word) : (s.raise e info).mem = s.mem := rfl
@[simp] theorem State.raise_busy (e : ErrCode) (info : Word) : (s.raise e info).busy = false := rfl
@[simp] theorem State.raise_cmpne (e : ErrCode) (info : Word) : (s.raise e info).cmpne = s.cmpne := rfl
@[simp] theorem State.raise_err (e : ErrCode) (info : Word) : (s.raise e info).err = e := rfl
@[simp] theorem State.raise_source (e : ErrCode) (info : Word) : (s.raise e info).source = s.source := rfl
@[simp] theorem State.raise_host (e : ErrCode) (info : Word) : (s.raise e info).host = s.host := rfl
@[simp] theorem State.raise_readData (e : ErrCode) (info : Word) : (s.raise e info).readData = s.readData := rfl

/-! ### raiseLosing -/

@[simp] theorem State.raiseLosing_x (rd : Slot) (e : ErrCode) (info : Word) : (s.raiseLosing rd e info).x = s.x := rfl
@[simp] theorem State.raiseLosing_seed (rd : Slot) (e : ErrCode) (info : Word) : (s.raiseLosing rd e info).seed = s.seed := rfl
@[simp] theorem State.raiseLosing_mem (rd : Slot) (e : ErrCode) (info : Word) : (s.raiseLosing rd e info).mem = s.mem.eraseRange (slotBase rd.val) slotBytes := rfl
@[simp] theorem State.raiseLosing_busy (rd : Slot) (e : ErrCode) (info : Word) : (s.raiseLosing rd e info).busy = false := rfl
@[simp] theorem State.raiseLosing_cmpne (rd : Slot) (e : ErrCode) (info : Word) : (s.raiseLosing rd e info).cmpne = s.cmpne := rfl
@[simp] theorem State.raiseLosing_err (rd : Slot) (e : ErrCode) (info : Word) : (s.raiseLosing rd e info).err = e := rfl
@[simp] theorem State.raiseLosing_source (rd : Slot) (e : ErrCode) (info : Word) : (s.raiseLosing rd e info).source = s.source := rfl
@[simp] theorem State.raiseLosing_host (rd : Slot) (e : ErrCode) (info : Word) : (s.raiseLosing rd e info).host = s.host := rfl
@[simp] theorem State.raiseLosing_readData (rd : Slot) (e : ErrCode) (info : Word) : (s.raiseLosing rd e info).readData = s.readData := rfl

/-! ### clearErr -/

@[simp] theorem State.clearErr_x : (s.clearErr).x = s.x := rfl
@[simp] theorem State.clearErr_seed : (s.clearErr).seed = s.seed := rfl
@[simp] theorem State.clearErr_mem : (s.clearErr).mem = s.mem := rfl
@[simp] theorem State.clearErr_busy : (s.clearErr).busy = s.busy := rfl
@[simp] theorem State.clearErr_cmpne : (s.clearErr).cmpne = s.cmpne := rfl
@[simp] theorem State.clearErr_err : (s.clearErr).err = .none := rfl
@[simp] theorem State.clearErr_errInfo : (s.clearErr).errInfo = 0 := rfl
@[simp] theorem State.clearErr_source : (s.clearErr).source = s.source := rfl
@[simp] theorem State.clearErr_host : (s.clearErr).host = s.host := rfl
@[simp] theorem State.clearErr_readData : (s.clearErr).readData = s.readData := rfl

/-! ### setAnswers -/

@[simp] theorem State.setAnswers_x (rest : List SourceAnswer) : (s.setAnswers rest).x = s.x := rfl
@[simp] theorem State.setAnswers_seed (rest : List SourceAnswer) : (s.setAnswers rest).seed = s.seed := rfl
@[simp] theorem State.setAnswers_mem (rest : List SourceAnswer) : (s.setAnswers rest).mem = s.mem := rfl
@[simp] theorem State.setAnswers_busy (rest : List SourceAnswer) : (s.setAnswers rest).busy = s.busy := rfl
@[simp] theorem State.setAnswers_cmpne (rest : List SourceAnswer) : (s.setAnswers rest).cmpne = s.cmpne := rfl
@[simp] theorem State.setAnswers_err (rest : List SourceAnswer) : (s.setAnswers rest).err = s.err := rfl
@[simp] theorem State.setAnswers_errInfo (rest : List SourceAnswer) : (s.setAnswers rest).errInfo = s.errInfo := rfl
@[simp] theorem State.setAnswers_source (rest : List SourceAnswer) : (s.setAnswers rest).source = { s.source with answers := rest } := rfl
@[simp] theorem State.setAnswers_host (rest : List SourceAnswer) : (s.setAnswers rest).host = s.host := rfl
@[simp] theorem State.setAnswers_readData (rest : List SourceAnswer) : (s.setAnswers rest).readData = s.readData := rfl

/-! ### hang -/

@[simp] theorem State.hang_x : (s.hang).x = s.x := rfl
@[simp] theorem State.hang_seed : (s.hang).seed = s.seed := rfl
@[simp] theorem State.hang_mem : (s.hang).mem = s.mem := rfl
@[simp] theorem State.hang_busy : (s.hang).busy = true := rfl
@[simp] theorem State.hang_cmpne : (s.hang).cmpne = s.cmpne := rfl
@[simp] theorem State.hang_err : (s.hang).err = s.err := rfl
@[simp] theorem State.hang_errInfo : (s.hang).errInfo = s.errInfo := rfl
@[simp] theorem State.hang_source : (s.hang).source = s.source := rfl
@[simp] theorem State.hang_host : (s.hang).host = s.host := rfl
@[simp] theorem State.hang_readData : (s.hang).readData = s.readData := rfl

/-! ### platformReset -/

@[simp] theorem State.platformReset_x : (s.platformReset).x = State.reset.x := rfl
@[simp] theorem State.platformReset_seed : (s.platformReset).seed = State.reset.seed := rfl
@[simp] theorem State.platformReset_mem : (s.platformReset).mem = [] := rfl
@[simp] theorem State.platformReset_busy : (s.platformReset).busy = false := rfl
@[simp] theorem State.platformReset_cmpne : (s.platformReset).cmpne = false := rfl
@[simp] theorem State.platformReset_err : (s.platformReset).err = .none := rfl
@[simp] theorem State.platformReset_errInfo : (s.platformReset).errInfo = 0 := rfl
@[simp] theorem State.platformReset_source : (s.platformReset).source = s.source := rfl
@[simp] theorem State.platformReset_host : (s.platformReset).host = s.host := rfl
@[simp] theorem State.platformReset_readData : (s.platformReset).readData = s.readData := rfl

/-! ### ERRINFO after an error (60_exceptions.md R284) -/

/-- ERRINFO receives the info of XofFail. -/
@[simp] theorem State.raise_errInfo_xofFail (info : Word) : (s.raise .xofFail info).errInfo = info := rfl

/-- ERRINFO is 0 after any other error. -/
theorem State.raise_errInfo_other (e : ErrCode) (info : Word) (h : e ≠ .xofFail) :
    (s.raise e info).errInfo = 0 := by
  cases e <;> first | rfl | exact absurd rfl h

/-- `raiseLosing` writes ERRINFO as `raise` does. -/
@[simp] theorem State.raiseLosing_errInfo (rd : Slot) (e : ErrCode) (info : Word) :
    (s.raiseLosing rd e info).errInfo = (s.raise e info).errInfo := rfl

end Sys2Proof.Machine
end

