-- ==== Sys2Proof/Laws/Memory.lean ====
section
/-! SUPPORT. The laws of memory: its canonical form is kept, a read after a write gives what was written, and
a write leaves every other offset alone (20_memory.md R51, R64). -/

namespace Sys2Proof.Machine

/-! ### The cells of a byte string -/

@[simp] theorem cellsAt_fst (a : Nat) (bs : List Byte) :
    (cellsAt a bs).map Prod.fst = List.range' a bs.length := by
  induction bs generalizing a with
  | nil => rfl
  | cons b bs ih => simp [cellsAt, ih, List.range'_succ]

@[simp] theorem cellsAt_snd (a : Nat) (bs : List Byte) : (cellsAt a bs).map Prod.snd = bs := by
  induction bs generalizing a with
  | nil => rfl
  | cons b bs ih => simp [cellsAt, ih]

theorem bounds_of_mem_cellsAt {a : Nat} {bs : List Byte} {c : Host.Cell} (h : c ∈ cellsAt a bs) :
    a ≤ c.1 ∧ c.1 < a + bs.length := by
  have hc : c.1 ∈ (cellsAt a bs).map Prod.fst := List.mem_map_of_mem h
  rw [cellsAt_fst] at hc
  simpa [List.mem_range'_1] using hc

theorem cellsAt_rising (a : Nat) (bs : List Byte) :
    (cellsAt a bs).Pairwise (fun c d => c.1 < d.1) := by
  have h := List.pairwise_lt_range' (s := a) (n := bs.length)
  rw [← cellsAt_fst, List.pairwise_map] at h
  exact h

theorem read_cellsAt {a b : Nat} {bs : List Byte} (h : a ≤ b) :
    Memory.read (cellsAt a bs) b = bs[b - a]? := by
  induction bs generalizing a with
  | nil => simp [cellsAt, Memory.read]
  | cons c cs ih =>
    rcases Nat.eq_or_lt_of_le h with rfl | hlt
    · simp [cellsAt, Memory.read]
    · have hne : ¬(a = b) := by omega
      have hk : b - a = (b - (a + 1)) + 1 := by omega
      have := ih (a := a + 1) (by omega)
      simp only [Memory.read] at this
      simp [cellsAt, Memory.read, hne, this, hk]

/-! ### One byte of a filtered or joined memory -/

theorem read_filter (m : Memory) (q : Nat → Bool) (b : Nat) :
    Memory.read (m.filter (fun c => q c.1)) b = if q b then m.read b else none := by
  unfold Memory.read
  induction m with
  | nil => simp
  | cons c m ih =>
    rw [List.filter_cons, List.find?_cons]
    by_cases hc : c.1 = b
    · subst hc
      by_cases hq : q c.1
      · simp only [hq, if_true, List.find?_cons, beq_self_eq_true]
      · simp only [hq, if_false, Bool.false_eq_true, ih, beq_self_eq_true]
    · have hb : (c.1 == b) = false := by simpa using hc
      by_cases hq : q c.1
      · rw [if_pos hq, List.find?_cons, hb, ih]
      · rw [if_neg hq, hb, ih]

theorem read_append (m n : Memory) (b : Nat) :
    Memory.read (m ++ n) b = (m.read b).or (n.read b) := by
  simp only [Memory.read, List.find?_append]
  cases List.find? (fun c => c.1 == b) m <;> simp

/-- Every offset outside the stored bytes reads as before. -/
theorem read_writeRange_outside (m : Memory) (a : Nat) (bs : List Byte) (b : Nat)
    (h : b < a ∨ a + bs.length ≤ b) : (m.writeRange a bs).read b = m.read b := by
  have hc : Memory.read (cellsAt a bs) b = none := by
    simp only [Memory.read, Option.map_eq_none_iff, List.find?_eq_none]
    intro c hc
    have := bounds_of_mem_cellsAt hc
    simp; omega
  unfold Memory.writeRange
  rw [read_append, read_append, read_filter m (fun n => decide (n < a)),
    read_filter m (fun n => decide (a + bs.length ≤ n)), hc]
  rcases h with h | h
  · have h2 : ¬(a + bs.length ≤ b) := by omega
    simp [h, h2]
  · have h2 : ¬(b < a) := by omega
    simp [h, h2]

/-- A stored byte reads as stored. -/
theorem read_writeRange_inside (m : Memory) (a : Nat) (bs : List Byte) (b : Nat)
    (h : a ≤ b ∧ b < a + bs.length) : (m.writeRange a bs).read b = bs[b - a]? := by
  have h1 : ¬(b < a) := by omega
  have h2 : ¬(a + bs.length ≤ b) := by omega
  unfold Memory.writeRange
  rw [read_append, read_append, read_filter m (fun n => decide (n < a)),
    read_filter m (fun n => decide (a + bs.length ≤ n)), read_cellsAt h.1]
  simp [h1, h2]

theorem read_eraseRange (m : Memory) (a n b : Nat) :
    (m.eraseRange a n).read b = if a ≤ b ∧ b < a + n then none else m.read b := by
  unfold Memory.eraseRange
  rw [read_filter m (fun k => decide ¬(a ≤ k ∧ k < a + n))]
  by_cases h : a ≤ b ∧ b < a + n <;> simp [h]

/-! ### Ranges -/

theorem window_writeRange_self (m : Memory) (a : Nat) (bs : List Byte) :
    (m.writeRange a bs).window a bs.length = cellsAt a bs := by
  unfold Memory.window Memory.writeRange
  rw [List.filter_append, List.filter_append, List.filter_filter, List.filter_filter]
  have h1 : m.filter (fun c => decide (a ≤ c.1 ∧ c.1 < a + bs.length) && decide (c.1 < a)) = [] := by
    rw [List.filter_eq_nil_iff]; intro c _; grind
  have h2 : m.filter (fun c => decide (a ≤ c.1 ∧ c.1 < a + bs.length) && decide (a + bs.length ≤ c.1))
      = [] := by
    rw [List.filter_eq_nil_iff]; intro c _; grind
  have h3 : (cellsAt a bs).filter (fun c => decide (a ≤ c.1 ∧ c.1 < a + bs.length)) = cellsAt a bs := by
    rw [List.filter_eq_self]; intro c hc; simpa using bounds_of_mem_cellsAt hc
  rw [h1, h2, h3]; simp

/-- The bytes just stored read back. -/
theorem readRange_writeRange_self (m : Memory) (a : Nat) (bs : List Byte) :
    (m.writeRange a bs).readRange a bs.length = some bs := by
  simp [Memory.readRange, window_writeRange_self]

theorem window_writeRange_disjoint (m : Memory) (a : Nat) (bs : List Byte) (b n : Nat)
    (h : b + n ≤ a ∨ a + bs.length ≤ b) : (m.writeRange a bs).window b n = m.window b n := by
  unfold Memory.window Memory.writeRange
  rw [List.filter_append, List.filter_append, List.filter_filter, List.filter_filter]
  have h3 : (cellsAt a bs).filter (fun c => decide (b ≤ c.1 ∧ c.1 < b + n)) = [] := by
    rw [List.filter_eq_nil_iff]; intro c hc
    have := bounds_of_mem_cellsAt hc
    simp; omega
  rw [h3]
  rcases h with h | h
  · have h1 : m.filter (fun c => decide (b ≤ c.1 ∧ c.1 < b + n) && decide (c.1 < a))
        = m.filter (fun c => decide (b ≤ c.1 ∧ c.1 < b + n)) := by
      apply List.filter_congr; intro c _; grind
    have h2 : m.filter (fun c => decide (b ≤ c.1 ∧ c.1 < b + n) && decide (a + bs.length ≤ c.1))
        = [] := by
      rw [List.filter_eq_nil_iff]; intro c _; simp; omega
    rw [h1, h2]; simp
  · have h1 : m.filter (fun c => decide (b ≤ c.1 ∧ c.1 < b + n) && decide (c.1 < a)) = [] := by
      rw [List.filter_eq_nil_iff]; intro c _; simp; omega
    have h2 : m.filter (fun c => decide (b ≤ c.1 ∧ c.1 < b + n) && decide (a + bs.length ≤ c.1))
        = m.filter (fun c => decide (b ≤ c.1 ∧ c.1 < b + n)) := by
      apply List.filter_congr; intro c _; grind
    rw [h1, h2]; simp

/-- A range apart from the stored bytes reads as before. -/
theorem readRange_writeRange_disjoint (m : Memory) (a : Nat) (bs : List Byte) (b n : Nat)
    (h : b + n ≤ a ∨ a + bs.length ≤ b) : (m.writeRange a bs).readRange b n = m.readRange b n := by
  simp only [Memory.readRange, window_writeRange_disjoint m a bs b n h]

/-- Erased bytes hold no value. -/
theorem readRange_eraseRange_self (m : Memory) (a n : Nat) (hn : 0 < n) :
    (m.eraseRange a n).readRange a n = none := by
  have hw : (m.eraseRange a n).window a n = [] := by
    unfold Memory.window Memory.eraseRange
    rw [List.filter_filter, List.filter_eq_nil_iff]; intro c _; grind
  have : List.range' a n ≠ [] := by simp; omega
  simp only [Memory.readRange, hw, List.map_nil]
  exact if_neg (fun h => this h.symm)

/-- A range apart from the erased bytes reads as before. -/
theorem readRange_eraseRange_disjoint (m : Memory) (a n b k : Nat) (h : b + k ≤ a ∨ a + n ≤ b) :
    (m.eraseRange a n).readRange b k = m.readRange b k := by
  have hw : (m.eraseRange a n).window b k = m.window b k := by
    unfold Memory.window Memory.eraseRange
    rw [List.filter_filter]
    apply List.filter_congr; intro c _; grind
  simp only [Memory.readRange, hw]

theorem readRange_length {m : Memory} {a n : Nat} {bs : List Byte} (h : m.readRange a n = some bs) :
    bs.length = n := by
  unfold Memory.readRange at h
  split at h
  case isTrue hw =>
    have := congrArg List.length hw
    obtain rfl := Option.some.inj h
    simpa using this
  case isFalse => cases h

/-- A range reads byte by byte. -/
theorem read_of_readRange {m : Memory} {a n : Nat} {bs : List Byte}
    (h : m.readRange a n = some bs) (k : Nat) (hk : k < n) : m.read (a + k) = bs[k]? := by
  have hlen := readRange_length h
  unfold Memory.readRange at h
  split at h
  case isFalse => cases h
  case isTrue hw =>
    have hb := Option.some.inj h
    have hwin : m.window a n = cellsAt a bs := by
      rw [← hb]
      have key : ∀ (l : Memory) (a' : Nat), l.map Prod.fst = List.range' a' l.length →
          l = cellsAt a' (l.map Prod.snd) := by
        intro l
        induction l with
        | nil => intro a' _; rfl
        | cons c l ih =>
          intro a' hl
          simp only [List.map_cons, List.length_cons, List.range'_succ, List.cons.injEq] at hl
          rw [List.map_cons, cellsAt, ← ih _ hl.2, ← hl.1]
      apply key
      have : (m.window a n).length = n := by simpa using congrArg List.length hw
      rw [this]; exact hw
    have hf := read_filter m (fun k => decide (a ≤ k ∧ k < a + n)) (a + k)
    have hin : (decide (a ≤ a + k ∧ a + k < a + n)) = true := by simp; omega
    rw [if_pos hin] at hf
    rw [← hf]
    have : (m.filter fun c => decide (a ≤ c.1 ∧ c.1 < a + n)) = cellsAt a bs := hwin
    rw [this, read_cellsAt (by omega)]
    congr 1; omega

/-! ### The canonical form -/

theorem reset_mem_wf : State.reset.mem.wf := by
  simp [State.reset, Memory.wf]

/-- Storing bytes inside the windows keeps the canonical form. -/
theorem writeRange_wf {m : Memory} (hm : m.wf) {a : Nat} {bs : List Byte}
    (h : bs ≠ [] → 0x1000 ≤ a ∧ a + bs.length ≤ 0x4000) : (m.writeRange a bs).wf := by
  refine ⟨?_, ?_⟩
  · unfold Memory.writeRange
    rw [List.pairwise_append, List.pairwise_append]
    refine ⟨⟨hm.1.filter _, cellsAt_rising a bs, ?_⟩, hm.1.filter _, ?_⟩
    · intro c hc d hd
      have := bounds_of_mem_cellsAt hd
      simp at hc
      omega
    · intro c hc d hd
      simp only [List.mem_filter, decide_eq_true_eq] at hd
      rcases List.mem_append.mp hc with hc | hc
      · simp at hc; omega
      · have := bounds_of_mem_cellsAt hc; omega
  · intro c hc
    unfold Memory.writeRange at hc
    rcases List.mem_append.mp hc with hc | hc
    · rcases List.mem_append.mp hc with hc | hc
      · exact hm.2 c (List.mem_filter.mp hc).1
      · have hb := bounds_of_mem_cellsAt hc
        have hne : bs ≠ [] := by
          rintro rfl
          simp at hb; omega
        have := h hne
        exact ⟨by omega, by omega⟩
    · exact hm.2 c (List.mem_filter.mp hc).1

/-- Erasing bytes keeps the canonical form. -/
theorem eraseRange_wf {m : Memory} (hm : m.wf) (a n : Nat) : (m.eraseRange a n).wf :=
  ⟨hm.1.filter _, fun c hc => hm.2 c (List.mem_filter.mp hc).1⟩

end Sys2Proof.Machine
end

