-- ==== Sys2Proof/Laws/Ops.lean ====
section
/-! SUPPORT. What the named operations over registers, slots and byte buffers do. -/

namespace Sys2Proof.Machine

/-! ### Scalar registers -/

theorem readX_writeX_self (s : State) (i : Reg) (v : Int) (h : -2147483648 ≤ v ∧ v ≤ 2147483647) :
    (s.writeX i v).readX i = v := by
  simp only [State.readX, State.writeX_x, Fin.getElem_fin, Vector.getElem_set_self]
  rw [BitVec.toInt_ofInt, Int.bmod_eq_of_le] <;> omega

theorem getElem_writeX_other (s : State) (i j : Reg) (v : Int) (h : j ≠ i) :
    (s.writeX i v).x[j] = s.x[j] := by
  have : i.val ≠ j.val := fun e => h (Fin.ext e.symm)
  simp [State.writeX_x, Vector.getElem_set_ne, this]

/-! ### Coefficients as bytes -/

theorem length_coeffBytes (v : Int) : (coeffBytes v).length = 2 := rfl

theorem length_flatMap_coeffBytes (p : List Int) : (p.flatMap coeffBytes).length = 2 * p.length := by
  induction p with
  | nil => rfl
  | cons c p ih => simp only [List.flatMap_cons, List.length_append, ih, length_coeffBytes,
      List.length_cons]; omega

theorem hi_append_lo (w : Coeff) : (w.extractLsb' 8 8 ++ w.extractLsb' 0 8 : BitVec 16) = w := by
  apply BitVec.eq_of_getLsbD_eq
  intro i hi
  simp only [BitVec.getLsbD_append, BitVec.getLsbD_extractLsb']
  by_cases h : i < 8
  · simp [h]
  · have : 8 + (i - 8) = i := by omega
    simp [h, this]; omega

/-- Coefficients that fit 16 bits survive being stored as bytes. -/
theorem coeffsOfBytes_coeffBytes (p : List Int) (h : ∀ c ∈ p, Fits16 c) :
    coeffsOfBytes (p.flatMap coeffBytes) = p := by
  induction p with
  | nil => rfl
  | cons c p ih =>
    have hc := h c (List.mem_cons_self ..)
    have ht := ih (fun d hd => h d (List.mem_cons_of_mem _ hd))
    have hv : (BitVec.ofInt 16 c).toInt = c := by
      rw [BitVec.toInt_ofInt, Int.bmod_eq_of_le] <;> omega
    simp only [List.flatMap_cons, coeffBytes, List.cons_append, List.nil_append, coeffsOfBytes,
      hi_append_lo, hv]
    exact congrArg (c :: ·) ht

theorem length_coeffsOfBytes : ∀ (n : Nat) (bs : List Byte), bs.length = 2 * n →
    (coeffsOfBytes bs).length = n
  | 0, [], _ => rfl
  | 0, _ :: _, h => by simp at h
  | n + 1, [], h => by simp at h
  | n + 1, [_], h => by simp at h; omega
  | n + 1, _ :: _ :: bs, h => by
    simp only [coeffsOfBytes, List.length_cons]
    rw [length_coeffsOfBytes n bs (by simp at h; omega)]

theorem fits16_coeffsOfBytes : ∀ (n : Nat) (bs : List Byte), bs.length = 2 * n →
    ∀ c ∈ coeffsOfBytes bs, Fits16 c
  | 0, [], _ => by simp [coeffsOfBytes]
  | 0, _ :: _, h => by simp at h
  | n + 1, [], h => by simp at h
  | n + 1, [_], h => by simp at h; omega
  | n + 1, lo :: hi :: bs, h => by
    intro c hc
    simp only [coeffsOfBytes, List.mem_cons] at hc
    rcases hc with rfl | hc
    · have := BitVec.toInt_lt (x := hi ++ lo)
      have := BitVec.le_toInt (hi ++ lo)
      constructor <;> simp at * <;> omega
    · exact fits16_coeffsOfBytes n bs (by simp at h; omega) c hc

/-! ### Slots -/

/-- A slot that holds values holds 256 coefficients, each of 16 bits (10_state.md R22). -/
theorem readSlot_some {s : State} {r : Nat} {p : List Int} (h : s.readSlot r = some p) :
    p.length = 256 ∧ ∀ c ∈ p, Fits16 c := by
  simp only [State.readSlot, Option.map_eq_some_iff] at h
  obtain ⟨bs, hbs, rfl⟩ := h
  have hl := readRange_length hbs
  exact ⟨length_coeffsOfBytes 256 bs hl, fits16_coeffsOfBytes 256 bs hl⟩

theorem readSlot_writeSlot_self (s : State) (r : Nat) (p : List Int) (hl : p.length = 256)
    (hf : ∀ c ∈ p, Fits16 c) : (s.writeSlot r p).readSlot r = some p := by
  have hb : (p.flatMap coeffBytes).length = slotBytes := by
    rw [length_flatMap_coeffBytes, hl]; rfl
  simp only [State.readSlot, State.writeSlot_mem]
  rw [← hb, readRange_writeRange_self, Option.map_some, coeffsOfBytes_coeffBytes p hf]

theorem readSlot_writeSlot_other (s : State) (r r' : Nat) (p : List Int) (hl : p.length = 256)
    (h : r' ≠ r) : (s.writeSlot r p).readSlot r' = s.readSlot r' := by
  simp only [State.readSlot, State.writeSlot_mem]
  rw [readRange_writeRange_disjoint]
  rw [length_flatMap_coeffBytes, hl]; unfold slotBase slotBytes; omega

theorem read_writeSlot_outside (s : State) (r : Nat) (p : List Int) (hl : p.length = 256) (a : Nat)
    (h : a < slotBase r ∨ slotBase r + slotBytes ≤ a) : (s.writeSlot r p).mem.read a = s.mem.read a := by
  rw [State.writeSlot_mem, read_writeRange_outside]
  rw [length_flatMap_coeffBytes, hl]; exact h

theorem writeSlot_wf {s : State} (hm : s.mem.wf) (r : Slot) (p : List Int) (hl : p.length = 256) :
    (s.writeSlot r.val p).mem.wf := by
  rw [State.writeSlot_mem]
  apply writeRange_wf hm
  intro _
  have := r.isLt
  rw [length_flatMap_coeffBytes, hl]; unfold slotBase; omega

theorem readSlot_eraseSlot_self (s : State) (r : Nat) : (s.eraseSlot r).readSlot r = none := by
  simp only [State.readSlot, State.eraseSlot_mem]
  rw [readRange_eraseRange_self _ _ _ (by decide)]; rfl

theorem readSlot_eraseSlot_other (s : State) (r r' : Nat) (h : r' ≠ r) :
    (s.eraseSlot r).readSlot r' = s.readSlot r' := by
  simp only [State.readSlot, State.eraseSlot_mem]
  rw [readRange_eraseRange_disjoint]
  unfold slotBase slotBytes; omega

theorem read_eraseSlot_outside (s : State) (r a : Nat)
    (h : a < slotBase r ∨ slotBase r + slotBytes ≤ a) : (s.eraseSlot r).mem.read a = s.mem.read a := by
  rw [State.eraseSlot_mem, read_eraseRange, if_neg (by omega)]

theorem eraseSlot_wf {s : State} (hm : s.mem.wf) (r : Nat) : (s.eraseSlot r).mem.wf :=
  eraseRange_wf hm _ _

/-! ### Byte buffers -/

theorem bufBase_bounds (b : BufSel) : 0x1000 ≤ bufBase b ∧ bufBase b + 2048 ≤ 0x2000 := by
  cases b <;> decide

theorem readBuf_length {s : State} {b : BufSel} {o n : Nat} {bs : List Byte}
    (h : s.readBuf b o n = some bs) : bs.length = n := readRange_length h

theorem readBuf_writeBuf_self (s : State) (b : BufSel) (o : Nat) (bs : List Byte) :
    (s.writeBuf b o bs).readBuf b o bs.length = some bs := by
  simp only [State.readBuf, State.writeBuf_mem, readRange_writeRange_self]

theorem readBuf_writeBuf_disjoint (s : State) (b : BufSel) (o : Nat) (bs : List Byte) (o' n : Nat)
    (h : o' + n ≤ o ∨ o + bs.length ≤ o') : (s.writeBuf b o bs).readBuf b o' n = s.readBuf b o' n := by
  simp only [State.readBuf, State.writeBuf_mem]
  rw [readRange_writeRange_disjoint]; omega

theorem readBuf_writeBuf_other (s : State) (b b' : BufSel) (o : Nat) (bs : List Byte) (o' n : Nat)
    (hb : b' ≠ b) (h : o + bs.length ≤ 2048) (h' : o' + n ≤ 2048) :
    (s.writeBuf b o bs).readBuf b' o' n = s.readBuf b' o' n := by
  simp only [State.readBuf, State.writeBuf_mem]
  rw [readRange_writeRange_disjoint]
  cases b <;> cases b' <;> simp [bufBase] at * <;> omega

theorem readSlot_writeBuf (s : State) (b : BufSel) (o : Nat) (bs : List Byte) (r : Nat)
    (h : o + bs.length ≤ 2048) : (s.writeBuf b o bs).readSlot r = s.readSlot r := by
  have := bufBase_bounds b
  simp only [State.readSlot, State.writeBuf_mem]
  rw [readRange_writeRange_disjoint]
  unfold slotBase slotBytes; omega

theorem readBuf_writeSlot (s : State) (r : Nat) (p : List Int) (b : BufSel) (o n : Nat)
    (h : o + n ≤ 2048) : (s.writeSlot r p).readBuf b o n = s.readBuf b o n := by
  have := bufBase_bounds b
  simp only [State.readBuf, State.writeSlot_mem]
  rw [readRange_writeRange_disjoint]
  unfold slotBase; omega

theorem writeBuf_wf {s : State} (hm : s.mem.wf) (b : BufSel) (o : Nat) (bs : List Byte)
    (h : o + bs.length ≤ 2048) : (s.writeBuf b o bs).mem.wf := by
  have := bufBase_bounds b
  rw [State.writeBuf_mem]
  exact writeRange_wf hm (fun _ => by omega)

/-- A record is the bytes of its buffer from `blk * S` on (20_memory.md R60). -/
theorem writeRecord_eq (s : State) (b : BufSel) (blk : Blk) (S : Nat) (bs : List Byte) :
    s.writeRecord b blk S bs = s.writeBuf b (blk.val * S) bs := rfl

theorem record_inside {S : Nat} {blk : Blk} (h : RecordInside S blk) : blk.val * S + S ≤ 2048 := by
  have : (blk.val + 1) * S = blk.val * S + S := by ring
  omega

end Sys2Proof.Machine
end

