-- ==== Sys2Proof/Laws/PerInstr.lean ====
section
/-! SUPPORT. Facts about every command as syntax, one lemma per constructor. -/

namespace Sys2Proof.Laws.OpcodeByte

/-- The opcode that 30_encoding.md R83 gives a command. -/
def opcode : Instr → Nat
  | .montred .. => 0x01
  | .barrett .. => 0x02
  | .csubq .. => 0x03
  | .montmul .. => 0x04
  | .basemul .. => 0x05
  | .pbarrett .. => 0x10
  | .pcsubq .. => 0x11
  | .padd .. => 0x12
  | .psub .. => 0x13
  | .ntt .. => 0x20
  | .intt .. => 0x21
  | .pwacc .. => 0x28
  | .cbdEta2 .. | .cbdEta3 .. => 0x30
  | .getnoiseEta2 .. | .getnoiseEta3 .. => 0x31
  | .gena .. => 0x32
  | .compressD4 .. | .compressD5 .. | .compressD10 .. | .compressD11 .. => 0x40
  | .decompressD4 .. | .decompressD5 .. | .decompressD10 .. | .decompressD11 .. => 0x41
  | .frommsg .. => 0x48
  | .tomsg .. => 0x49
  | .tobytes .. => 0x4A
  | .frombytes .. => 0x4B
  | .ctcmp .. => 0x50

/-- Whatever its operands, bits 31:24 of a command's word are its opcode: no operand reaches them. -/
def Statement (i : Instr) : Prop := opcodeOf (encode i) = opcode i

/-- The top byte of an encoded word is the opcode if the immediate has 12 bits. -/
theorem opcodeOf_encodeFields {op imm : Nat} (rd ra rb : Fin 16) (ho : op < 256) (hi : imm < 4096) :
    opcodeOf (encodeFields op rd ra rb imm) = op := by
  simp only [opcodeOf, encodeFields, BitVec.toNat_ofNat]
  omega

/-- The immediate of a record command has 12 bits. -/
theorem recordImm_lt (bs : BufSel) (blk : Blk) : recordImm bs blk < 4096 := by
  cases bs <;> simp only [recordImm] <;> omega

theorem montred (rd ra : Fin 16) : Statement (.montred rd ra) :=
  opcodeOf_encodeFields _ _ _ (by decide) (by decide)

theorem barrett (rd ra : Fin 16) : Statement (.barrett rd ra) :=
  opcodeOf_encodeFields _ _ _ (by decide) (by decide)

theorem csubq (rd ra : Fin 16) : Statement (.csubq rd ra) :=
  opcodeOf_encodeFields _ _ _ (by decide) (by decide)

theorem montmul (rd ra rb : Fin 16) : Statement (.montmul rd ra rb) :=
  opcodeOf_encodeFields _ _ _ (by decide) (by decide)

theorem pbarrett (rd ra : Fin 16) : Statement (.pbarrett rd ra) :=
  opcodeOf_encodeFields _ _ _ (by decide) (by decide)

theorem pcsubq (rd ra : Fin 16) : Statement (.pcsubq rd ra) :=
  opcodeOf_encodeFields _ _ _ (by decide) (by decide)

theorem padd (rd ra rb : Fin 16) : Statement (.padd rd ra rb) :=
  opcodeOf_encodeFields _ _ _ (by decide) (by decide)

theorem psub (rd ra rb : Fin 16) : Statement (.psub rd ra rb) :=
  opcodeOf_encodeFields _ _ _ (by decide) (by decide)

theorem ntt (rd : Fin 16) : Statement (.ntt rd) :=
  opcodeOf_encodeFields _ _ _ (by decide) (by decide)

theorem intt (rd : Fin 16) : Statement (.intt rd) :=
  opcodeOf_encodeFields _ _ _ (by decide) (by decide)

theorem basemul (rd ra rb : Reg) (neg : Bool) (zi : Fin 128) : Statement (.basemul rd ra rb neg zi) :=
  opcodeOf_encodeFields _ _ _ (by decide) (by cases neg <;> simp <;> omega)

theorem pwacc (rd ra rb : Slot) (K : Fin 8) : Statement (.pwacc rd ra rb K) :=
  opcodeOf_encodeFields _ _ _ (by decide) (by omega)

theorem getnoiseEta2 (rd : Slot) (nonce : Byte) : Statement (.getnoiseEta2 rd nonce) :=
  opcodeOf_encodeFields _ _ _ (by decide) (by omega)

theorem getnoiseEta3 (rd : Slot) (nonce : Byte) : Statement (.getnoiseEta3 rd nonce) :=
  opcodeOf_encodeFields _ _ _ (by decide) (by omega)

theorem gena (rd row col : Fin 16) (t : Bool) : Statement (.gena rd row col t) :=
  opcodeOf_encodeFields _ _ _ (by decide) (by cases t <;> decide)

theorem ctcmp (len : Fin 4096) : Statement (.ctcmp len) :=
  opcodeOf_encodeFields _ _ _ (by decide) len.isLt

theorem cbdEta2 (r : Slot) (bs : BufSel) (blk : Blk) : Statement (.cbdEta2 r bs blk) :=
  opcodeOf_encodeFields _ _ _ (by decide) (recordImm_lt bs blk)

theorem cbdEta3 (r : Slot) (bs : BufSel) (blk : Blk) : Statement (.cbdEta3 r bs blk) :=
  opcodeOf_encodeFields _ _ _ (by decide) (recordImm_lt bs blk)

theorem compressD4 (r : Slot) (bs : BufSel) (blk : Blk) : Statement (.compressD4 r bs blk) :=
  opcodeOf_encodeFields _ _ _ (by decide) (recordImm_lt bs blk)

theorem compressD5 (r : Slot) (bs : BufSel) (blk : Blk) : Statement (.compressD5 r bs blk) :=
  opcodeOf_encodeFields _ _ _ (by decide) (recordImm_lt bs blk)

theorem compressD10 (r : Slot) (bs : BufSel) (blk : Blk) : Statement (.compressD10 r bs blk) :=
  opcodeOf_encodeFields _ _ _ (by decide) (recordImm_lt bs blk)

theorem compressD11 (r : Slot) (bs : BufSel) (blk : Blk) : Statement (.compressD11 r bs blk) :=
  opcodeOf_encodeFields _ _ _ (by decide) (recordImm_lt bs blk)

theorem decompressD4 (r : Slot) (bs : BufSel) (blk : Blk) : Statement (.decompressD4 r bs blk) :=
  opcodeOf_encodeFields _ _ _ (by decide) (recordImm_lt bs blk)

theorem decompressD5 (r : Slot) (bs : BufSel) (blk : Blk) : Statement (.decompressD5 r bs blk) :=
  opcodeOf_encodeFields _ _ _ (by decide) (recordImm_lt bs blk)

theorem decompressD10 (r : Slot) (bs : BufSel) (blk : Blk) : Statement (.decompressD10 r bs blk) :=
  opcodeOf_encodeFields _ _ _ (by decide) (recordImm_lt bs blk)

theorem decompressD11 (r : Slot) (bs : BufSel) (blk : Blk) : Statement (.decompressD11 r bs blk) :=
  opcodeOf_encodeFields _ _ _ (by decide) (recordImm_lt bs blk)

theorem frommsg (r : Slot) (bs : BufSel) (blk : Blk) : Statement (.frommsg r bs blk) :=
  opcodeOf_encodeFields _ _ _ (by decide) (recordImm_lt bs blk)

theorem tomsg (r : Slot) (bs : BufSel) (blk : Blk) : Statement (.tomsg r bs blk) :=
  opcodeOf_encodeFields _ _ _ (by decide) (recordImm_lt bs blk)

theorem tobytes (r : Slot) (bs : BufSel) (blk : Blk) : Statement (.tobytes r bs blk) :=
  opcodeOf_encodeFields _ _ _ (by decide) (recordImm_lt bs blk)

theorem frombytes (r : Slot) (bs : BufSel) (blk : Blk) : Statement (.frombytes r bs blk) :=
  opcodeOf_encodeFields _ _ _ (by decide) (recordImm_lt bs blk)

end Sys2Proof.Laws.OpcodeByte
end

