-- ==== Sys2Proof/Laws/Results.lean ====
section
/-! SUPPORT. What the shared stops and the shared shapes of the commands can answer: each lemma says once
everything its operation does when it answers a next state. -/

namespace Sys2Proof.Machine

/-! ### The stops -/

theorem requiring_next {pre : Prop} [Decidable pre] {k : Result} {t : State} :
    requiring pre k = .next t ↔ pre ∧ k = .next t := by
  unfold requiring; split <;> simp [*]

theorem requiring_pos {pre : Prop} [Decidable pre] (k : Result) (h : pre) : requiring pre k = k := if_pos h

/-- Outside its precondition a command is refused (60_exceptions.md R290). -/
theorem requiring_neg {pre : Prop} [Decidable pre] (k : Result) (h : ¬pre) :
    requiring pre k = .refused .contractViolation := if_neg h

theorem written_next {α : Type} {v : Option α} {k : α → Result} {t : State} :
    written v k = .next t ↔ ∃ a, v = some a ∧ k a = .next t := by
  cases v <;> simp [written]

@[simp] theorem written_some {α : Type} (a : α) (k : α → Result) : written (some a) k = k a := rfl

/-- A read of storage that holds no value is a fault (10_state.md R37). -/
@[simp] theorem written_none {α : Type} (k : α → Result) : written none k = .fault .unwrittenRead := rfl

theorem unlessError_next {legal : Prop} [Decidable legal] {e : ErrCode} {s t : State} {k : Result} :
    unlessError legal e s k = .next t ↔ (legal ∧ k = .next t) ∨ (¬legal ∧ s.raise e 0 = t) := by
  unfold unlessError; split <;> simp [*]

theorem unlessError_pos {legal : Prop} [Decidable legal] (e : ErrCode) (s : State) (k : Result)
    (h : legal) : unlessError legal e s k = k := if_pos h

theorem unlessError_neg {legal : Prop} [Decidable legal] (e : ErrCode) (s : State) (k : Result)
    (h : ¬legal) : unlessError legal e s k = .next (s.raise e 0) := if_neg h

/-! ### The shapes -/

theorem withSlot_next {s t : State} {r : Slot} {k : List Int → Result} :
    withSlot s r k = .next t ↔ ∃ p, s.readSlot r.val = some p ∧ k p = .next t := written_next

theorem withRecord_next {s t : State} {bs : BufSel} {blk : Blk} {S : Nat} {k : List Byte → Result} :
    withRecord s bs blk S k = .next t ↔
      (RecordInside S blk ∧ ∃ b, s.readBuf bs (blk.val * S) S = some b ∧ k b = .next t) ∨
        (¬RecordInside S blk ∧ s.raise .bufRange 0 = t) := by
  unfold withRecord; rw [unlessError_next, written_next]

theorem execPointwise_next {f : Int → Int → Int} {rd ra rb : Slot} {s t : State} :
    execPointwise f rd ra rb s = .next t ↔
      ∃ a b, s.readSlot ra.val = some a ∧ s.readSlot rb.val = some b ∧
        (∀ c ∈ List.zipWith f a b, Fits16 c) ∧ s.writeSlot rd.val (List.zipWith f a b) = t := by
  unfold execPointwise
  simp only [withSlot_next, requiring_next, Host.Outcome.next.injEq, exists_and_left]

theorem execPack_next {S : Nat} {pre : Int → Prop} [DecidablePred pre] {f : List Int → List Byte}
    {ra : Slot} {bs : BufSel} {blk : Blk} {s t : State} :
    execPack S pre f ra bs blk s = .next t ↔
      (RecordInside S blk ∧ ∃ p, s.readSlot ra.val = some p ∧ (∀ c ∈ p, pre c) ∧
        s.writeRecord bs blk S (f p) = t) ∨
        (¬RecordInside S blk ∧ s.raise .bufRange 0 = t) := by
  unfold execPack
  simp only [unlessError_next, withSlot_next, requiring_next, Host.Outcome.next.injEq]

theorem execUnpack_next {S : Nat} {f : List Byte → List Int} {rd : Slot} {bs : BufSel} {blk : Blk}
    {s t : State} :
    execUnpack S f rd bs blk s = .next t ↔
      (RecordInside S blk ∧ ∃ b, s.readBuf bs (blk.val * S) S = some b ∧
        s.writeSlot rd.val (f b) = t) ∨
        (¬RecordInside S blk ∧ s.raise .bufRange 0 = t) := by
  unfold execUnpack
  simp only [withRecord_next, Host.Outcome.next.injEq]

theorem execCbd_next {eta : Nat} {rd : Slot} {bs : BufSel} {blk : Blk} {s t : State} :
    execCbd eta rd bs blk s = .next t ↔
      (RecordInside (64 * eta) blk ∧ ∃ b, s.readBuf bs (blk.val * (64 * eta)) (64 * eta) = some b ∧
        s.writeSlot rd.val (cbd eta b) = t) ∨
        (¬RecordInside (64 * eta) blk ∧ s.raise .bufRange 0 = t) := by
  unfold execCbd
  simp only [withRecord_next, Host.Outcome.next.injEq]

/-- GETNOISE always answers a next state; which one, the answer of the PRF service says. -/
theorem execGetnoise_eq (eta : Nat) (rd : Slot) (nonce : Byte) (s : State) :
    execGetnoise eta rd nonce s = .next
      (match (nextAnswer s.source.answers).1 with
        | .ok => (s.setAnswers (nextAnswer s.source.answers).2).writeSlot rd.val (s.noise eta nonce)
        | .fail code => (s.setAnswers (nextAnswer s.source.answers).2).raiseLosing rd .xofFail code
        | .silent => (s.setAnswers (nextAnswer s.source.answers).2).hang) := by
  unfold execGetnoise
  cases h : (nextAnswer s.source.answers).1 <;> simp

/-- The loop of GENA stops as soon as 256 candidates are accepted, whatever blocks may still be requested
(43_sampler.md R205). -/
theorem rejLoop_full (block : Nat → List Byte) (left nblk : Nat) (answers : List SourceAnswer) {r : List Int}
    (h : 256 ≤ r.length) : rejLoop block left nblk answers r = (.done r, answers) := by
  cases left <;> rw [rejLoop, if_neg (by omega)]

theorem execPwacc_next {rd ra rb : Slot} {K : Fin 8} {s t : State} :
    execPwacc rd ra rb K s = .next t ↔
      ((1 ≤ K.val ∧ K.val ≤ 4 ∧ ra.val + K.val ≤ 16 ∧ rb.val + K.val ≤ 16) ∧
        ∃ as bs, s.readVector ra K.val = some as ∧ s.readVector rb K.val = some bs ∧
          (∀ ab ∈ as.zip bs, PolyMulLegal ab.1 ab.2) ∧
          s.writeSlot rd.val (pwaccSum (as.zip bs)) = t) ∨
      (¬(1 ≤ K.val ∧ K.val ≤ 4 ∧ ra.val + K.val ≤ 16 ∧ rb.val + K.val ≤ 16) ∧
        s.raise .illegalField 0 = t) := by
  unfold execPwacc
  simp only [unlessError_next, written_next, requiring_next, Host.Outcome.next.injEq, exists_and_left]

theorem execBasemul_next {rd ra rb : Reg} {neg : Bool} {zi : Fin 128} {s t : State} :
    execBasemul rd ra rb neg zi s = .next t ↔
      ((rd.val ≤ 14 ∧ ra.val ≤ 14 ∧ rb.val ≤ 14) ∧ (s.basemulOperands ra rb neg zi).Legal ∧
        (s.writeX rd (s.basemulOperands ra rb neg zi).product.1).writeX (pairUpper rd)
          (s.basemulOperands ra rb neg zi).product.2 = t) ∨
      (¬(rd.val ≤ 14 ∧ ra.val ≤ 14 ∧ rb.val ≤ 14) ∧ s.raise .illegalField 0 = t) := by
  unfold execBasemul
  simp only [unlessError_next, requiring_next, Host.Outcome.next.injEq]

theorem execCtcmp_next {len : Fin 4096} {s t : State} :
    execCtcmp len s = .next t ↔
      (len.val ≤ 2048 ∧ ∃ a b, s.readBuf .A 0 len.val = some a ∧ s.readBuf .B 0 len.val = some b ∧
        s.writeCmpne (cmpneOf a b) = t) ∨
      (¬len.val ≤ 2048 ∧ s.raise .bufRange 0 = t) := by
  unfold execCtcmp
  simp only [unlessError_next, written_next, Host.Outcome.next.injEq, exists_and_left]

/-! ### Issue and step -/

/-- What a CMD write does: nothing while ERR is set, a decode error, or the command. -/
theorem issue_eq (w : Word) (s : State) :
    issue w s = if s.err = .none then
        (match decode w with
          | .ok i => exec i s
          | .error e => .next (s.raise (errCodeOf e) 0))
      else .next s := rfl

theorem step_idle {s : State} (h : s.host = []) : step s = .next s := by
  unfold step stepHost; rw [h]

theorem step_act {s : State} {a : HostAction} {rest : List HostAction} (h : s.host = a :: rest) :
    step s = hostAct a { s with host := rest } := by
  unfold step stepHost; rw [h]

end Sys2Proof.Machine
end

