-- ==== Sys2Proof/Laws/Rejection.lean ====
section
/-! SUPPORT. The rejection sampler beside the unbroken stream: what a block adds, and where the loop of GENA stops
(43_sampler.md R203, R205). -/

namespace Sys2Proof.Machine

/-- The candidates below q, in order. -/
abbrev acceptedOf (c : List Nat) : List Int :=
  c.filterMap (fun d : Nat => if d < 3329 then some (Int.ofNat d) else none)

/-- Scanning candidates appends the accepted ones until 256 are held (43_sampler.md R203). -/
theorem foldl_accept : ∀ (c : List Nat) (r : List Int), r.length ≤ 256 →
    c.foldl accept r = (r ++ acceptedOf c).take 256
  | [], r, h => by simp [List.take_of_length_le h]
  | d :: c, r, h => by
    rw [List.foldl_cons]
    by_cases hd : d < 3329
    · by_cases hr : r.length < 256
      · have e : accept r d = r ++ [Int.ofNat d] := if_pos ⟨hr, hd⟩
        rw [e, foldl_accept c _ (by simp; omega)]
        simp [acceptedOf, hd]
      · have e : accept r d = r := if_neg fun h' => hr h'.1
        have hl : r.length = 256 := by omega
        rw [e, foldl_accept c r h, List.take_append_of_le_length (by omega),
          List.take_append_of_le_length (by omega)]
    · have e : accept r d = r := if_neg fun h' => hd h'.2
      rw [e, foldl_accept c r h]
      simp [acceptedOf, hd]

theorem acceptedIn_succ (block : Nat → List Byte) (n : Nat) :
    acceptedIn block (n + 1) = acceptedIn block n ++ acceptedOf (candidates (block n)) := by
  simp [acceptedIn, acceptedOf, List.range_succ, List.filterMap_append]

/-- Block by block, the coefficients held are the first 256 accepted of the stream so far. -/
theorem rejParse_acceptedIn (block : Nat → List Byte) (n : Nat) :
    rejParse (block n) ((acceptedIn block n).take 256) = (acceptedIn block (n + 1)).take 256 := by
  rw [rejParse, foldl_accept _ _ (by simp), acceptedIn_succ]
  simp [List.take_append, List.take_take, List.length_take]
  omega

theorem length_acceptedIn_mono (block : Nat → List Byte) {m n : Nat} (h : m ≤ n) :
    (acceptedIn block m).length ≤ (acceptedIn block n).length := by
  induction h with
  | refl => exact le_refl _
  | step _ ih => rw [acceptedIn_succ, List.length_append]; omega

/-- While too few candidates are accepted and the answers are ok, the loop requests the next block. -/
theorem rejLoop_ok (block : Nat → List Byte) (left nblk : Nat) (rest : List SourceAnswer)
    (h : (acceptedIn block nblk).length < 256) :
    rejLoop block (left + 1) nblk (.ok :: rest) ((acceptedIn block nblk).take 256) =
      rejLoop block left (nblk + 1) rest ((acceptedIn block (nblk + 1)).take 256) := by
  rw [rejLoop, if_pos (by rw [List.length_take]; omega), ← rejParse_acceptedIn]
  rfl

end Sys2Proof.Machine
end

