-- ==== Sys2Proof/Tests/Slice0.lean ====
section
/-! SUPPORT. Tests. Every expected value is the spec's own: the worked encodings of 30_encoding.md R92, the
decode outcomes of 95_test_vectors.md V80, the command words of its programs, and its vectors V1 to V80. At the
end, for every obligation with hypotheses, a witness that something meets them. -/

namespace Sys2Proof.Tests

set_option maxRecDepth 100000
set_option Elab.async false

open Sys2Proof Sys2Proof.Machine

/-! ### Helpers -/

/-- The state a result goes to. -/
def nextOf : Result → Option State
  | .next t => some t
  | .fault _ | .refused _ => none

/-- The refusal a result is. -/
def refusalOf : Result → Option Refusal
  | .refused r => some r
  | .next _ | .fault _ => none

/-- The fault a result is. -/
def faultOf : Result → Option Fault
  | .fault f => some f
  | .next _ | .refused _ => none

/-- After reset, the given slots written. -/
def slots (ps : List (Nat × List Int)) : State := ps.foldl (fun s c => s.writeSlot c.1 c.2) State.reset

/-- After reset, bytes written from the start of a buffer. -/
def buffer (b : BufSel) (bytes : List Nat) (zeros : Nat) : State :=
  State.reset.writeBuf b 0 (bytes.map (BitVec.ofNat 8) ++ List.replicate zeros 0)

/-- After reset, x0 and on written. -/
def regs (vs : List Int) : State := vs.zipIdx.foldl (fun s c => s.writeX (Fin.ofNat 16 c.2) c.1) State.reset

/-- Every coefficient the same. -/
def const (v : Int) : List Int := List.replicate 256 v

/-- A polynomial given by its coefficients. -/
def poly (f : Nat → Int) : List Int := (List.range 256).map f

/-- After reset, one host action to come. -/
def pending (a : HostAction) : State := { State.reset with host := [a] }

/-- The checksums S1 and S2 of 95_test_vectors.md. -/
def sums (p : List Int) : Int × Int := (p.sum, (p.zipIdx.map (fun c => (c.2 + 1 : Int) * c.1)).sum)

/-- After reset, the byte source given. -/
def sourced (src : ByteSource) : State := { State.reset with source := src }

/-- The numbers of bytes. -/
def nums (b : Option (List Byte)) : Option (List Nat) := b.map (fun l => l.map BitVec.toNat)

/-! ### Ill-formed terms are refused: one for each check of WellFormed.lean -/

theorem test_basemul_rd15 : (Instr.basemul 15 0 0 false 0).wellFormed = false := by decide
theorem test_basemul_ra15 : (Instr.basemul 0 15 0 false 0).wellFormed = false := by decide
theorem test_basemul_rb15 : (Instr.basemul 0 0 15 false 0).wellFormed = false := by decide
theorem test_pwacc_k0 : (Instr.pwacc 0 0 0 0).wellFormed = false := by decide
theorem test_pwacc_k5 : (Instr.pwacc 0 0 0 5).wellFormed = false := by decide
theorem test_pwacc_ra : (Instr.pwacc 0 13 0 4).wellFormed = false := by decide
theorem test_pwacc_rb : (Instr.pwacc 0 0 14 3).wellFormed = false := by decide
theorem test_cbd2_range : (Instr.cbdEta2 0 .A 16).wellFormed = false := by decide
theorem test_cbd3_range : (Instr.cbdEta3 0 .A 10).wellFormed = false := by decide
theorem test_compress_ranges : ∀ i ∈ [Instr.compressD4 0 .A 16, .compressD5 0 .A 12, .compressD10 0 .A 6,
    .compressD11 0 .A 5, .decompressD4 0 .B 16, .decompressD5 0 .B 12, .decompressD10 0 .B 6,
    .decompressD11 0 .B 5], i.wellFormed = false := by decide
theorem test_bytes_ranges : (Instr.tobytes 0 .A 5).wellFormed = false ∧
    (Instr.frombytes 0 .A 5).wellFormed = false := by decide
theorem test_ctcmp_range : (Instr.ctcmp 2049).wellFormed = false := by decide

/-! ### Decoding: every constructor, from a word of the spec (R92, V10, V31, V40, V80, PRG1 to PRG5) -/

theorem test_decode_scalar : ∀ c ∈ ([(0x01100000, .montred 1 0), (0x02210000, .barrett 2 1),
    (0x03210000, .csubq 2 1), (0x04433000, .montmul 4 3 3), (0x0563107F, .basemul 6 3 1 false 127),
    (0x054020C0, .basemul 4 0 2 true 64)] : List (Word × Instr)), decode c.1 = .ok c.2 := by decide
theorem test_decode_poly : ∀ c ∈ ([(0x10100000, .pbarrett 1 0), (0x11220000, .pcsubq 2 2),
    (0x12201000, .padd 2 0 1), (0x13001000, .psub 0 0 1), (0x20300000, .ntt 3), (0x21200000, .intt 2),
    (0x28804003, .pwacc 8 0 4 3)] : List (Word × Instr)), decode c.1 = .ok c.2 := by decide
theorem test_decode_samplers : ∀ c ∈ ([(0x30102800, .cbdEta2 1 .B 0), (0x30203801, .cbdEta3 2 .B 1),
    (0x31502007, .getnoiseEta2 5 7), (0x31003000, .getnoiseEta3 0 0), (0x32912001, .gena 9 1 2 true),
    (0x32001000, .gena 0 0 1 false)] : List (Word × Instr)), decode c.1 = .ok c.2 := by decide
theorem test_decode_compressor : ∀ c ∈ ([(0x40024000, .compressD4 2 .A 0), (0x40025000, .compressD5 2 .A 0),
    (0x4006A002, .compressD10 6 .A 2), (0x4002B000, .compressD11 2 .A 0), (0x4170480F, .decompressD4 7 .B 15),
    (0x4100500B, .decompressD5 0 .A 11), (0x4130A000, .decompressD10 3 .A 0),
    (0x4100B004, .decompressD11 0 .A 4)] : List (Word × Instr)), decode c.1 = .ok c.2 := by decide
theorem test_decode_codec : ∀ c ∈ ([(0x48000000, .frommsg 0 .A 0), (0x4901083F, .tomsg 1 .B 63),
    (0x4A020004, .tobytes 2 .A 4), (0x4B300000, .frombytes 3 .A 0), (0x50000620, .ctcmp 1568)] :
    List (Word × Instr)), decode c.1 = .ok c.2 := by decide

theorem test_illegal_opcode : [0, 0xFF000000, 0x06000000].map decode
    = List.replicate 3 (.error .illegalOpcode) := by decide
theorem test_illegal_field : [0x01101000, 0x01100001, 0x20010000, 0x05F00000, 0x28000000, 0x28000005,
    0x280D0004, 0x30004000, 0x30002040, 0x31002100, 0x32000002, 0x4010A000, 0x41006000, 0x48001000,
    0x50100FFF].map decode = List.replicate 15 (.error .illegalField) := by decide
theorem test_buf_range : [0x30002010, 0x3000300A, 0x4000A006, 0x4100500C, 0x4100B005, 0x4A000005,
    0x50000801].map decode = List.replicate 7 (.error .bufRange) := by decide
/-- R289: `cbd p0, 5, A, 63` is illegal for both reasons and reports the field. -/
theorem test_field_before_range : decode 0x3000503F = .error .illegalField := by decide
theorem test_table_word : decodeTableWord 32 0x20300000 = some (.ntt 3) := by decide

/-! ### The reduction family -/

/-- V3. -/
theorem test_montred : (nextOf (exec (.montred 1 0) (regs [1000000]))).map (·.x[1]) = some 0xFFFFFFF2 := by
  decide
theorem test_montred_same : (nextOf (exec (.montred 1 1) (regs [0, -14]))).map (·.x[1]) = some 0x3C3 := by
  decide
/-- V8: bits 31:16 are ignored. -/
theorem test_barrett : (nextOf (exec (.barrett 2 1) (regs [0, 0x12345678]))).map (·.x[2]) = some 0x872 := by
  decide
theorem test_barrett_low : (nextOf (exec (.barrett 2 1) (regs [0, 0xFFFF8000]))).map (·.x[2]) = some 522 := by
  decide
/-- V9. -/
theorem test_csubq : (nextOf (exec (.csubq 1 0) (regs [6658]))).map (·.x[1]) = some 3329 := by decide
theorem test_csubq_low : refusalOf (exec (.csubq 1 0) (regs [-29440])) = some .contractViolation := by decide
/-- V4: bits 31:16 are ignored. -/
theorem test_montmul : (nextOf (exec (.montmul 4 3 3) (regs [0, 0, 0, 0x12340CF3]))).map (·.x[4])
    = some 0xFFFFFF5A := by decide
theorem test_montmul_refused : refusalOf (exec (.montmul 0 0 0) (regs [32767])) = some .contractViolation := by
  decide
/-- V10. -/
theorem test_pbarrett : (nextOf (exec (.pbarrett 1 0) (slots [(0, const (-1))]))).bind (·.readSlot 1)
    = some (const 3328) := by decide +kernel
theorem test_pcsubq : (nextOf (exec (.pcsubq 0 0) (slots [(0, const 3329)]))).bind (·.readSlot 0)
    = some (const 0) := by decide +kernel
theorem test_padd : (nextOf (exec (.padd 2 0 0) (slots [(0, const 16383)]))).bind (·.readSlot 2)
    = some (const 32766) := by decide +kernel
theorem test_padd_refused : refusalOf (exec (.padd 2 0 0) (slots [(0, const 20000)]))
    = some .contractViolation := by decide +kernel
theorem test_psub : (nextOf (exec (.psub 0 0 1) (slots [(0, const 0), (1, const 3328)]))).bind (·.readSlot 0)
    = some (const (-3328)) := by decide +kernel

/-! ### The transform engine and pointwise multiplication -/

/-- V23. -/
theorem test_ntt : ((nextOf (exec (.ntt 0) (slots [(0, poly (fun i => i))]))).bind (·.readSlot 0)).map
    (fun p => (p.take 8, sums p))
    = some ([2429, 2845, 425, 795, 1865, 1356, 624, 31], 426240, 55607432) := by decide +kernel
/-- V25. -/
theorem test_intt : (nextOf (exec (.intt 0) (slots [(0, const 16383)]))).bind (·.readSlot 0)
    = some ([-262, -262] ++ List.replicate 254 0) := by decide +kernel
/-- V24, V25. -/
theorem test_transforms_refused :
    refusalOf (exec (.ntt 0) (slots [(0, const 9472)])) = some .contractViolation ∧
    refusalOf (exec (.intt 0) (slots [(0, const 16384)])) = some .contractViolation := by decide +kernel
/-- V26, read by the host. -/
theorem test_zeta_read : (nextOf (hostAct (.read 0x4002 2) State.reset)).map (·.readData) = some 0x0A0B ∧
    (nextOf (hostAct (hostReadZetaInv 127) State.reset)).map (·.readData) = some 512 := by decide
/-- V31. -/
theorem test_basemul : (nextOf (exec (.basemul 4 0 2 true 64) (regs [1, 2, 3, 4]))).map
    (fun t => (t.x[4].toInt, t.x[5].toInt)) = some (826, -1639) := by decide
/-- V32: the pairs overlap. -/
theorem test_basemul_overlap : (nextOf (exec (.basemul 6 3 1 false 127) (regs [0, -14, 3315, 3315, -166]))).map
    (fun t => (t.x[6].toInt, t.x[7].toInt)) = some (817, -232) := by decide
/-- V30. -/
theorem test_pwacc : ((nextOf (exec (.pwacc 8 0 4 2) (slots [(0, poly (fun i => i % 7)),
    (1, poly (fun i => (3 * i + 1) % 11)), (4, poly (fun i => i % 5)), (5, const 2)]))).bind (·.readSlot 8)).map
    (fun p => (p.take 4, sums p)) = some ([-437, -1639, 2950, -2213], -19180, -2661646) := by decide +kernel

/-! ### The samplers -/

/-- V40. -/
theorem test_cbd2 : (nextOf (exec (.cbdEta2 1 .B 0) (buffer .B [0x03, 0x0C, 0x9D, 0xF0, 0x5A] 123))).bind
    (·.readSlot 1) = some ([2, 0, -2, 0, -1] ++ List.replicate 251 0) := by decide +kernel
/-- V41. -/
theorem test_cbd3 : (nextOf (exec (.cbdEta3 0 .A 0)
    (buffer .A [0x07, 0x38, 0xC0, 0xFF, 0xFF, 0xFF, 0x2D, 0x96, 0x4B] 183))).bind (·.readSlot 0)
    = some ([3, -1, 2, -2, 0, 0, 0, 0, 0, -2, -2] ++ List.replicate 245 0) := by decide +kernel
/-- in33 is SEED then the nonce (R200): a source that lists that input answers with the bytes of V40. -/
theorem test_getnoise : (nextOf (exec (.getnoiseEta2 1 7) (sourced
    ⟨[((List.replicate 32 0 ++ [7], 128), [0x03, 0x0C, 0x9D, 0xF0, 0x5A] ++ List.replicate 123 0)], [], []⟩))).bind
    (·.readSlot 1) = some ([2, 0, -2, 0, -1] ++ List.replicate 251 0) := by decide +kernel
/-- V46. -/
theorem test_getnoise_fails : (nextOf (exec (.getnoiseEta3 0 0) (sourced ⟨[], [], [.fail 0xDEAD0001]⟩))).map
    (fun t => (t.statusWord, t.errInfo, t.readSlot 0)) = some (0x40, 0xDEAD0001, none) := by decide +kernel
/-- V43. -/
theorem test_rejparse : rejParse [0xFF, 0xFF, 0xFF, 0x00, 0x0D, 0x00, 0x01, 0x1D, 0x00, 0x00, 0xFD, 0xCF] []
    = [3328, 0, 1, 3328, 3327] := by decide
/-- The 34 bytes of `gena _, 0, 1, 0` and of `gena _, 1, 0, 1` (V44). -/
theorem test_gena_input : State.reset.matrixInput 0 1 false = List.replicate 32 0 ++ [0, 1] ∧
    State.reset.matrixInput 1 0 true = List.replicate 32 0 ++ [0, 1] := by decide
/-- V45 (a), with REJ_MAX_BLOCKS = 3. -/
theorem test_gena : rejSession
    (ByteSource.xofBlock ⟨[], [(List.replicate 32 0 ++ [0, 1], List.replicate 504 0)], []⟩
      (State.reset.matrixInput 1 0 true)) 3 [.ok, .ok, .ok, .ok, .silent] = (.done (const 0), [.silent]) := by
  decide +kernel
/-- V45 (b), with REJ_MAX_BLOCKS = 3: four requests, the cap, no fifth. -/
theorem test_gena_cap : rejSession (fun _ => List.replicate 168 0xFF) 3 [.ok, .ok, .ok, .ok, .silent]
    = (.cap, [.silent]) := by decide +kernel
/-- V45 (d). -/
theorem test_gena_fails : (nextOf (exec (.gena 0 0 0 false) (sourced
    ⟨[], [(List.replicate 34 0, List.replicate 168 0)], [.ok, .ok, .fail 7]⟩))).map
    (fun t => (t.err, t.errInfo, t.source.answers)) = some (.xofFail, 7, []) := by decide +kernel

/-! ### The compressor, the codecs, the comparator -/

/-- The polynomial of V51 to V56, V62. -/
def ramp : List Int := poly (fun i => 13 * i % 3329)

/-- The record a command leaves at the start of BUF A: its first bytes and the sum of all. -/
def record (i : Instr) (n : Nat) : Option (List Nat × Nat) :=
  (nums ((nextOf (exec i (slots [(2, ramp)]))).bind (fun t => t.readBuf .A 0 n))).map
    (fun l => (l.take 11, l.sum))

/-- V51. -/
theorem test_compress4 : record (.compressD4 2 .A 0) 128
    = some ([0, 0, 0, 0, 0x10, 0x11, 0x11, 0x11, 0x11, 0x11, 0x11], 16320) := by decide +kernel
/-- V52. -/
theorem test_compress5 : record (.compressD5 2 .A 0) 160
    = some ([0, 0, 0, 0x42, 0x08, 0x21, 0x84, 0x10, 0x84, 0x10, 0x42], 20400) := by decide +kernel
/-- V53. -/
theorem test_compress10 : record (.compressD10 2 .A 0) 320
    = some ([0, 0x10, 0x80, 0, 0x03, 0x10, 0x50, 0x80, 0x01, 0x07, 0x20], 33888) := by decide +kernel
/-- V54. -/
theorem test_compress11 : record (.compressD11 2 .A 0) 352
    = some ([0, 0x40, 0, 0x04, 0x30, 0, 0x02, 0x14, 0xC0, 0, 0x07], 36030) := by decide +kernel
/-- V56: a record of FF bytes. -/
theorem test_decompress : ∀ c ∈ [(Instr.decompressD4 3 .A 0, 128, (3121 : Int)), (.decompressD5 3 .A 0, 160, 3225),
    (.decompressD10 3 .A 0, 320, 3326), (.decompressD11 3 .A 0, 352, 3327)],
    (nextOf (exec c.1 (buffer .A (List.replicate c.2.1 255) 0))).bind (·.readSlot 3) = some (const c.2.2) := by
  decide +kernel
/-- V60, its first two bytes. -/
theorem test_frommsg : (nextOf (exec (.frommsg 0 .A 0) (buffer .A [0x0B, 0x30] 30))).bind (·.readSlot 0)
    = some ([1665, 1665, 0, 1665, 0, 0, 0, 0, 0, 0, 0, 0, 1665, 1665] ++ List.replicate 242 0) := by
  decide +kernel
/-- V61. -/
theorem test_tomsg : nums ((nextOf (exec (.tomsg 0 .B 63) (slots [(0,
    [0, 832, 833, 1665, 2496, 2497, 3328, 3329] ++ List.replicate 248 0)]))).bind (·.readBuf .B 2016 32))
    = some (0x1C :: List.replicate 31 0) := by decide +kernel
/-- V62. -/
theorem test_tobytes : (record (.tobytes 2 .A 0) 384).map (fun c => (c.1.take 9, c.2))
    = some ([0x00, 0xD0, 0x00, 0x1A, 0x70, 0x02, 0x34, 0x10, 0x04], 46650) := by decide +kernel
/-- V63. -/
theorem test_frombytes : (nextOf (exec (.frombytes 3 .A 0) (buffer .A [0x00, 0x1D, 0x00] 381))).bind
    (·.readSlot 3) = some ([3328, 1] ++ List.replicate 254 0) := by decide +kernel

/-- The buffers of V70, their first four bytes. -/
def compared : State := (State.reset.writeBuf .A 0 [1, 2, 3, 4]).writeBuf .B 0 [1, 2, 3, 5]

/-- V70. -/
theorem test_ctcmp : (nextOf (exec (.ctcmp 3) compared)).map (·.cmpne) = some false ∧
    (nextOf (exec (.ctcmp 4) compared)).map (·.statusWord) = some 2 := by decide
theorem test_ctcmp_zero : (nextOf (exec (.ctcmp 0) { State.reset with cmpne := true })).map (·.cmpne)
    = some false := by decide

/-! ### Storage and reset -/

theorem test_unwritten : faultOf (exec (.ntt 0) State.reset) = some .unwrittenRead ∧
    faultOf (hostAct (hostReadBuf .A 0) State.reset) = some .unwrittenRead := by decide

/-! ### Witnesses: something meets the hypotheses of each obligation, clause by clause -/

/-- A state in which CMD is being written. -/
abbrev issuing (w : Word) : State := pending (hostIssue w)

theorem witness_DecodeEncodeRoundTrip : ∀ i ∈ [Instr.basemul 14 14 14 true 127, .pwacc 15 12 12 4, .ctcmp 2048,
    .tobytes 15 .B 4, .compressD11 15 .B 4, .getnoiseEta3 15 255], i.wellFormed = true := by decide
theorem witness_DecodedWordEncodesBack : decode 0x05EEE0FF = .ok (.basemul 14 14 14 true 127) := by decide
theorem witness_StepRunsDecodedCommand : decode 0x50000000 = .ok (.ctcmp 0) ∧
    (issuing 0x50000000).busy = false ∧ (issuing 0x50000000).err = .none ∧
    (issuing 0x50000000).host = [hostIssue 0x50000000] := by decide
theorem witness_CmdRegister :
    ((issuing 0).busy = false ∧ (issuing 0).err = .none ∧ (issuing 0).host = [hostIssue 0]) ∧
    decode 0x50000000 = .ok (.ctcmp 0) ∧ decode 0 = .error .illegalOpcode ∧
    (let s : State := { issuing 0 with err := .rejCap }
     s.busy = false ∧ s.err ≠ .none ∧ s.host = [hostIssue 0]) ∧
    (let s : State := { pending hostReadErrInfo with err := .rejCap }
     s.busy = false ∧ s.err ≠ .none ∧ s.host = [hostReadErrInfo]) ∧
    (let s : State := { pending (hostReadX 15) with err := .rejCap }
     s.busy = false ∧ s.err ≠ .none ∧ s.host = [hostReadX 15]) ∧
    (∀ a ∈ [hostIssue 0, .read 0 4], let s : State := { pending a with busy := true }
     s.busy = true ∧ s.host = [a]) ∧
    (∀ a ∈ [.read 0 4, .write 0 2 0, .read 0 2], (pending a).busy = false ∧ (pending a).host = [a]) ∧
    (2 : Nat) ≠ 4 := by decide
theorem witness_DecodeErrorSetsOnlyErr : (issuing 0).busy = false ∧ (issuing 0).err = .none ∧
    [0, 0x20010000, 0x50000801].map decode
      = [.error .illegalOpcode, .error .illegalField, .error .bufRange] := by decide
theorem witness_ClrErrClearsTheError :
    (pending hostClearErr).busy = false ∧ (pending hostClearErr).host = [.write 0x04 4 0x80000000] ∧
    (0x80000000 : Word).getLsbD 31 = true ∧ (0x7FFFFFFF : Word).getLsbD 31 = false ∧
    (pending hostClearErr).err = .none ∧ (pending hostClearErr).Inv :=
  ⟨by decide, by decide, by decide, by decide, by decide, by decide, fun _ => rfl, by decide⟩
theorem witness_StatusWordBits : (pending hostReadStatus).host = [hostReadStatus] := by decide
theorem witness_PlatformReset : (pending .reset).host = [.reset] := by decide
theorem witness_StepKeepsInvariant : (issuing 0x50000000).Inv ∧
    (nextOf (step (issuing 0x50000000))).isSome = true :=
  ⟨⟨by decide, fun _ => rfl, by decide⟩, by decide⟩
theorem witness_BusyDiscipline :
    (∀ a ∈ [hostIssue 0, .read 0x08 4, hostReadStatus, .reset],
      let s : State := { pending a with busy := true }
      s.busy = true ∧ s.host = [a]) ∧
    (nextOf (step { pending .reset with busy := true })).map (·.busy) = some false := by decide
theorem witness_ContractViolationRefused :
    ¬MontRange (regs [109084672]).x[0].toInt ∧ ¬MontRange (regs [-109084673]).x[0].toInt ∧
    ¬CsubqRange ((regs [-29440]).x[0].truncate 16).toInt ∧
    ¬MontRange (((regs [32767]).x[0].truncate 16).toInt * ((regs [32767]).x[0].truncate 16).toInt) ∧
    (Instr.basemul 0 0 0 false 0).wellFormed = true ∧
    ¬((regs [7386, 7386]).basemulOperands 0 0 false 0).Legal ∧
    ¬(-29439 ≤ (-29440 : Int)) ∧ ¬Fits16 (32767 + 1) ∧ ¬Fits16 (-32768 - 1) ∧
    (Instr.pwacc 0 0 0 1).wellFormed = true ∧ ¬PolyMulLegal (const 7386) (const 7386) ∧
    ∀ i ∈ [Instr.compressD4 0 .A 0, .compressD5 0 .A 0, .compressD10 0 .A 0, .compressD11 0 .A 0,
      .tomsg 0 .A 0, .tobytes 0 .A 0], i.wellFormed = true := by decide +kernel
/-- A slot holds the coefficients that break each precondition over a slot. -/
theorem witness_ContractViolationRefused_slots :
    ∀ v ∈ [-29440, 32767, -32768, 9472, 16384, 6658, -1, 4096], (slots [(0, const v)]).readSlot 0
      = some (const v) := by decide +kernel
theorem witness_ContractViolationRefused_vectors :
    (slots [(0, const 7386)]).readVector 0 1 = some [const 7386] := by decide +kernel
theorem witness_UnwrittenSourceFaults : State.reset.readSlot 0 = none ∧ State.reset.readSlot 15 = none ∧
    (∃ k < 4, State.reset.readSlot (12 + k) = none) ∧ (Instr.pwacc 0 12 12 4).wellFormed = true ∧
    (∃ k < 32, State.reset.mem.read (recordBase .B 63 32 + k) = none) ∧
    (∃ k < 1, State.reset.mem.read (0x1000 + k) = none) ∧
    ∀ i ∈ [Instr.compressD4 0 .A 15, .compressD5 0 .A 11, .compressD10 0 .A 5, .compressD11 0 .A 4,
      .tomsg 0 .A 63, .tobytes 0 .A 4, .cbdEta2 0 .A 15, .cbdEta3 0 .A 9, .decompressD4 0 .A 15,
      .decompressD5 0 .A 11, .decompressD10 0 .A 5, .decompressD11 0 .A 4, .frommsg 0 .A 63,
      .frombytes 0 .A 4], i.wellFormed = true := by
  refine ⟨by decide, by decide, ⟨3, by decide, by decide⟩, by decide, ⟨31, by decide, by decide⟩,
    ⟨0, by decide, by decide⟩, by decide⟩
/-- Both sides of the map at the edges of its windows. -/
theorem witness_AddressMapRefusals : (pending (.read 0x41FC 4)).busy = false ∧
    (pending (.read 0x41FC 4)).host = [.read 0x41FC 4] ∧
    (pending (.write 0x3FFE 2 0)).host = [.write 0x3FFE 2 0] := by decide
theorem witness_AddressMapRefusals_edges :
    [(0x00, 4), (0x7C, 4), (0x9F, 1), (0x17FE, 2), (0x1FFC, 4), (0x3FFE, 2), (0x41FC, 4)].all
      (fun c => decide (Readable c.1 c.2)) = true ∧
    [(0x0C, 4), (0x40, 2), (0xA0, 1), (0xFFF, 1), (0x1001, 2), (0x1002, 4), (0x4200, 1), (0x2000, 8)].any
      (fun c => decide (Readable c.1 c.2)) = false := by decide
theorem witness_HostAccessSideEffects :
    (nextOf (hostAct (.read 0x08 4) State.reset)).isSome = true ∧
    ∀ c ∈ [(0x08, 4), (0x7C, 4), (0x9C, 4), (0x3FFC, 4)],
      (nextOf (hostAct (.write c.1 c.2 5) State.reset)).isSome = true ∧ 0x08 ≤ c.1 := by decide
theorem witness_HostWriteThenRead : State.reset.busy = false ∧ ByteAccess 0x80 0xA0 0x9C 4 ∧
    ByteAccess 0x1000 0x1800 0x17FE 2 ∧ ByteAccess 0x1800 0x2000 0x1FFC 4 ∧ ByteAccess 0x2000 0x4000 0x3FFC 4 := by
  decide
theorem witness_MixedWidthRead : (slots [(15, const (-1))]).busy = false ∧
    (slots [(15, const (-1))]).readSlot (15 : Slot).val = some (const (-1)) ∧
    (State.reset.writeBuf .B 2044 [1, 2, 3, 4]).readBuf .B 2044 4 = some [1, 2, 3, 4] ∧ 2044 % 4 = 0 ∧
    2044 + 4 ≤ 2048 ∧ 28 % 4 = 0 ∧ 28 + 4 ≤ 32 := by decide +kernel
theorem witness_TwiddleRomContents : State.reset.busy = false := by decide

theorem witness_MontRedIsTheDatapath : MontRange (109084671 : Word).toInt ∧ MontRange (-109084672 : Word).toInt := by
  decide
theorem witness_BarrettResidue : (-32768 : Int) ≤ 32767 ∧ (-32768 : Int) ≤ -32768 := by decide
theorem witness_CsubqIsTheMaskForm : ∀ v ∈ [(-29439 : Int), -1, 0, 6657, 6658, 32767],
    -29439 ≤ (BitVec.ofInt 16 v).toInt := by decide
theorem witness_ReductionsAgreeWithReference : Fits16 (-32768) ∧ Fits16 32767 ∧ MontRange 109084671 := by decide
theorem witness_MontredCommand :
    (-109084672 ≤ (regs [109084671]).x[0].toInt ∧ (regs [109084671]).x[0].toInt ≤ 109084671) ∧
    ¬(-109084672 ≤ (regs [109084672]).x[0].toInt ∧ (regs [109084672]).x[0].toInt ≤ 109084671) := by decide
theorem witness_CsubqCommand : -29439 ≤ ((regs [-29439]).x[0].truncate 16).toInt ∧
    ¬(-29439 ≤ ((regs [-29440]).x[0].truncate 16).toInt) := by decide
theorem witness_MontmulCommand : MontRange (-32768 * 3329) ∧ ¬MontRange (-32768 * -3329) ∧
    (-3328 ≤ (-3328 : Int) ∧ (-3328 : Int) ≤ 3328) ∧
    ((regs [-32768, 3329]).x[0].truncate 16).toInt = -32768 ∧
    ((regs [-32768, 3329]).x[1].truncate 16).toInt = 3329 := by decide
theorem witness_PointwiseCommands :
    (slots [(0, const (-29439))]).readSlot (0 : Slot).val = some (const (-29439)) ∧
    (∀ c ∈ const (-29439), -29439 ≤ c) ∧ (∀ c ∈ const 6657, 0 ≤ c ∧ c ≤ 6657) ∧
    (slots [(0, const 32767), (1, const 0)]).readSlot (0 : Slot).val = some (const 32767) ∧
    (slots [(0, const 32767), (1, const 0)]).readSlot (1 : Slot).val = some (const 0) ∧
    (∀ i < 256, Fits16 ((const 32767).getD i 0 + (const 0).getD i 0)) ∧
    (∀ i < 256, Fits16 ((const 32767).getD i 0 - (const 0).getD i 0)) := by decide +kernel

theorem witness_NttCommand : (slots [(3, const 9471)]).readSlot (3 : Slot).val = some (const 9471) ∧
    (∀ c ∈ const 9471, -9471 ≤ c ∧ c ≤ 9471) ∧
    (slots [(3, const 9472)]).readSlot (3 : Slot).val = some (const 9472) ∧
    ¬(∀ c ∈ const 9472, -9471 ≤ c ∧ c ≤ 9471) := by decide +kernel
theorem witness_InttCommand : (slots [(3, const (-16383))]).readSlot (3 : Slot).val = some (const (-16383)) ∧
    (∀ c ∈ const (-16383), -16383 ≤ c ∧ c ≤ 16383) ∧
    (slots [(3, const 16384)]).readSlot (3 : Slot).val = some (const 16384) ∧
    ¬(∀ c ∈ const 16384, -16383 ≤ c ∧ c ≤ 16383) := by decide +kernel
theorem witness_TransformRoundTrip : (slots [(0, const 3328)]).readSlot (0 : Slot).val = some (const 3328) ∧
    (∀ c ∈ const 3328, 0 ≤ c ∧ c ≤ 3328) := by decide +kernel
theorem witness_NttIsTheRemainders : (const (-9471)).length = 256 ∧
    (∀ c ∈ const (-9471), -9471 ≤ c ∧ c ≤ 9471) ∧ 127 < 128 := by decide +kernel

theorem witness_BasemulIsQuadraticProduct :
    let c : BasemulArgs := ⟨7385, 7385, 7385, 7385, -3328⟩;
    -3328 ≤ c.z ∧ c.z ≤ 3328 ∧ c.Legal ∧ c.z % 3329 = 65536 * 169 % 3329 := by decide
theorem witness_BasemulCommand :
    ((14 : Reg).val ≤ 14) ∧ ¬((15 : Reg).val ≤ 14) ∧ ((regs [7385, 7385]).basemulOperands 0 0 true 127).Legal ∧
    ¬((regs [7386, 7386]).basemulOperands 0 0 true 127).Legal := by decide
theorem witness_PolyMulQuadruples : 63 < 64 := by decide
theorem witness_PwaccCommand :
    (∀ k < 1, (slots [(15, const 7385)]).readSlot ((15 : Slot).val + k) = some (const 7385)) ∧
    (15 : Slot).val + (1 : Fin 8).val ≤ 16 ∧ PolyMulLegal (const 7385) (const 7385) ∧
    (∀ c ∈ const 7385, -7385 ≤ c ∧ c ≤ 7385) ∧ ¬PolyMulLegal (const 7386) (const 7386) ∧
    (∀ k < 1, (slots [(15, const 7386)]).readSlot ((15 : Slot).val + k) = some (const 7386)) ∧
    ¬(1 ≤ (0 : Fin 8).val) ∧ ¬((5 : Fin 8).val ≤ 4) ∧ ¬((13 : Slot).val + (4 : Fin 8).val ≤ 16) := by
  decide +kernel

theorem witness_CbdCoefficients : (List.replicate 128 (0xFF : Byte)).length = 64 * 2 ∧
    (List.replicate 192 (0 : Byte)).length = 64 * 3 ∧ 255 < 256 ∧
    (List.replicate 4 true).length = 2 * 2 ∧ (List.replicate 6 true).length = 2 * 3 ∧
    (-3 : Int) ≤ -3 ∧ (3 : Int) ≤ 3 := by decide
/-- Record 15 of 128 bytes and record 9 of 192 bytes are the last that fit. -/
theorem witness_CbdCommand : ((15 : Blk).val + 1) * (64 * 2) ≤ 2048 ∧ ((9 : Blk).val + 1) * (64 * 3) ≤ 2048 ∧
    (State.reset.writeBuf .B 1920 (List.replicate 128 1)).readBuf .B ((15 : Blk).val * (64 * 2)) (64 * 2)
      = some (List.replicate 128 1) ∧
    (State.reset.writeBuf .A 1728 (List.replicate 192 1)).readBuf .A ((9 : Blk).val * (64 * 3)) (64 * 3)
      = some (List.replicate 192 1) ∧
    ¬((16 : Blk).val + 1) * (64 * 2) ≤ 2048 ∧ ¬((10 : Blk).val + 1) * (64 * 3) ≤ 2048 := by decide +kernel
theorem witness_GetnoiseCommand :
    (⟨[(([], 2), [1, 2])], [], []⟩ : ByteSource).prf.lookup ([], ([1, 2] : List Byte).length) = some [1, 2] ∧
    (nextAnswer []).1 = .ok ∧ (nextAnswer [.ok]).1 = .ok ∧
    (nextAnswer [.fail 0]).1 = .fail 0 ∧ (nextAnswer [.silent]).1 = .silent := by decide
/-- A source of zero bytes, last block included: three blocks hold 336 accepted candidates. -/
theorem witness_GenaTakesFirstAccepted :
    (⟨[], [(List.replicate 34 0, List.replicate 504 0)], []⟩ : ByteSource).xof.lookup (List.replicate 34 0)
      = some (List.replicate 504 0) ∧ 168 * (2 + 1) ≤ (List.replicate 504 (0 : Byte)).length ∧
    (List.replicate 168 (0 : Byte)).length = 168 ∧
    3 ≤ Config.rejMaxBlocks ∧ (∀ a ∈ ([] : List SourceAnswer).take (3 + 1), a = .ok) ∧
    256 ≤ (acceptedIn (ByteSource.xofBlock ⟨[], [(List.replicate 34 0, List.replicate 504 0)], []⟩
      (State.reset.seed.toList ++ [0, 0])) 3).length :=
  ⟨by decide +kernel, by decide, by decide, Nat.le_add_left .., by decide, by decide +kernel⟩
theorem witness_GenaOutcomes : State.reset.busy = false ∧ State.reset.err = .none ∧
    (∀ a ∈ State.reset.source.answers, a = .ok) := by decide
theorem acceptedIn_rejected (b : List Byte) (h : ∀ d ∈ candidates b, 3329 ≤ d) (n : Nat) :
    acceptedIn (fun _ => b) n = [] := by
  simp only [acceptedIn, List.filterMap_eq_nil_iff]
  intro d hd
  obtain ⟨_, -, hd⟩ := List.mem_flatMap.1 hd
  simp [Nat.not_lt.2 (h d hd)]
/-- However many blocks of FF bytes there are, they hold no accepted candidate (V45 (b)). -/
theorem witness_GenaOutcomes_cap :
    (acceptedIn (fun _ => List.replicate 168 0xFF) Config.rejMaxBlocks).length < 256 := by
  rw [acceptedIn_rejected _ (by decide +kernel)]; decide
/-- The start request fails or is never answered; the third block request fails after two blocks of FF bytes. -/
theorem witness_GenaOutcomes_forced : 0 ≤ Config.rejMaxBlocks ∧ 3 ≤ Config.rejMaxBlocks ∧
    (∀ a ∈ ([.ok, .ok, .ok, .fail 9] : List SourceAnswer).take 3, a = .ok) ∧
    ([.fail 42] : List SourceAnswer)[0]? = some (.fail 42) ∧ ([.silent] : List SourceAnswer)[0]? = some .silent ∧
    ([.ok, .ok, .ok, .fail 9] : List SourceAnswer)[3]? = some (.fail 9) ∧
    (acceptedIn (fun _ => List.replicate 168 0xFF) (3 - 1)).length < 256 ∧
    (∀ a ∈ ([] : List SourceAnswer).take (1 + Config.rejMaxBlocks), a = .ok) :=
  ⟨Nat.zero_le _, Nat.le_add_left .., by decide, by decide, by decide, by decide,
    by rw [acceptedIn_rejected _ (by decide +kernel)]; decide, by simp⟩
theorem witness_RequestsAreBounded :
    (nextOf (exec (.gena 0 0 0 false) (sourced ⟨[], [], [.silent]⟩))).isSome = true ∧
    State.reset.err = .none ∧ State.reset.busy = false ∧
    (nextOf (exec (.getnoiseEta2 0 0) (sourced ⟨[], [], [.silent]⟩))).isSome = true := by decide
theorem witness_FailedSamplerLosesItsSlot : ∀ i ∈ [Instr.getnoiseEta2 0 0, .getnoiseEta3 0 0, .gena 0 0 0 false],
    (nextOf (exec i (sourced ⟨[], [], [.fail 1]⟩))).map (·.err) = some .xofFail := by decide +kernel
theorem witness_ByteSourceIsAFunction : (nextOf (step State.reset)).isSome = true := by decide

theorem witness_CompressFixedPointForms : 3328 ≤ 3328 := by decide
theorem witness_PackIsTheBitStream : (List.replicate 256 4095).length = 256 ∧
    (∀ v ∈ List.replicate 256 4095, v < 2 ^ 12) ∧ (∀ v ∈ List.replicate 256 1, v < 2 ^ 1) := by decide +kernel
/-- The last record of each width that fits (20_memory.md R61), and the first that does not. -/
theorem witness_CompressCommand :
    (∀ c ∈ [((15 : Blk), 4), (11, 5), (5, 10), (4, 11)], (c.1.val + 1) * (32 * c.2) ≤ 2048) ∧
    (slots [(0, const 6657)]).readSlot (0 : Slot).val = some (const 6657) ∧
    (∀ v ∈ const 6657, 0 ≤ v ∧ v ≤ 6657) ∧
    (∀ c ∈ [((16 : Blk), 4), (12, 5), (6, 10), (5, 11)], ¬(c.1.val + 1) * (32 * c.2) ≤ 2048) := by decide +kernel
theorem witness_DecompressCommand :
    ∀ c ∈ [((15 : Blk), 4), (11, 5), (5, 10), (4, 11)], (c.1.val + 1) * (32 * c.2) ≤ 2048 ∧
      (State.reset.writeBuf .B (c.1.val * (32 * c.2)) (List.replicate (32 * c.2) 7)).readBuf .B
        (c.1.val * (32 * c.2)) (32 * c.2) = some (List.replicate (32 * c.2) 7) := by decide +kernel
theorem witness_MessageCommands :
    (State.reset.writeBuf .B 2016 (List.replicate 32 7)).readBuf .B ((63 : Blk).val * 32) 32
      = some (List.replicate 32 7) ∧
    (slots [(0, const 6657)]).readSlot (0 : Slot).val = some (const 6657) ∧
    (∀ v ∈ const 6657, 0 ≤ v ∧ v ≤ 6657) ∧
    (slots [(0, const (-1))]).readSlot (0 : Slot).val = some (const (-1)) ∧
    ¬(∀ v ∈ const (-1), 0 ≤ v ∧ v ≤ 6657) := by decide +kernel
theorem witness_ByteCodecCommands : ((4 : Blk).val + 1) * 384 ≤ 2048 ∧ ¬((5 : Blk).val + 1) * 384 ≤ 2048 ∧
    (slots [(0, const 4095)]).readSlot (0 : Slot).val = some (const 4095) ∧ (∀ c ∈ const 4095, 0 ≤ c ∧ c ≤ 4095) ∧
    (slots [(0, const 4096)]).readSlot (0 : Slot).val = some (const 4096) ∧
    ¬(∀ c ∈ const 4096, 0 ≤ c ∧ c ≤ 4095) ∧
    (State.reset.writeBuf .B 1536 (List.replicate 384 7)).readBuf .B ((4 : Blk).val * 384) 384
      = some (List.replicate 384 7) := by decide +kernel
theorem witness_CodecRoundTrips : (buffer .A [] 32).readBuf .A ((0 : Blk).val * 32) 32 = some (List.replicate 32 0) ∧
    ((0 : Blk).val + 1) * 384 ≤ 2048 ∧ (slots [(0, const 4095)]).readSlot (0 : Slot).val = some (const 4095) ∧
    (∀ c ∈ const 4095, 0 ≤ c ∧ c ≤ 4095) ∧
    (buffer .A [] 384).readBuf .A ((0 : Blk).val * 384) 384 = some (List.replicate 384 0) := by decide +kernel
theorem witness_CtcmpCommand : (2048 : Fin 4096).val ≤ 2048 ∧ ¬(2049 : Fin 4096).val ≤ 2048 ∧
    compared.readBuf .A 0 (4 : Fin 4096).val = some [1, 2, 3, 4] ∧
    compared.readBuf .B 0 (4 : Fin 4096).val = some [1, 2, 3, 5] ∧
    State.reset.readBuf .A 0 (0 : Fin 4096).val = some [] := by decide

theorem witness_ScalarCommandsFrame : (∀ i ∈ [Instr.montred 1 0, .barrett 1 0, .csubq 1 0, .montmul 1 0 0],
    (nextOf (exec i (regs [5]))).isSome = true) ∧ (Instr.basemul 14 0 0 false 0).wellFormed = true ∧
    (nextOf (exec (.basemul 14 0 0 false 0) (regs [5, 5]))).isSome = true := by decide
theorem witness_StoringCommandsFrame : (Instr.frommsg 15 .B 63).wellFormed = true ∧
    (Instr.frommsg 15 .B 63).writesX = false ∧ (Instr.frommsg 15 .B 63).writesCmpne = false ∧
    (Instr.frommsg 15 .B 63).usesPort = false ∧
    (nextOf (exec (.frommsg 15 .B 63) (State.reset.writeBuf .B 2016 (List.replicate 32 7)))).isSome = true := by
  decide +kernel
theorem witness_SamplersFrame : (Instr.gena 0 0 0 false).usesPort = true ∧
    (nextOf (exec (.gena 0 0 0 false) State.reset)).isSome = true := by decide
theorem witness_AccessTable : (nextOf (exec (.barrett 1 0) State.reset)).isSome = true ∧
    (Instr.ctcmp 0).writesX = false ∧ (Instr.barrett 1 0).writesCmpne = false ∧
    (Instr.barrett 1 0).usesPort = false := by decide

end Sys2Proof.Tests
end

/-! # 10_state.md: what a command may write, what it must read, and how it is issued -/

namespace Sys2Proof.Machine

/-! ### The legal forms of the commands with a field constraint (30_encoding.md R87) -/

theorem wellFormed_basemul {rd ra rb : Reg} {neg : Bool} {zi : Fin 128} :
    (Instr.basemul rd ra rb neg zi).wellFormed = true ↔ rd.val ≤ 14 ∧ ra.val ≤ 14 ∧ rb.val ≤ 14 := by
  simp [Instr.wellFormed, Instr.fieldsLegal, Instr.rangeLegal]

theorem wellFormed_pwacc {rd ra rb : Slot} {K : Fin 8} :
    (Instr.pwacc rd ra rb K).wellFormed = true ↔
      1 ≤ K.val ∧ K.val ≤ 4 ∧ ra.val + K.val ≤ 16 ∧ rb.val + K.val ≤ 16 := by
  simp [Instr.wellFormed, Instr.fieldsLegal, Instr.rangeLegal]

/-! ### Reads of storage that holds no value (10_state.md R37) -/

/-- A range with a byte that holds no value cannot be read. -/
theorem readRange_eq_none {m : Memory} {a n k : Nat} (hk : k < n) (h : m.read (a + k) = none) :
    m.readRange a n = none := by
  cases hr : m.readRange a n with
  | none => rfl
  | some bs =>
    have hlen := readRange_length hr
    rw [read_of_readRange hr k hk, List.getElem?_eq_none_iff] at h
    omega

/-- A collected read fails if one of its parts does. -/
theorem mapM_eq_none {α β : Type} {f : α → Option β} {l : List α} {a : α} (ha : a ∈ l)
    (h : f a = none) : l.mapM f = none := by
  induction l with
  | nil => cases ha
  | cons b l ih =>
    rw [List.mapM_cons]
    rcases List.mem_cons.mp ha with rfl | ha
    · rw [h]; rfl
    · rw [ih ha]; cases f b <;> rfl

/-- A collected read that succeeds has one value for each of its parts. -/
theorem length_of_mapM_some {α β : Type} {f : α → Option β} {l : List α} {v : List β}
    (h : l.mapM f = some v) : v.length = l.length := by
  induction l generalizing v with
  | nil => cases h; rfl
  | cons a l ih =>
    simp only [List.mapM_cons, bind, pure, Option.bind_eq_some_iff, Option.some.injEq] at h
    obtain ⟨b, -, w, hw, rfl⟩ := h
    rw [List.length_cons, List.length_cons, ih hw]

/-- A vector with a slot that cannot be read cannot be read. -/
theorem readVector_eq_none {s : State} {r : Slot} {K k : Nat} (hk : k < K)
    (h : s.readSlot (r.val + k) = none) : s.readVector r K = none :=
  mapM_eq_none (List.mem_range.mpr hk) h

/-- A command with two sources faults if either holds no value: neither read writes anything. -/
theorem written_written_fault {α β : Type} {v : Option α} {w : Option β} {k : α → β → Result}
    (h : v = none ∨ w = none) :
    (written v fun a => written w (k a)) = .fault .unwrittenRead := by
  cases v with
  | none => rfl
  | some a =>
    obtain rfl : w = none := h.resolve_left (Option.some_ne_none a)
    rfl

theorem withSlot_fault {s : State} {r : Slot} {k : List Int → Result} (h : s.readSlot r.val = none) :
    withSlot s r k = .fault .unwrittenRead := by
  rw [withSlot, h, written_none]

theorem withRecord_fault {s : State} {bs : BufSel} {blk : Blk} {S : Nat} {k : List Byte → Result}
    (hin : RecordInside S blk) (h : ∃ k < S, s.mem.read (recordBase bs blk S + k) = none) :
    withRecord s bs blk S k = .fault .unwrittenRead := by
  obtain ⟨j, hj, hnone⟩ := h
  have hread : s.readBuf bs (blk.val * S) S = none := readRange_eq_none hj hnone
  rw [withRecord, unlessError_pos _ _ _ hin, hread, written_none]

theorem execPointwise_fault {f : Int → Int → Int} {rd ra rb : Slot} {s : State}
    (h : s.readSlot ra.val = none ∨ s.readSlot rb.val = none) :
    execPointwise f rd ra rb s = .fault .unwrittenRead :=
  written_written_fault h

theorem execPack_fault {S : Nat} {pre : Int → Prop} [DecidablePred pre] {f : List Int → List Byte}
    {ra : Slot} {bs : BufSel} {blk : Blk} {s : State} (hin : RecordInside S blk)
    (h : s.readSlot ra.val = none) : execPack S pre f ra bs blk s = .fault .unwrittenRead := by
  rw [execPack, unlessError_pos _ _ _ hin, withSlot_fault h]

theorem execPwacc_fault {rd ra rb : Slot} {K : Fin 8} {s : State}
    (hwf : (Instr.pwacc rd ra rb K).wellFormed = true)
    (h : ∃ k < K.val, s.readSlot (ra.val + k) = none ∨ s.readSlot (rb.val + k) = none) :
    execPwacc rd ra rb K s = .fault .unwrittenRead := by
  obtain ⟨k, hk, hnone⟩ := h
  rw [execPwacc, unlessError_pos _ _ _ (wellFormed_pwacc.mp hwf)]
  exact written_written_fault (hnone.imp (readVector_eq_none hk) (readVector_eq_none hk))

theorem execCtcmp_fault {len : Fin 4096} {s : State} (hlen : len.val ≤ 2048)
    (h : ∃ k < len.val, s.mem.read (0x1000 + k) = none ∨ s.mem.read (0x1800 + k) = none) :
    execCtcmp len s = .fault .unwrittenRead := by
  obtain ⟨k, hk, hnone⟩ := h
  rw [execCtcmp, unlessError_pos _ _ _ hlen]
  exact written_written_fault (hnone.imp (readRange_eq_none hk) (readRange_eq_none hk))

/-- Settles O16: each shape of command reads its sources before it writes, and a byte that holds no value
makes the read of its slot, vector, record or compared bytes fail. -/
theorem unwrittenSourceFaults : Obligations.UnwrittenSourceFaults := by
  intro s
  refine ⟨?slot, ?pointwise, fun rd ra rb K => execPwacc_fault, ?pack, ?record,
    fun len => execCtcmp_fault⟩
  case slot =>
    intro rd r h i hi
    simp only [List.mem_cons, List.not_mem_nil, or_false] at hi
    rcases hi with rfl | rfl | rfl | rfl <;> exact withSlot_fault h
  case pointwise =>
    intro rd ra rb h i hi
    simp only [List.mem_cons, List.not_mem_nil, or_false] at hi
    rcases hi with rfl | rfl <;> exact execPointwise_fault h
  case pack =>
    intro ra bs blk h i hi hwf
    simp only [List.mem_cons, List.not_mem_nil, or_false] at hi
    rcases hi with rfl | rfl | rfl | rfl | rfl | rfl <;> exact execPack_fault (of_decide_eq_true hwf) h
  case record =>
    intro rd bs blk c hc hwf h
    simp only [List.mem_cons, List.not_mem_nil, or_false] at hc
    rcases hc with rfl | rfl | rfl | rfl | rfl | rfl | rfl | rfl <;>
      exact withRecord_fault (of_decide_eq_true hwf) h

/-! ### The effect of a command (10_state.md R38) -/

/-- Every way a command can leave the state when it answers a next state, with the guard it was under:
the columns of the table of 10_state.md R38 and the errors of 60_exceptions.md R284, R285. -/
inductive CommandEffect (i : Instr) (s : State) : State → Prop
  /-- An illegal term raises its decode error. -/
  | raises (e : ErrCode) (he : e = .illegalField ∨ e = .bufRange) (illegal : i.wellFormed = false) :
      CommandEffect i s (s.raise e 0)
  /-- Scalar registers are written. -/
  | scalar (regs : Vector Word 16) (col : i.writesX = true) : CommandEffect i s { s with x := regs }
  /-- CMPNE is written. -/
  | flag (v : Bool) (col : i.writesCmpne = true) : CommandEffect i s (s.writeCmpne v)
  /-- The destination slot is written. -/
  | slot (rd : Slot) (p : List Int) (dest : i.storeRange = (slotBase rd.val, slotBytes))
      (len : p.length = 256) : CommandEffect i s (s.writeSlot rd.val p)
  /-- The destination record is written. -/
  | record (bs : BufSel) (blk : Blk) (S : Nat) (bytes : List Byte)
      (dest : i.storeRange = (recordBase bs blk S, S)) (inside : RecordInside S blk)
      (len : bytes.length = S) : CommandEffect i s (s.writeRecord bs blk S bytes)
  /-- A sampler completes. -/
  | samples (rest : List SourceAnswer) (rd : Slot) (p : List Int) (col : i.usesPort = true)
      (dest : i.storeRange = (slotBase rd.val, slotBytes)) (len : p.length = 256) :
      CommandEffect i s ((s.setAnswers rest).writeSlot rd.val p)
  /-- A sampler fails, and its destination slot is lost. -/
  | loses (rest : List SourceAnswer) (rd : Slot) (e : ErrCode) (info : Word)
      (he : e = .xofFail ∨ e = .rejCap) (col : i.usesPort = true)
      (dest : i.storeRange = (slotBase rd.val, slotBytes)) :
      CommandEffect i s ((s.setAnswers rest).raiseLosing rd e info)
  /-- A sampler waits for an answer that never comes. -/
  | hangs (rest : List SourceAnswer) (col : i.usesPort = true) :
      CommandEffect i s ((s.setAnswers rest).hang)

/-- A vector that can be read has one polynomial for each of its slots. -/
theorem length_readVector {s : State} {r : Slot} {K : Nat} {v : List (List Int)}
    (h : s.readVector r K = some v) : v.length = K := by
  rw [length_of_mapM_some h, List.length_range]

/-- A session of GENA that completes holds exactly 256 coefficients (43_sampler.md R205). -/
theorem length_of_rejSession_done {block : Nat → List Byte} {cap : Nat} {answers : List SourceAnswer}
    {r : List Int} (h : (rejSession block cap answers).1 = .done r) : r.length = 256 := by
  unfold rejSession at h
  cases ha : (nextAnswer answers).1 with
  | ok => rw [ha] at h; exact length_of_rejLoop_done _ _ _ _ _ _ (Nat.zero_le _) h
  | fail code => rw [ha] at h; cases h
  | silent => rw [ha] at h; cases h

/-- A command under a precondition that answers a next state answers its one result. -/
theorem eq_of_requiring_next {pre : Prop} [Decidable pre] {u t : State}
    (h : requiring pre (.next u) = .next t) : u = t :=
  Host.Outcome.next.inj (requiring_next.mp h).2

namespace CommandEffect

variable {i : Instr} {s t : State}

/-- A scalar command with a precondition and one destination. -/
theorem of_requiring_writeX {pre : Prop} [Decidable pre] {rd : Reg} {v : Int} (col : i.writesX = true)
    (h : requiring pre (.next (s.writeX rd v)) = .next t) : CommandEffect i s t := by
  obtain rfl := eq_of_requiring_next h
  exact scalar _ col

theorem of_execBasemul {rd ra rb : Reg} {neg : Bool} {zi : Fin 128}
    (h : execBasemul rd ra rb neg zi s = .next t) :
    CommandEffect (.basemul rd ra rb neg zi) s t := by
  rcases execBasemul_next.mp h with ⟨-, -, rfl⟩ | ⟨hbad, rfl⟩
  · exact scalar _ rfl
  · exact raises _ (.inl rfl) (Bool.eq_false_iff.mpr (mt wellFormed_basemul.mp hbad))

/-- A command that maps one slot to its destination under a precondition. -/
theorem of_withSlot {ra rd : Slot} {pre : List Int → Prop} [DecidablePred pre] {f : List Int → List Int}
    (dest : i.storeRange = (slotBase rd.val, slotBytes))
    (len : ∀ p : List Int, p.length = 256 → (f p).length = 256)
    (h : (withSlot s ra fun p => requiring (pre p) (.next (s.writeSlot rd.val (f p)))) = .next t) :
    CommandEffect i s t := by
  obtain ⟨p, hp, hk⟩ := withSlot_next.mp h
  obtain rfl := eq_of_requiring_next hk
  exact slot rd _ dest (len p (readSlot_some hp).1)

theorem of_execPbarrett {rd ra : Slot} (h : execPbarrett rd ra s = .next t) :
    CommandEffect (.pbarrett rd ra) s t := by
  obtain ⟨p, hp, ht⟩ := withSlot_next.mp h
  cases ht
  exact slot rd _ rfl (by rw [List.length_map, (readSlot_some hp).1])

theorem of_execPointwise {f : Int → Int → Int} {rd ra rb : Slot}
    (dest : i.storeRange = (slotBase rd.val, slotBytes)) (h : execPointwise f rd ra rb s = .next t) :
    CommandEffect i s t := by
  obtain ⟨a, b, ha, hb, -, rfl⟩ := execPointwise_next.mp h
  refine slot rd _ dest ?_
  rw [List.length_zipWith, (readSlot_some ha).1, (readSlot_some hb).1, Nat.min_self]

theorem of_execPwacc {rd ra rb : Slot} {K : Fin 8} (h : execPwacc rd ra rb K s = .next t) :
    CommandEffect (.pwacc rd ra rb K) s t := by
  rcases execPwacc_next.mp h with ⟨⟨hK, -⟩, as, bs, has, hbs, -, rfl⟩ | ⟨hbad, rfl⟩
  · have hlen : (as.zip bs).length = K.val := by
      rw [List.length_zip, length_readVector has, length_readVector hbs, Nat.min_self]
    exact slot rd _ rfl (length_pwaccSum (List.ne_nil_of_length_pos (by omega)))
  · exact raises _ (.inl rfl) (Bool.eq_false_iff.mpr (mt wellFormed_pwacc.mp hbad))

theorem of_execPack {S : Nat} {pre : Int → Prop} [DecidablePred pre] {f : List Int → List Byte}
    {ra : Slot} {bs : BufSel} {blk : Blk} (dest : i.storeRange = (recordBase bs blk S, S))
    (illegal : ¬RecordInside S blk → i.wellFormed = false)
    (len : ∀ p : List Int, p.length = 256 → (f p).length = S)
    (h : execPack S pre f ra bs blk s = .next t) : CommandEffect i s t := by
  rcases execPack_next.mp h with ⟨hin, p, hp, -, rfl⟩ | ⟨hout, rfl⟩
  · exact record bs blk S _ dest hin (len p (readSlot_some hp).1)
  · exact raises _ (.inr rfl) (illegal hout)

/-- A command that unpacks a record into its destination; CBD has this shape too. -/
theorem of_execUnpack {S : Nat} {f : List Byte → List Int} {rd : Slot} {bs : BufSel} {blk : Blk}
    (dest : i.storeRange = (slotBase rd.val, slotBytes))
    (illegal : ¬RecordInside S blk → i.wellFormed = false)
    (len : ∀ b : List Byte, b.length = S → (f b).length = 256)
    (h : execUnpack S f rd bs blk s = .next t) : CommandEffect i s t := by
  rcases execUnpack_next.mp h with ⟨-, b, hb, rfl⟩ | ⟨hout, rfl⟩
  · exact slot rd _ dest (len b (readBuf_length hb))
  · exact raises _ (.inr rfl) (illegal hout)

theorem of_execGetnoise {eta : Nat} {rd : Slot} {nonce : Byte} (col : i.usesPort = true)
    (dest : i.storeRange = (slotBase rd.val, slotBytes)) (h : execGetnoise eta rd nonce s = .next t) :
    CommandEffect i s t := by
  rw [execGetnoise_eq] at h
  cases ha : (nextAnswer s.source.answers).1 with
  | ok => rw [ha] at h; cases h; exact samples _ rd _ col dest (length_cbd ..)
  | fail code => rw [ha] at h; cases h; exact loses _ rd _ code (.inl rfl) col dest
  | silent => rw [ha] at h; cases h; exact hangs _ col

theorem of_afterSession {rd : Slot} {e : RejEnd} (rest : List SourceAnswer) (col : i.usesPort = true)
    (dest : i.storeRange = (slotBase rd.val, slotBytes)) (len : ∀ r, e = .done r → r.length = 256) :
    CommandEffect i s ((s.setAnswers rest).afterSession rd e) := by
  cases e with
  | done r => exact samples rest rd r col dest (len r rfl)
  | fail code => exact loses rest rd _ code (.inl rfl) col dest
  | cap => exact loses rest rd _ 0 (.inr rfl) col dest
  | silent => exact hangs rest col

theorem of_execGena {rd : Slot} {row col : Fin 16} {tr : Bool}
    (h : execGena rd row col tr s = .next t) : CommandEffect (.gena rd row col tr) s t := by
  cases h
  exact of_afterSession _ rfl rfl fun r => length_of_rejSession_done

theorem of_execCtcmp {len : Fin 4096} (h : execCtcmp len s = .next t) :
    CommandEffect (.ctcmp len) s t := by
  rcases execCtcmp_next.mp h with ⟨-, a, b, -, -, rfl⟩ | ⟨hbad, rfl⟩
  · exact flag _ rfl
  · exact raises _ (.inr rfl) (decide_eq_false hbad)

end CommandEffect

/-- A command that answers a next state has one of the effects. -/
theorem exec_effect {i : Instr} {s t : State} (h : exec i s = .next t) : CommandEffect i s t := by
  cases i with
  | montred rd ra => exact .of_requiring_writeX rfl h
  | barrett rd ra => cases h; exact .scalar _ rfl
  | csubq rd ra => exact .of_requiring_writeX rfl h
  | montmul rd ra rb => exact .of_requiring_writeX rfl h
  | basemul rd ra rb neg zi => exact .of_execBasemul h
  | pbarrett rd ra => exact .of_execPbarrett h
  | pcsubq rd ra => exact .of_withSlot rfl (fun p hp => by rw [List.length_map, hp]) h
  | padd rd ra rb => exact .of_execPointwise rfl h
  | psub rd ra rb => exact .of_execPointwise rfl h
  | ntt rd => exact .of_withSlot rfl (fun p => length_ntt) h
  | intt rd => exact .of_withSlot rfl (fun p => length_intt) h
  | pwacc rd ra rb K => exact .of_execPwacc h
  | cbdEta2 rd bs blk => exact .of_execUnpack rfl decide_eq_false (fun b _ => length_cbd 2 b) h
  | cbdEta3 rd bs blk => exact .of_execUnpack rfl decide_eq_false (fun b _ => length_cbd 3 b) h
  | getnoiseEta2 rd nonce => exact .of_execGetnoise rfl rfl h
  | getnoiseEta3 rd nonce => exact .of_execGetnoise rfl rfl h
  | gena rd row col tr => exact .of_execGena h
  | compressD4 ra bs blk => exact .of_execPack rfl decide_eq_false (fun p => length_compressRecord 4) h
  | compressD5 ra bs blk => exact .of_execPack rfl decide_eq_false (fun p => length_compressRecord 5) h
  | compressD10 ra bs blk => exact .of_execPack rfl decide_eq_false (fun p => length_compressRecord 10) h
  | compressD11 ra bs blk => exact .of_execPack rfl decide_eq_false (fun p => length_compressRecord 11) h
  | decompressD4 rd bs blk =>
    exact .of_execUnpack rfl decide_eq_false (fun b _ => length_decompressRecord 4 b) h
  | decompressD5 rd bs blk =>
    exact .of_execUnpack rfl decide_eq_false (fun b _ => length_decompressRecord 5 b) h
  | decompressD10 rd bs blk =>
    exact .of_execUnpack rfl decide_eq_false (fun b _ => length_decompressRecord 10 b) h
  | decompressD11 rd bs blk =>
    exact .of_execUnpack rfl decide_eq_false (fun b _ => length_decompressRecord 11 b) h
  | frommsg rd bs blk => exact .of_execUnpack rfl decide_eq_false (fun b => length_fromMsg) h
  | tomsg ra bs blk => exact .of_execPack rfl decide_eq_false (fun p => length_toMsg) h
  | tobytes ra bs blk => exact .of_execPack rfl decide_eq_false (fun p => length_toBytes) h
  | frombytes rd bs blk =>
    exact .of_execUnpack rfl decide_eq_false (fun b _ => length_fromBytes b) h
  | ctcmp len => exact .of_execCtcmp h

/-! ### The frames (10_state.md R38) -/

theorem read_writeRecord_outside (s : State) (bs : BufSel) (blk : Blk) {S : Nat} {bytes : List Byte}
    (hl : bytes.length = S) :
    SameMemoryBut (recordBase bs blk S) S s (s.writeRecord bs blk S bytes) := by
  intro b hb
  rw [State.writeRecord_mem, read_writeRange_outside _ _ _ _ (by rwa [hl])]

/-- No command stores outside its destination. -/
theorem CommandEffect.sameMemoryBut {i : Instr} {s t : State} (h : CommandEffect i s t) :
    SameMemoryBut i.storeRange.1 i.storeRange.2 s t := by
  cases h with
  | raises | scalar | flag | hangs => exact fun _ _ => rfl
  | slot rd p dest len => rw [dest]; exact read_writeSlot_outside s rd.val p len
  | record bs blk S bytes dest inside len => rw [dest]; exact read_writeRecord_outside s bs blk len
  | samples rest rd p col dest len =>
    rw [dest]; exact read_writeSlot_outside (s.setAnswers rest) rd.val p len
  | loses rest rd e info he col dest =>
    rw [dest]; exact read_eraseSlot_outside (s.setAnswers rest) rd.val

/-- What each column of the table of 10_state.md R38 says of the effects. -/
theorem CommandEffect.columns {i : Instr} {s t : State} (h : CommandEffect i s t) :
    t.seed = s.seed ∧ t.host = s.host ∧ t.readData = s.readData ∧
      (i.writesX = false → t.x = s.x) ∧ (i.writesCmpne = false → t.cmpne = s.cmpne) ∧
      (i.usesPort = false → t.source = s.source) := by
  cases h with
  | raises | slot | record => simp
  | scalar _ col | flag _ col => simp [col]
  | samples _ _ _ col | loses _ _ _ _ _ col | hangs _ col => simp [col]

/-- The samplers write neither scalar registers nor CMPNE. -/
theorem usesPort_excludes {i : Instr} (h : i.usesPort = true) :
    i.writesX = false ∧ i.writesCmpne = false := by
  cases i with
  | getnoiseEta2 | getnoiseEta3 | gena => exact ⟨rfl, rfl⟩
  | _ => cases h

/-- Settles O60: the columns and the destination of the command's effect. -/
theorem accessTable : Obligations.AccessTable := by
  intro s t i h
  have he := exec_effect h
  obtain ⟨hseed, hhost, hread, hx, hcmpne, hsource⟩ := he.columns
  exact ⟨hseed, hhost, hread, hx, hcmpne, hsource, he.sameMemoryBut⟩

/-- Settles O59: the access table, in the row of a sampler. -/
theorem samplersFrame : Obligations.SamplersFrame := by
  intro s t i hport h
  obtain ⟨hnox, hnocmpne⟩ := usesPort_excludes hport
  obtain ⟨hseed, hhost, hread, hx, hcmpne, -, hmem⟩ := accessTable s t i h
  exact ⟨hx hnox, hseed, hcmpne hnocmpne, hhost, hread, hmem⟩

/-- A legal command that neither is a sampler nor writes CMPNE leaves STATUS and ERRINFO alone. -/
theorem CommandEffect.sameStatus {i : Instr} {s t : State} (h : CommandEffect i s t)
    (hwf : i.wellFormed = true) (hcmpne : i.writesCmpne = false) (hport : i.usesPort = false) :
    SameStatus s t := by
  cases h with
  | raises _ _ illegal => exact nomatch illegal.symm.trans hwf
  | flag _ col => exact nomatch col.symm.trans hcmpne
  | samples _ _ _ col | loses _ _ _ _ _ col | hangs _ col => exact nomatch col.symm.trans hport
  | scalar | slot | record => exact ⟨rfl, rfl, rfl, rfl⟩

/-- Settles O58: the access table, and the status of a legal command. -/
theorem storingCommandsFrame : Obligations.StoringCommandsFrame := by
  intro s t i hwf hnox hnocmpne hnoport h
  obtain ⟨hseed, hhost, hread, hx, -, hsource, hmem⟩ := accessTable s t i h
  exact ⟨hx hnox, hseed, (exec_effect h).sameStatus hwf hnocmpne hnoport,
    ⟨hsource hnoport, hhost, hread⟩, hmem⟩

/-- The scalar commands with one destination write it and nothing else. -/
theorem exec_scalar_next {s t : State} {rd ra rb : Reg} {i : Instr}
    (hi : i ∈ [Instr.montred rd ra, .barrett rd ra, .csubq rd ra, .montmul rd ra rb])
    (h : exec i s = .next t) : ∃ v, s.writeX rd v = t := by
  simp only [List.mem_cons, List.not_mem_nil, or_false] at hi
  rcases hi with rfl | rfl | rfl | rfl
  · exact ⟨_, eq_of_requiring_next h⟩
  · exact ⟨_, Host.Outcome.next.inj h⟩
  · exact ⟨_, eq_of_requiring_next h⟩
  · exact ⟨_, eq_of_requiring_next h⟩

/-- The upper register of a legal pair is the next one (30_encoding.md R82). -/
theorem pairUpper_val {r : Reg} (h : r.val ≤ 14) : (pairUpper r).val = r.val + 1 := by
  unfold pairUpper; omega

/-- Settles O57: a scalar command is one write of a register, BASEMUL two, and a write of a register leaves
every other field and every other register. -/
theorem scalarCommandsFrame : Obligations.ScalarCommandsFrame := by
  intro s t rd ra rb
  refine ⟨fun i hi h => ?single, fun neg zi hwf h => ?pair⟩
  case single =>
    obtain ⟨v, rfl⟩ := exec_scalar_next hi h
    exact ⟨fun r hr => getElem_writeX_other s rd r v hr, rfl, ⟨rfl, rfl, rfl, rfl⟩, ⟨rfl, rfl, rfl⟩,
      fun _ => rfl⟩
  case pair =>
    have hlegal := wellFormed_basemul.mp hwf
    rcases execBasemul_next.mp h with ⟨-, -, rfl⟩ | ⟨hbad, -⟩
    · refine ⟨fun r hr hr' => ?_, rfl, ⟨rfl, rfl, rfl, rfl⟩, ⟨rfl, rfl, rfl⟩, fun _ => rfl⟩
      have hup : r ≠ pairUpper rd := fun e => hr' (by rw [e, pairUpper_val hlegal.1])
      rw [getElem_writeX_other _ _ _ _ hup, getElem_writeX_other _ _ _ _ hr]
    · exact absurd hlegal hbad

/-! ### CMD, STATUS and reset as the host sees them (10_state.md R30, R31, R36) -/

/-- An access to CMD must be of 4 bytes (20_memory.md R58). -/
theorem accessOk_cmd (n : Nat) : AccessOk 0 n ↔ n = 4 := by
  constructor
  · rintro ⟨-, -, -, hword⟩; exact hword rfl
  · rintro rfl; decide

/-- A host access is refused while a command is in progress, a read of STATUS apart
(70_reset_and_hazards.md R315). -/
theorem hostWrite_busy {s : State} (off n : Nat) (w : Word) (h : s.busy = true) :
    hostWrite off n w s = .refused .accessWhileBusy := if_pos h

/-- The same refusal of a read. -/
theorem hostRead_busy {s : State} {off n : Nat} (h : s.busy = true) (hs : ¬(off = 0x04 ∧ n = 4)) :
    hostRead off n s = .refused .accessWhileBusy := if_pos ⟨h, hs⟩

/-- An access that the map does not take is a bus error (20_memory.md R57). -/
theorem hostWrite_busError {s : State} {off n : Nat} (w : Word) (h : s.busy = false)
    (hbad : ¬AccessOk off n) : hostWrite off n w s = .refused .busError := by
  rw [hostWrite, if_neg (by simp [h]), if_neg hbad]

theorem hostRead_busError {s : State} {off n : Nat} (h : s.busy = false) (hbad : ¬AccessOk off n) :
    hostRead off n s = .refused .busError := by
  rw [hostRead, if_neg (by simp [h]), if_neg hbad]

/-- A read that the map takes, of an offset that holds a value, gives that value. -/
theorem hostRead_load {s : State} {off n : Nat} {v : Word} (h : s.busy = false ∨ off = 0x04 ∧ n = 4)
    (hok : AccessOk off n) (hload : s.load off n = some v) :
    hostRead off n s = .next { s with readData := v } := by
  rw [hostRead, if_neg (by rintro ⟨hb, hs⟩; exact h.elim (fun hf => nomatch hf.symm.trans hb) hs),
    if_pos hok, hload, written_some]

/-- A CMD write while BUSY = 0 issues its word (10_state.md R30). -/
theorem hostWrite_cmd {s : State} (w : Word) (h : s.busy = false) : hostWrite 0 4 w s = issue w s := by
  rw [hostWrite, if_neg (by simp [h]), if_pos ((accessOk_cmd 4).mpr rfl)]
  rfl

theorem step_hostIssue {s : State} {w : Word} {rest : List HostAction} (hb : s.busy = false)
    (hh : s.host = hostIssue w :: rest) : step s = issue w { s with host := rest } :=
  (step_act hh).trans (hostWrite_cmd w hb)

theorem issue_ok {s : State} {w : Word} {i : Instr} (he : s.err = .none) (hd : decode w = .ok i) :
    issue w s = exec i s := by
  rw [issue_eq, if_pos he, hd]

theorem issue_error {s : State} {w : Word} {e : DecodeError} (he : s.err = .none)
    (hd : decode w = .error e) : issue w s = .next (s.raise (errCodeOf e) 0) := by
  rw [issue_eq, if_pos he, hd]

/-- While ERR is set a CMD write is ignored (60_exceptions.md R286). -/
theorem issue_ignored {s : State} (w : Word) (he : s.err ≠ .none) : issue w s = .next s := by
  rw [issue_eq, if_neg he]

/-- Settles O5: the write reaches `issue`, which runs the decoded command. -/
theorem stepRunsDecodedCommand : Obligations.StepRunsDecodedCommand := by
  intro s rest w i hd
  refine ⟨fun hb he hh => ?_, ?_⟩
  · exact (step_hostIssue hb hh).trans (issue_ok he hd)
  · have hw : BitVec.ofNat 32 w.toNat = w := by simp
    rw [State.withFetchWord, hw]
    exact (step_hostIssue rfl rfl).trans (issue_ok rfl hd)

/-- The registers' window of the address map (20_memory.md R56), and that it takes 4-byte accesses. -/
theorem regionAt_x : ∀ i : Fin 16, regionAt (0x40 + 4 * i.val) = .x i := by decide

theorem accessOk_x : ∀ i : Fin 16, AccessOk (0x40 + 4 * i.val) 4 := by decide

theorem hostAct_hostReadX {s : State} (i : Fin 16) (h : s.busy = false) :
    hostAct (hostReadX i) s = .next { s with readData := s.x[i] } :=
  hostRead_load (.inl h) (accessOk_x i) (by rw [State.load, regionAt_x])

/-- Settles O6: each clause is one line of the host port's rules at offset 0, ERRINFO or x[i]. -/
theorem cmdRegister : Obligations.CmdRegister := by
  intro s rest w
  refine ⟨fun hb he hh => ?accepted, fun hb he => ?errSet, fun n hb hh => ?busy, fun hb hh => ?read,
    fun n hb hn hh => ?width⟩
  case accepted =>
    rw [step_hostIssue hb hh]
    exact ⟨fun i => issue_ok he, fun e => issue_error he⟩
  case errSet =>
    refine ⟨fun hh => ?_, fun hh => ?_, fun i hh => ?_⟩
    · exact (step_hostIssue hb hh).trans (issue_ignored w he)
    · rw [step_act hh]; exact hostRead_load (.inl hb) (by decide) rfl
    · rw [step_act hh]; exact hostAct_hostReadX i hb
  case busy =>
    rcases hh with hh | hh <;> rw [step_act hh]
    · exact hostWrite_busy 0 n w hb
    · exact hostRead_busy hb (by simp)
  case read =>
    rw [step_act hh]; exact hostRead_load (.inl hb) ((accessOk_cmd 4).mpr rfl) rfl
  case width =>
    have hbad : ¬AccessOk 0 n := fun h => hn ((accessOk_cmd n).mp h)
    rcases hh with hh | hh <;> rw [step_act hh]
    · exact hostWrite_busError w hb hbad
    · exact hostRead_busError hb hbad

/-- The codes of the errors are those of 60_exceptions.md R281; 6 to 15 are never produced. -/
theorem code_le (e : ErrCode) : e.code ≤ 5 := by
  cases e <;> decide

/-- The fields of the STATUS word (10_state.md R31), over all 24 values it can take. -/
theorem statusWord_fields : ∀ (b c : Bool) (k : Fin 6),
    let w : Word := BitVec.ofNat 32 (b.toNat + 2 * c.toNat + 16 * k.val)
    w.getLsbD 0 = b ∧ w.getLsbD 1 = c ∧ (w.extractLsb' 4 4).toNat = k.val ∧
      w.extractLsb' 2 2 = 0 ∧ w.extractLsb' 8 24 = 0 := by
  decide

/-- Settles O9: STATUS is read whether or not the engine is busy, and its word has those fields. -/
theorem statusWordBits : Obligations.StatusWordBits := by
  intro s rest hh
  have hcode := code_le s.err
  obtain ⟨hbusy, hcmpne, herr, hlow, hhigh⟩ :=
    statusWord_fields s.busy s.cmpne ⟨s.err.code, Nat.lt_succ_of_le hcode⟩
  refine ⟨{ s with host := rest, readData := s.statusWord }, ?_, rfl, hbusy, hcmpne, herr, hcode, hlow,
    hhigh⟩
  rw [step_act hh]
  exact hostRead_load (.inr ⟨rfl, rfl⟩) (by decide) rfl

/-- Settles O10: the fields of the reset state. -/
theorem resetState : Obligations.ResetState :=
  ⟨rfl, rfl, rfl, rfl, rfl, fun _ => rfl⟩

/-- Settles O12: empty memory is canonical, ERRINFO is 0 and no command is in progress. -/
theorem invariantAtReset : Obligations.InvariantAtReset where
  memWf := reset_mem_wf
  infoOnlyOfXofFail _ := rfl
  busyHasNoError _ := rfl

end Sys2Proof.Machine


/-! # 20_memory.md: the invariant, the address map, and what a host access changes and gives back -/

namespace Sys2Proof.Machine

/-! ### The windows of the address map (20_memory.md R56) -/

/-- The offsets at which a region stands: the table of 20_memory.md R56, read from the region's side. -/
def Region.Window (off : Nat) : Region → Prop
  | .cmd => off < 0x04
  | .status => 0x04 ≤ off ∧ off < 0x08
  | .errInfo => 0x08 ≤ off ∧ off < 0x0C
  | .x i => 0x40 + 4 * i.val ≤ off ∧ off < 0x44 + 4 * i.val
  | .seed i => off = 0x80 + i.val
  | .storage => InStorage off
  | .rom k => off = 0x4000 + k ∧ k < 0x200
  | .reserved => 0x0C ≤ off ∧ off < 0x40 ∨ 0xA0 ≤ off ∧ off < 0x1000 ∨ 0x4200 ≤ off

/-- What the map finds at an offset is a region whose window holds it. -/
theorem window_regionAt (off : Nat) : (regionAt off).Window off := by
  unfold regionAt
  split_ifs <;> simp only [Region.Window, Fin.val_ofNat] <;> omega

theorem window_of_regionAt {off : Nat} {g : Region} (h : regionAt off = g) : g.Window off :=
  h ▸ window_regionAt off

theorem regionAt_seed : ∀ i : Fin 32, regionAt (0x80 + i.val) = .seed i := by decide

theorem regionAt_storage {off : Nat} (h : InStorage off) : regionAt off = .storage := by
  unfold regionAt
  iterate 7 rw [if_neg (by omega)]
  exact if_pos h.2

theorem regionAt_eq_reserved (off : Nat) :
    regionAt off = .reserved ↔ 0x0C ≤ off ∧ off < 0x40 ∨ 0xA0 ≤ off ∧ off < 0x1000 ∨ 0x4200 ≤ off := by
  have hw := window_regionAt off
  cases hr : regionAt off <;> rw [hr] at hw <;> simp only [Region.Window, reduceCtorEq, false_iff,
    true_iff] at hw ⊢ <;> omega

theorem wordOnly_regionAt (off : Nat) :
    (regionAt off).wordOnly = true ↔ off < 0x0C ∨ 0x40 ≤ off ∧ off < 0x80 := by
  have hw := window_regionAt off
  cases hr : regionAt off <;> rw [hr] at hw <;> simp only [Region.Window, Region.wordOnly,
    Bool.false_eq_true, false_iff, true_iff] at hw ⊢ <;> omega

/-- The accesses the map takes are those of 20_memory.md R58, window by window: every window begins and ends
at a multiple of 4, so an aligned access that begins in a window ends in it. -/
theorem accessOk_iff_readable (off n : Nat) : AccessOk off n ↔ Readable off n := by
  rw [AccessOk, ne_eq, regionAt_eq_reserved, wordOnly_regionAt]
  by_cases hn : n = 1 ∨ n = 2 ∨ n = 4
  · rcases hn with rfl | rfl | rfl <;> omega
  · refine iff_of_false (fun h => hn h.1) ?_
    rintro (⟨h, -⟩ | ⟨h, -⟩ | ⟨h, -⟩ | ⟨h, -⟩ | ⟨h, -⟩ | ⟨h, -⟩ | ⟨h, -⟩) <;> omega

/-! ### What a host access does (20_memory.md R57 to R59) -/

theorem hostRead_next {off n : Nat} {s t : State} (h : hostRead off n s = .next t) :
    ∃ v, s.load off n = some v ∧ t = { s with readData := v } := by
  unfold hostRead at h
  split_ifs at h
  obtain ⟨v, hv, ht⟩ := written_next.mp h
  exact ⟨v, hv, (Host.Outcome.next.inj ht).symm⟩

/-- A write that answers a next state was made while BUSY = 0 and taken by the map. -/
theorem accepted_of_hostWrite_next {off n : Nat} {v : Word} {s t : State}
    (h : hostWrite off n v s = .next t) : s.busy = false ∧ AccessOk off n := by
  unfold hostWrite at h
  split_ifs at h with hb hok
  exact ⟨Bool.eq_false_iff.mpr hb, hok⟩

/-- Every way a host write can leave the state, with the offsets at which it does so. -/
inductive HostWriteEffect (off n : Nat) (v : Word) (s : State) : State → Prop
  /-- CMD: the word is issued. -/
  | command (at_cmd : off < 0x04) (t : State) (run : issue v s = .next t) : HostWriteEffect off n v s t
  /-- STATUS: CLRERR. -/
  | status (at_status : 0x04 ≤ off ∧ off < 0x08) : HostWriteEffect off n v s (writeStatus v s)
  /-- ERRINFO: nothing. -/
  | ignored (at_errInfo : 0x08 ≤ off ∧ off < 0x0C) : HostWriteEffect off n v s s
  /-- A scalar register is written. -/
  | register (i : Fin 16) (at_x : off = 0x40 + 4 * i.val) :
      HostWriteEffect off n v s { s with x := s.x.set i v }
  /-- Bytes of SEED are written. -/
  | seed (i : Fin 32) (at_seed : off = 0x80 + i.val) :
      HostWriteEffect off n v s { s with seed := storeSeed s.seed i.val (wordBytes n v) }
  /-- Bytes of a buffer or of the slots are written. -/
  | storage (inside : 0x1000 ≤ off ∧ off + n ≤ 0x4000) :
      HostWriteEffect off n v s { s with mem := s.mem.writeRange off (wordBytes n v) }

/-- A host write that answers a next state has one of the effects. -/
theorem hostWrite_effect {off n : Nat} {v : Word} {s t : State} (h : hostWrite off n v s = .next t) :
    HostWriteEffect off n v s t := by
  obtain ⟨hb, hok⟩ := accepted_of_hostWrite_next h
  have hr := (accessOk_iff_readable off n).mp hok
  rw [hostWrite, if_neg (by simp [hb]), if_pos hok] at h
  cases hg : regionAt off with
  | cmd => rw [hg] at h; exact .command (window_of_regionAt hg) t h
  | status => rw [hg] at h; cases h; exact .status (window_of_regionAt hg)
  | errInfo => rw [hg] at h; cases h; exact .ignored (window_of_regionAt hg)
  | x i =>
    have hw : 0x40 + 4 * i.val ≤ off ∧ off < 0x44 + 4 * i.val := window_of_regionAt hg
    rw [hg] at h; cases h; exact .register i (by omega)
  | seed i => rw [hg] at h; cases h; exact .seed i (window_of_regionAt hg)
  | storage =>
    have hw : InStorage off := window_of_regionAt hg
    rw [hg] at h; cases h; exact .storage (by omega)
  | rom k => rw [hg] at h; cases h
  | reserved => rw [hg] at h; cases h

/-! ### The invariant (20_memory.md R56, 60_exceptions.md R281, 10_state.md R30) -/

@[simp] theorem length_wordBytes (n : Nat) (v : Word) : (wordBytes n v).length = n := by
  rw [wordBytes, List.length_map, List.length_range]

/-- The invariant speaks of memory, BUSY, ERR and ERRINFO only. -/
theorem State.Inv.of_fields {s t : State} (hs : s.Inv) (mem : t.mem.wf) (busy : t.busy = s.busy)
    (err : t.err = s.err) (errInfo : t.errInfo = s.errInfo) : t.Inv where
  memWf := mem
  infoOnlyOfXofFail := by rw [err, errInfo]; exact hs.infoOnlyOfXofFail
  busyHasNoError := by rw [busy, err]; exact hs.busyHasNoError

/-- Taking an error keeps the invariant, whatever happens to memory with it. -/
theorem inv_raise {s : State} (hm : s.mem.wf) (e : ErrCode) (info : Word) : (s.raise e info).Inv where
  memWf := hm
  infoOnlyOfXofFail := s.raise_errInfo_other e info
  busyHasNoError h := nomatch h

/-- A command that was accepted with ERR = 0 keeps the invariant. -/
theorem CommandEffect.inv {i : Instr} {s t : State} (h : CommandEffect i s t) (hs : s.Inv)
    (herr : s.err = .none) : t.Inv := by
  have hm := hs.memWf
  cases h with
  | raises e => exact inv_raise hm e 0
  | scalar | flag => exact hs.of_fields hm rfl rfl rfl
  | slot rd p _ len => exact hs.of_fields (writeSlot_wf hm rd p len) rfl rfl rfl
  | record bs blk S bytes _ inside len =>
    refine hs.of_fields (writeBuf_wf hm bs (blk.val * S) bytes ?_) rfl rfl rfl
    rw [len]; exact record_inside inside
  | samples rest rd p _ _ len =>
    exact hs.of_fields (writeSlot_wf (s := s.setAnswers rest) hm rd p len) rfl rfl rfl
  | loses rest rd e info => exact inv_raise (eraseSlot_wf (s := s.setAnswers rest) hm rd.val) e info
  | hangs => exact ⟨hm, hs.infoOnlyOfXofFail, fun _ => herr⟩

theorem inv_of_issue {w : Word} {s t : State} (hs : s.Inv) (h : issue w s = .next t) : t.Inv := by
  by_cases herr : s.err = .none
  · cases hd : decode w with
    | ok i => exact (exec_effect ((issue_ok herr hd).symm.trans h)).inv hs herr
    | error e => cases (issue_error herr hd).symm.trans h; exact inv_raise hs.memWf _ 0
  · cases (issue_ignored w herr).symm.trans h; exact hs

theorem inv_writeStatus {s : State} (hs : s.Inv) (v : Word) : (writeStatus v s).Inv := by
  unfold writeStatus
  split_ifs
  · exact ⟨hs.memWf, fun _ => rfl, fun _ => rfl⟩
  · exact hs

theorem HostWriteEffect.inv {off n : Nat} {v : Word} {s t : State} (h : HostWriteEffect off n v s t)
    (hs : s.Inv) : t.Inv := by
  cases h with
  | command _ _ run => exact inv_of_issue hs run
  | status => exact inv_writeStatus hs v
  | ignored => exact hs
  | register | seed => exact hs.of_fields hs.memWf rfl rfl rfl
  | storage inside =>
    refine hs.of_fields (writeRange_wf hs.memWf fun _ => ?_) rfl rfl rfl
    rwa [length_wordBytes]

theorem inv_platformReset (s : State) : s.platformReset.Inv :=
  ⟨reset_mem_wf, fun _ => rfl, fun _ => rfl⟩

/-- Every action of the outside keeps the invariant. -/
theorem inv_of_hostAct {a : HostAction} {s t : State} (hs : s.Inv) (h : hostAct a s = .next t) :
    t.Inv := by
  cases a with
  | read off n =>
    obtain ⟨v, -, rfl⟩ := hostRead_next h
    exact hs.of_fields hs.memWf rfl rfl rfl
  | write off n v => exact (hostWrite_effect h).inv hs
  | reset => cases h; exact inv_platformReset s

/-- Settles O13: the machine idles or one action of the outside acts, and each effect of a command, of a
write, of a read and of a reset keeps the invariant. -/
theorem stepKeepsInvariant : Obligations.StepKeepsInvariant := by
  intro s t hs h
  cases hh : s.host with
  | nil => cases (step_idle hh).symm.trans h; exact hs
  | cons a rest =>
    have hs' : ({ s with host := rest } : State).Inv := hs.of_fields hs.memWf rfl rfl rfl
    exact inv_of_hostAct hs' ((step_act hh).symm.trans h)

/-! ### What is refused (20_memory.md R57, R58) -/

/-- A result that is refused, if at all, for the violated contract of a command (60_exceptions.md R290). -/
def RefusesOnlyContract (k : Result) : Prop := ∀ r, k = .refused r → r = .contractViolation

namespace RefusesOnlyContract

theorem next (s : State) : RefusesOnlyContract (.next s) := fun _ h => nomatch h

theorem requiring {pre : Prop} [Decidable pre] {k : Result} (hk : RefusesOnlyContract k) :
    RefusesOnlyContract (Machine.requiring pre k) := by
  unfold Machine.requiring
  split_ifs
  · exact hk
  · exact fun r h => (Host.Outcome.refused.inj h).symm

theorem written {α : Type} {v : Option α} {k : α → Result} (hk : ∀ a, RefusesOnlyContract (k a)) :
    RefusesOnlyContract (Machine.written v k) := by
  cases v with
  | some a => exact hk a
  | none => exact fun _ h => nomatch h

theorem unlessError {legal : Prop} [Decidable legal] {e : ErrCode} {s : State} {k : Result}
    (hk : RefusesOnlyContract k) : RefusesOnlyContract (Machine.unlessError legal e s k) := by
  unfold Machine.unlessError
  split_ifs
  · exact hk
  · exact next _

theorem execPointwise (f : Int → Int → Int) (rd ra rb : Slot) (s : State) :
    RefusesOnlyContract (Machine.execPointwise f rd ra rb s) :=
  written fun _ => written fun _ => requiring (next _)

theorem execPack {S : Nat} {pre : Int → Prop} [DecidablePred pre] {f : List Int → List Byte}
    {ra : Slot} {bs : BufSel} {blk : Blk} {s : State} :
    RefusesOnlyContract (Machine.execPack S pre f ra bs blk s) :=
  unlessError (written fun _ => requiring (next _))

theorem execUnpack {S : Nat} {f : List Byte → List Int} {rd : Slot} {bs : BufSel} {blk : Blk} {s : State} :
    RefusesOnlyContract (Machine.execUnpack S f rd bs blk s) :=
  unlessError (written fun _ => next _)

theorem execGetnoise (eta : Nat) (rd : Slot) (nonce : Byte) (s : State) :
    RefusesOnlyContract (Machine.execGetnoise eta rd nonce s) := by
  rw [execGetnoise_eq]; exact next _

end RefusesOnlyContract

/-- No command is refused for another reason than its contract. -/
theorem exec_refusesOnlyContract (i : Instr) (s : State) : RefusesOnlyContract (exec i s) := by
  cases i with
  | montred | csubq | montmul => exact .requiring (.next _)
  | barrett => exact .next _
  | basemul => exact .unlessError (.requiring (.next _))
  | pbarrett => exact .written fun _ => .next _
  | pcsubq | ntt | intt => exact .written fun _ => .requiring (.next _)
  | padd | psub => exact .execPointwise _ _ _ _ s
  | pwacc => exact .unlessError (.written fun _ => .written fun _ => .requiring (.next _))
  | compressD4 | compressD5 | compressD10 | compressD11 | tomsg | tobytes => exact .execPack
  | cbdEta2 | cbdEta3 | decompressD4 | decompressD5 | decompressD10 | decompressD11 | frommsg
  | frombytes => exact .execUnpack
  | getnoiseEta2 | getnoiseEta3 => exact .execGetnoise _ _ _ s
  | gena => exact .next _
  | ctcmp => exact .unlessError (.written fun _ => .written fun _ => .next _)

theorem issue_ne_busError (w : Word) (s : State) : issue w s ≠ .refused .busError := by
  intro h
  by_cases herr : s.err = .none
  · cases hd : decode w with
    | ok i => exact nomatch exec_refusesOnlyContract i s _ ((issue_ok herr hd).symm.trans h)
    | error e => exact nomatch (issue_error herr hd).symm.trans h
  · exact nomatch (issue_ignored w herr).symm.trans h

theorem hostRead_busError_iff {s : State} (off n : Nat) (hb : s.busy = false) :
    hostRead off n s = .refused .busError ↔ ¬AccessOk off n := by
  refine ⟨fun h hok => ?_, hostRead_busError hb⟩
  rw [hostRead, if_neg (by simp [hb]), if_pos hok] at h
  cases hl : s.load off n <;> rw [hl] at h <;> cases h

/-- A write is refused where a read is, and in the ROM's window, the last of the map (20_memory.md R57). -/
theorem hostWrite_busError_iff {s : State} (off n : Nat) (v : Word) (hb : s.busy = false) :
    hostWrite off n v s = .refused .busError ↔ ¬(AccessOk off n ∧ off < 0x4000) := by
  by_cases hok : AccessOk off n
  · rw [hostWrite, if_neg (by simp [hb]), if_pos hok, and_iff_right hok]
    have hw := window_regionAt off
    cases hg : regionAt off <;> rw [hg] at hw <;> simp only [Region.Window] at hw
    case cmd => exact iff_of_false (issue_ne_busError v s) (by omega)
    case rom => exact iff_of_true rfl (by omega)
    case reserved => exact absurd hg hok.2.2.1
    all_goals exact iff_of_false nofun (by omega)
  · exact iff_of_true (hostWrite_busError v hb hok) fun h => hok h.1

/-- Settles O17: the accesses the map takes are the readable ones, and a write is not taken by the ROM. -/
theorem addressMapRefusals : Obligations.AddressMapRefusals := by
  intro s rest off n v hb
  rw [← accessOk_iff_readable]
  refine ⟨fun hh => ?_, fun hh => ?_⟩ <;> rw [step_act hh]
  · exact hostRead_busError_iff off n hb
  · exact hostWrite_busError_iff off n v hb

/-! ### What an access leaves unchanged (20_memory.md R59) -/

theorem getElem_storeSeed_outside (seed : Vector Byte 32) (i : Nat) (bs : List Byte) {j : Nat} (hj : j < 32)
    (h : j < i ∨ i + bs.length ≤ j) : (storeSeed seed i bs)[j] = seed[j] := by
  induction bs generalizing seed i with
  | nil => rfl
  | cons b bs ih =>
    rw [List.length_cons] at h
    rw [storeSeed, ih _ _ (by omega)]
    exact Vector.getElem_setIfInBounds_ne hj (by omega)

/-- A write at ERRINFO or above changes only what stands at its own bytes. -/
theorem HostWriteEffect.frame {off n : Nat} {v : Word} {s t : State} (h : HostWriteEffect off n v s t)
    (hoff : 0x08 ≤ off) :
    SameStatus s t ∧ SameOutside s t ∧ SameMemoryBut off n s t ∧
      (∀ i : Fin 16, off ≠ 0x40 + 4 * i.val → t.x[i] = s.x[i]) ∧
      (∀ i : Fin 32, 0x80 + i.val < off ∨ off + n ≤ 0x80 + i.val → t.seed[i] = s.seed[i]) := by
  cases h with
  | command at_cmd => omega
  | status at_status => omega
  | ignored => exact ⟨⟨rfl, rfl, rfl, rfl⟩, ⟨rfl, rfl, rfl⟩, fun _ _ => rfl, fun _ _ => rfl, fun _ _ => rfl⟩
  | register i at_x =>
    refine ⟨⟨rfl, rfl, rfl, rfl⟩, ⟨rfl, rfl, rfl⟩, fun _ _ => rfl, fun j hj => ?_, fun _ _ => rfl⟩
    exact Vector.getElem_set_ne (by omega) (by omega) (by omega)
  | seed i at_seed =>
    refine ⟨⟨rfl, rfl, rfl, rfl⟩, ⟨rfl, rfl, rfl⟩, fun _ _ => rfl, fun _ _ => rfl, fun j hj => ?_⟩
    exact getElem_storeSeed_outside _ _ _ j.isLt (by rw [length_wordBytes]; omega)
  | storage =>
    refine ⟨⟨rfl, rfl, rfl, rfl⟩, ⟨rfl, rfl, rfl⟩, fun b hb => ?_, fun _ _ => rfl, fun _ _ => rfl⟩
    exact read_writeRange_outside _ _ _ _ (by rwa [length_wordBytes])

/-- Settles O18: the one effect of a read, and the frames of the effects of a write. -/
theorem hostAccessSideEffects : Obligations.HostAccessSideEffects := by
  intro s t off n v
  refine ⟨fun h => ?_, fun h => (hostWrite_effect h).frame⟩
  obtain ⟨w, -, rfl⟩ := hostRead_next h
  rfl

/-! ### Words as bytes, the lowest address lowest (20_memory.md R53) -/

/-- Bit `i` of the word of some bytes is bit `i` of their stream; the bits above them are 0. -/
theorem getLsbD_wordOfBytes (bs : List Byte) (i : Nat) :
    (wordOfBytes bs).getLsbD i = (decide (i < 32) && bitLSB bs i) := by
  induction bs generalizing i with
  | nil => simp [wordOfBytes, bitLSB]
  | cons b bs ih =>
    simp only [wordOfBytes, BitVec.getLsbD_or, BitVec.getLsbD_setWidth, BitVec.getLsbD_shiftLeft, ih, bitLSB]
    by_cases h : i < 8
    · have hq : i / 8 = 0 := by omega
      have hm : i % 8 = i := by omega
      simp [h, hq, hm]
    · have hq : i / 8 = (i - 8) / 8 + 1 := by omega
      have hm : i % 8 = (i - 8) % 8 := by omega
      have hb : b.getLsbD i = false := BitVec.getLsbD_of_ge b i (by omega)
      by_cases h32 : i < 32
      · have h24 : i - 8 < 32 := by omega
        simp [h, h32, h24, hq, hm, hb]
      · simp [h32]

/-- Bit `i` of `n` numbered bytes. -/
theorem bitLSB_range (n i : Nat) (f : Nat → Byte) :
    bitLSB ((List.range n).map f) i = (decide (i < 8 * n) && (f (i / 8)).getLsbD (i % 8)) := by
  by_cases h : i < 8 * n
  · have hq : i / 8 < n := by omega
    simp [bitLSB, h, hq]
  · have hq : n ≤ i / 8 := by omega
    simp [bitLSB, h, hq]

theorem wordOfBytes_lt (n : Nat) (f : Nat → Byte) :
    (wordOfBytes ((List.range n).map f)).toNat < 2 ^ (8 * n) := by
  refine Nat.lt_pow_two_of_testBit _ fun i hi => ?_
  have hbit : (wordOfBytes ((List.range n).map f)).getLsbD i = false := by
    rw [getLsbD_wordOfBytes, bitLSB_range, decide_eq_false (Nat.not_lt.mpr hi)]; simp
  exact hbit

/-- Each byte of a word of at most four bytes is the byte it was made of. -/
theorem extractLsb'_wordOfBytes {n k : Nat} (f : Nat → Byte) (hn : n ≤ 4) (hk : k < n) :
    (wordOfBytes ((List.range n).map f)).extractLsb' (8 * k) 8 = f k := by
  apply BitVec.eq_of_getLsbD_eq
  intro j hj
  have h32 : 8 * k + j < 32 := by omega
  have hbits : 8 * k + j < 8 * n := by omega
  have hq : (8 * k + j) / 8 = k := by omega
  have hm : (8 * k + j) % 8 = j := by omega
  rw [BitVec.getLsbD_extractLsb', getLsbD_wordOfBytes, bitLSB_range, hq, hm]
  simp [hj, h32, hbits]

/-- A word that fits the bytes stored of it is the word of those bytes. -/
theorem wordOfBytes_wordBytes {n : Nat} {v : Word} (hv : v.toNat < 2 ^ (8 * n)) :
    wordOfBytes (wordBytes n v) = v := by
  apply BitVec.eq_of_getLsbD_eq
  intro i hi
  have hi' : 8 * (i / 8) + i % 8 = i := Nat.div_add_mod i 8
  have hm : i % 8 < 8 := by omega
  rw [getLsbD_wordOfBytes, wordBytes, bitLSB_range, BitVec.getLsbD_extractLsb', hi']
  by_cases hn : i < 8 * n
  · simp [hi, hn, hm]
  · have hbit : v.getLsbD i = false :=
      Nat.testBit_lt_two_pow (hv.trans_le (Nat.pow_le_pow_right (by omega) (by omega)))
    simp [hn, hbit]

theorem wordOfBytes_singleton (b : Byte) : wordOfBytes [b] = b.zeroExtend 32 := by
  simp [wordOfBytes]

theorem toNat_wordOfBytes_singleton (b : Byte) : (wordOfBytes [b]).toNat = b.toNat := by
  rw [wordOfBytes_singleton]
  exact BitVec.toNat_setWidth_of_le (by omega)

/-- Four bytes are two 16-bit units, each with its low byte first. -/
theorem wordOfBytes_four (b0 b1 b2 b3 : Byte) :
    wordOfBytes [b0, b1, b2, b3] = ((b3 ++ b2 : Coeff) ++ (b1 ++ b0 : Coeff) : BitVec (16 + 16)) := by
  apply BitVec.eq_of_getLsbD_eq
  intro i hi
  have hk : i / 8 < 4 := by omega
  simp only [getLsbD_wordOfBytes, bitLSB, BitVec.getLsbD_append, hi, decide_true, Bool.true_and]
  interval_cases hq : i / 8
  · have hm : i % 8 = i := by omega
    simp [hm, show i < 8 by omega, show i < 16 by omega]
  · have hm : i % 8 = i - 8 := by omega
    simp [hm, show ¬i < 8 by omega, show i < 16 by omega]
  · have hm : i % 8 = i - 16 := by omega
    simp [hm, show ¬i < 16 by omega, show i - 16 < 8 by omega]
  · have hm : i % 8 = i - 16 - 8 := by omega
    simp [hm, show ¬i < 16 by omega, show ¬i - 16 < 8 by omega]

/-! ### Reads and writes of the byte-addressed windows the host may write (20_memory.md R56) -/

/-- An access to SEED, to a buffer or to the slots. -/
abbrev StoredAccess (off n : Nat) : Prop :=
  ByteAccess 0x80 0xA0 off n ∨ ByteAccess 0x1000 0x1800 off n ∨ ByteAccess 0x1800 0x2000 off n ∨
    ByteAccess 0x2000 0x4000 off n

theorem StoredAccess.accessOk {off n : Nat} (h : StoredAccess off n) : AccessOk off n :=
  (accessOk_iff_readable off n).mpr (.inr (h.imp_right (.imp_right (.imp_right .inl))))

theorem StoredAccess.size_le {off n : Nat} (h : StoredAccess off n) : n ≤ 4 := by
  have := h.accessOk.1
  omega

theorem StoredAccess.seed_or_storage {off n : Nat} (h : StoredAccess off n) :
    (∃ i : Fin 32, off = 0x80 + i.val ∧ i.val + n ≤ 32) ∨ 0x1000 ≤ off ∧ off + n ≤ 0x4000 := by
  have hn := h.accessOk.1
  rcases h with ⟨-, -, hlo, hhi⟩ | ⟨-, -, hlo, hhi⟩ | ⟨-, -, hlo, hhi⟩ | ⟨-, -, hlo, hhi⟩
  · exact .inl ⟨⟨off - 0x80, by omega⟩, by simp; omega⟩
  all_goals exact .inr (by omega)

/-- Each byte of an access can be accessed alone. -/
theorem StoredAccess.byte {off n k : Nat} (h : StoredAccess off n) (hk : k < n) :
    StoredAccess (off + k) 1 := by
  unfold StoredAccess ByteAccess at *
  omega

theorem byteAt_seed (s : State) {i : Nat} (hi : i < 32) : s.byteAt (0x80 + i) = some s.seed[i] := by
  rw [State.byteAt, regionAt_seed ⟨i, hi⟩]
  rfl

theorem byteAt_storage (s : State) {a : Nat} (ha : InStorage a) : s.byteAt a = s.mem.read a := by
  rw [State.byteAt, regionAt_storage ha]

/-- A collected read that succeeds everywhere. -/
theorem mapM_eq_some_map {α β : Type} {f : α → Option β} {g : α → β} {l : List α}
    (h : ∀ a ∈ l, f a = some (g a)) : l.mapM f = some (l.map g) := by
  induction l with
  | nil => rfl
  | cons a l ih =>
    rw [List.mapM_cons, h a List.mem_cons_self, ih fun b hb => h b (List.mem_cons_of_mem a hb)]
    rfl

/-- A read of bytes that hold values gives the word of them. -/
theorem hostRead_bytes {s : State} {off n : Nat} {f : Nat → Byte} (hb : s.busy = false)
    (h : StoredAccess off n) (hf : ∀ k < n, s.byteAt (off + k) = some (f k)) :
    hostRead off n s = .next { s with readData := wordOfBytes ((List.range n).map f) } := by
  have hmap := mapM_eq_some_map (f := fun k => s.byteAt (off + k)) (g := f) (l := List.range n)
    fun k hk => hf k (List.mem_range.mp hk)
  refine hostRead_load (.inl hb) h.accessOk ?_
  have hn := h.accessOk.1
  rcases h.seed_or_storage with ⟨i, rfl, -⟩ | ⟨hlo, hhi⟩
  · rw [State.load, regionAt_seed i, hmap]; rfl
  · rw [State.load, regionAt_storage ⟨hlo, by omega⟩, hmap]; rfl

theorem getElem_storeSeed_inside (seed : Vector Byte 32) (i : Nat) (bs : List Byte) {j k : Nat}
    (hj : j < 32) (hk : k < bs.length) (h : j = i + k) : (storeSeed seed i bs)[j] = bs[k] := by
  induction bs generalizing seed i k with
  | nil => cases hk
  | cons b bs ih =>
    cases k with
    | zero =>
      obtain rfl : j = i := h
      rw [storeSeed, getElem_storeSeed_outside _ _ _ hj (.inl (Nat.lt_succ_self j))]
      exact Vector.getElem_setIfInBounds_self hj
    | succ k => exact ih _ _ (Nat.lt_of_succ_lt_succ hk) (by omega)

theorem hostWrite_seed {s : State} {n : Nat} {i : Fin 32} (v : Word) (hb : s.busy = false)
    (hok : AccessOk (0x80 + i.val) n) :
    hostWrite (0x80 + i.val) n v s =
      .next { s with seed := storeSeed s.seed i.val (wordBytes n v) } := by
  rw [hostWrite, if_neg (by simp [hb]), if_pos hok, regionAt_seed]

theorem hostWrite_storage {s : State} {off n : Nat} (v : Word) (hb : s.busy = false)
    (hok : AccessOk off n) (h : InStorage off) :
    hostWrite off n v s = .next { s with mem := s.mem.writeRange off (wordBytes n v) } := by
  rw [hostWrite, if_neg (by simp [hb]), if_pos hok, regionAt_storage h]

theorem hostAct_hostWriteX {s : State} (i : Fin 16) (v : Word) (hb : s.busy = false) :
    hostAct (hostWriteX i v) s = .next { s with x := s.x.set i v } := by
  change hostWrite (0x40 + 4 * i.val) 4 v s = _
  rw [hostWrite, if_neg (by simp [hb]), if_pos (accessOk_x i), regionAt_x]

/-- A write puts the bytes of its value at its offsets, bits 7:0 at the lowest. -/
theorem hostWrite_bytes {s : State} {off n : Nat} (v : Word) (hb : s.busy = false)
    (h : StoredAccess off n) :
    ∃ t, hostWrite off n v s = .next t ∧ t.busy = false ∧
      ∀ k < n, t.byteAt (off + k) = some (v.extractLsb' (8 * k) 8) := by
  have hn := h.accessOk.1
  rcases h.seed_or_storage with ⟨i, rfl, hi⟩ | ⟨hlo, hhi⟩
  · refine ⟨_, hostWrite_seed v hb h.accessOk, hb, fun k hk => ?_⟩
    have hlen : k < (wordBytes n v).length := by rwa [length_wordBytes]
    rw [Nat.add_assoc, byteAt_seed _ (by omega), getElem_storeSeed_inside _ _ _ _ hlen rfl]
    simp [wordBytes]
  · refine ⟨_, hostWrite_storage v hb h.accessOk ⟨hlo, by omega⟩, hb, fun k hk => ?_⟩
    rw [byteAt_storage _ ⟨by omega, by omega⟩,
      read_writeRange_inside _ _ _ _ (by rw [length_wordBytes]; omega)]
    simp [wordBytes, hk]

/-- A value that fits the width of its write is read back at that width. -/
theorem hostWrite_then_hostRead {s : State} {off n : Nat} {v : Word} (hb : s.busy = false)
    (h : StoredAccess off n) (hv : v.toNat < 2 ^ (8 * n)) :
    ∃ t u, hostAct (.write off n v) s = .next t ∧ hostAct (.read off n) t = .next u ∧
      u.readData = v := by
  obtain ⟨t, ht, htb, hbytes⟩ := hostWrite_bytes v hb h
  exact ⟨t, _, ht, hostRead_bytes htb h hbytes, wordOfBytes_wordBytes hv⟩

/-! ### The accesses of the abstract accessors (20_memory.md R51) -/

theorem storedAccess_slot {r : Slot} {j n : Nat} (hn : n = 1 ∨ n = 2 ∨ n = 4) (hj : j % n = 0)
    (hin : j + n ≤ 512) : StoredAccess (slotBase r.val + j) n := by
  have hr := r.isLt
  unfold StoredAccess ByteAccess slotBase
  rcases hn with rfl | rfl | rfl <;> omega

theorem storedAccess_buf {b : BufSel} {o n : Nat} (hn : n = 1 ∨ n = 2 ∨ n = 4) (ho : o % n = 0)
    (hin : o + n ≤ 2048) : StoredAccess (bufBase b + o) n := by
  unfold StoredAccess ByteAccess
  cases b <;> simp only [bufBase] <;> rcases hn with rfl | rfl | rfl <;> omega

theorem storedAccess_seed {i n : Nat} (hn : n = 1 ∨ n = 2 ∨ n = 4) (hi : i % n = 0)
    (hin : i + n ≤ 32) : StoredAccess (0x80 + i) n := by
  unfold StoredAccess ByteAccess
  rcases hn with rfl | rfl | rfl <;> omega

/-- Settles O19: a write puts the bytes of its value at its offsets, and a read of any width gives the word of
the bytes it finds. -/
theorem hostWriteThenRead : Obligations.HostWriteThenRead := by
  intro s hb
  refine ⟨fun i v => ?register, fun r i v => ?coeff, fun b o v => ?buf, fun i v => ?seed,
    fun off n v h => ?bytes⟩
  case register =>
    refine ⟨_, _, hostAct_hostWriteX i v hb, hostAct_hostReadX i hb, ?_⟩
    exact Vector.getElem_set_self i.isLt
  case coeff =>
    exact hostWrite_then_hostRead hb (storedAccess_slot (by omega) (by omega) (by omega)) (by simp; omega)
  case buf =>
    exact hostWrite_then_hostRead hb (storedAccess_buf (by omega) (by omega) (by omega)) (by simp; omega)
  case seed =>
    exact hostWrite_then_hostRead hb (storedAccess_seed (by omega) (by omega) (by omega)) (by simp; omega)
  case bytes =>
    obtain ⟨t, ht, htb, hbytes⟩ := hostWrite_bytes v hb h
    refine ⟨t, ht, fun k hk => ⟨_, hostRead_bytes (f := fun _ => v.extractLsb' (8 * k) 8) htb
      (StoredAccess.byte h hk) ?_,
      wordOfBytes_singleton _⟩⟩
    intro j hj
    obtain rfl : j = 0 := by omega
    exact hbytes k hk

/-- The coefficients of a byte string, one by one, low byte first. -/
theorem getD_coeffsOfBytes : ∀ (bs : List Byte) (i : Nat), 2 * i + 1 < bs.length →
    (coeffsOfBytes bs).getD i 0 = (bs.getD (2 * i + 1) 0 ++ bs.getD (2 * i) 0 : Coeff).toInt
  | lo :: hi :: bs, 0, _ => rfl
  | lo :: hi :: bs, i + 1, h => getD_coeffsOfBytes bs i (by simp at h; omega)
  | [lo], i, h => by simp at h
  | [], i, h => by simp at h

/-- A slot that holds values holds the bytes of its coefficients. -/
theorem bytes_of_readSlot {s : State} {r : Slot} {p : List Int} (h : s.readSlot r.val = some p) :
    ∃ f : Nat → Byte, (∀ j < 512, s.byteAt (slotBase r.val + j) = some (f j)) ∧
      ∀ i < 256, p.getD i 0 = (f (2 * i + 1) ++ f (2 * i) : Coeff).toInt := by
  obtain ⟨bs, hbs, rfl⟩ := Option.map_eq_some_iff.mp h
  have hlen : bs.length = 512 := readRange_length hbs
  refine ⟨fun j => bs.getD j 0, fun j hj => ?_, fun i hi => getD_coeffsOfBytes bs i (by omega)⟩
  have hr := r.isLt
  have hin : InStorage (slotBase r.val + j) := by unfold slotBase; omega
  rw [byteAt_storage s hin, read_of_readRange hbs j hj, List.getElem?_eq_getElem (by omega)]
  simp [hlen, hj]

/-- The low byte of a coefficient is its residue modulo 256, whatever its sign. -/
theorem toInt_append_emod (hi lo : Byte) : (hi ++ lo : Coeff).toInt % 256 = lo.toNat := by
  rw [BitVec.toInt_eq_toNat_cond, BitVec.toNat_append, ← Nat.shiftLeft_add_eq_or_of_lt lo.isLt,
    Nat.shiftLeft_eq]
  split_ifs <;> omega

/-- Settles O20: a read gives the word of the bytes it finds, and the bytes of a slot are two for each
coefficient. -/
theorem mixedWidthRead : Obligations.MixedWidthRead := by
  intro s hb
  refine ⟨fun r i p hp => ?slot, fun b o n bytes hn ho hin hbuf => ?buf, fun i n hn hi hin => ?seed⟩
  case slot =>
    obtain ⟨f, hf, hcoeff⟩ := bytes_of_readSlot hp
    have hbyte : ∀ k < 4, s.byteAt (slotBase r.val + 4 * i.val + k) = some (f (4 * i.val + k)) :=
      fun k hk => by rw [Nat.add_assoc]; exact hf _ (by omega)
    constructor
    · refine ⟨_, hostRead_bytes hb (storedAccess_slot (by omega) (by omega) (by omega)) hbyte, ?_⟩
      rw [hcoeff _ (by omega), hcoeff _ (by omega), BitVec.ofInt_toInt, BitVec.ofInt_toInt]
      have hlow : 2 * (2 * i.val) = 4 * i.val := by omega
      have hhigh : 2 * (2 * i.val + 1) = 4 * i.val + 2 := by omega
      rw [hlow, hhigh]
      exact wordOfBytes_four ..
    · refine ⟨_, hostRead_bytes hb (storedAccess_slot (by omega) (by omega) (by omega))
        fun k hk => hbyte k (by omega), ?_⟩
      rw [hcoeff _ (by omega), toInt_append_emod]
      have hlow : 2 * (2 * i.val) = 4 * i.val := by omega
      rw [hlow]
      exact congrArg Nat.cast (toNat_wordOfBytes_singleton _)
  case buf =>
    have hlen := readBuf_length hbuf
    have hacc := storedAccess_buf (b := b) hn ho hin
    refine ⟨_, hostRead_bytes (f := fun k => bytes.getD k 0) hb hacc fun k hk => ?_,
      wordOfBytes_lt n _, fun k hk => extractLsb'_wordOfBytes _ hacc.size_le hk⟩
    have hbase := bufBase_bounds b
    rw [byteAt_storage s ⟨by omega, by omega⟩, read_of_readRange hbuf k hk,
      List.getElem?_eq_getElem (by omega)]
    simp [hlen, hk]
  case seed =>
    have hacc := storedAccess_seed hn hi hin
    refine ⟨_, hostRead_bytes (f := fun k => s.seed.getD (i + k) 0) hb hacc fun k hk => ?_,
      wordOfBytes_lt n _, fun k hk => extractLsb'_wordOfBytes _ hacc.size_le hk⟩
    rw [Nat.add_assoc, byteAt_seed s (by omega)]
    simp [Vector.getD, show i + k < 32 by omega]

end Sys2Proof.Machine

/-! # 30_encoding.md: the decoder and the encoder against each other -/

namespace Sys2Proof

open Laws.OpcodeByte (opcodeOf_encodeFields recordImm_lt)

/-! ### The fields of a word (30_encoding.md R80) -/

theorem fieldsOf_imm_lt (w : Word) : (fieldsOf w).imm < 4096 := Nat.mod_lt _ (by decide)

/-- A word is its opcode and its fields: no bit lies outside them. -/
theorem encodeFields_fieldsOf (w : Word) :
    encodeFields (opcodeOf w) (fieldsOf w).rd (fieldsOf w).ra (fieldsOf w).rb (fieldsOf w).imm = w := by
  apply BitVec.eq_of_toNat_eq
  simp only [encodeFields, opcodeOf, fieldsOf, BitVec.toNat_ofNat, Fin.val_ofNat]
  omega

theorem fieldsOf_encodeFields {op imm : Nat} (rd ra rb : Fin 16) (hi : imm < 4096) :
    fieldsOf (encodeFields op rd ra rb imm) = ⟨rd, ra, rb, imm⟩ := by
  simp only [fieldsOf, encodeFields, BitVec.toNat_ofNat, Fields.mk.injEq, Fin.ext_iff, Fin.val_ofNat]
  omega

theorem decode_encodeFields {op imm : Nat} (rd ra rb : Fin 16) (ho : op < 256) (hi : imm < 4096) :
    decode (encodeFields op rd ra rb imm) = decodeFields op ⟨rd, ra, rb, imm⟩ := by
  rw [decode, opcodeOf_encodeFields _ _ _ ho hi, fieldsOf_encodeFields _ _ _ hi]

/-! ### The immediates with more than one field (30_encoding.md R81, R82) -/

@[simp] theorem Fields.bs_recordImm (rd ra rb : Fin 16) (bs : BufSel) (blk : Blk) :
    (Fields.mk rd ra rb (recordImm bs blk)).bs = bs := by
  cases bs
  · exact if_neg (by simp only [recordImm]; omega)
  · exact if_pos (by simp only [recordImm]; omega)

@[simp] theorem Fields.blk_recordImm (rd ra rb : Fin 16) (bs : BufSel) (blk : Blk) :
    (Fields.mk rd ra rb (recordImm bs blk)).blk = blk := by
  cases bs <;> simp only [Fields.blk, recordImm, Fin.ext_iff, Fin.val_ofNat] <;> omega

@[simp] theorem Fields.recordZeros_recordImm (rd ra rb : Fin 16) (bs : BufSel) (blk : Blk) :
    (Fields.mk rd ra rb (recordImm bs blk)).recordZeros = true := by
  cases bs <;> simp only [Fields.recordZeros, recordImm, beq_iff_eq] <;> omega

/-- A record immediate whose must-be-zero bits are 0 is the one of the record it names. -/
theorem recordImm_bs_blk {f : Fields} (hi : f.imm < 4096) (hz : f.recordZeros = true) :
    recordImm f.bs f.blk = f.imm := by
  rw [Fields.recordZeros, beq_iff_eq] at hz
  unfold Fields.bs
  split <;> simp only [recordImm, Fields.blk, Fin.val_ofNat] <;> omega

/-- The immediate of BASEMUL has 8 bits, of which bit 7 is `neg` and the rest is `zi`. -/
theorem basemulImm_fields (neg : Bool) (zi : Fin 128) :
    (if neg then 128 else 0) + zi.val < 256 ∧
    (((if neg then 128 else 0) + zi.val) / 128 % 2 == 1) = neg ∧
    Fin.ofNat 128 ((if neg then 128 else 0) + zi.val) = zi := by
  cases neg <;> simp [Fin.ext_iff] <;> omega

/-- BASEMUL: with bits 11:8 zero, the immediate is what its two fields make. -/
theorem basemulImm_eq {imm : Nat} (hz : imm / 256 = 0) :
    (if imm / 128 % 2 = 1 then 128 else 0) + imm % 128 = imm := by
  split <;> omega

/-- GENA: with bits 11:1 zero, the immediate is its flag. -/
theorem genaImm_eq {imm : Nat} (hz : imm / 2 = 0) : (if imm = 1 then 1 else 0) = imm := by
  split <;> omega

/-- The other formats: with the bits above its one field zero, the immediate is that field. -/
theorem imm_mod_eq_self {imm n : Nat} (hz : imm / n = 0) : imm % n = imm := by
  simpa [hz] using Nat.div_add_mod imm n

/-! ### The checks after the opcode (30_encoding.md R84, steps 2 and 3) -/

theorem checked_eq_ok_iff {zeros : Bool} {i j : Instr} :
    checked zeros i = .ok j ↔ zeros = true ∧ i.wellFormed = true ∧ i = j := by
  unfold checked
  split_ifs with hfield hrange <;> simp_all [Instr.wellFormed]

theorem checked_eq_bufRange_iff {zeros : Bool} {i : Instr} :
    checked zeros i = .error .bufRange ↔
      zeros = true ∧ i.fieldsLegal = true ∧ i.rangeLegal = false := by
  unfold checked
  split_ifs with hfield hrange <;> simp_all

theorem checked_eq_illegalField_iff {zeros : Bool} {i : Instr} :
    checked zeros i = .error .illegalField ↔ ¬(zeros = true ∧ i.fieldsLegal = true) := by
  unfold checked
  split_ifs with hfield hrange <;> simp_all

theorem checked_ne_illegalOpcode {zeros : Bool} {i : Instr} :
    checked zeros i ≠ .error .illegalOpcode := by
  unfold checked
  split_ifs with hfield hrange <;> simp_all

/-! ### Decoding an encoded command -/

/-- Every term of `Instr`, legal or not, is what its word spells: the must-be-zero bits are 0 and only the
constraints on the fields are left to check. -/
theorem decode_encode (i : Instr) : decode (encode i) = checked true i := by
  cases i with
  | montred rd ra | barrett rd ra | csubq rd ra | pbarrett rd ra | pcsubq rd ra | ntt rd | intt rd
  | montmul rd ra rb | padd rd ra rb | psub rd ra rb =>
    exact decode_encodeFields (imm := 0) _ _ _ (by simp) (by simp)
  | basemul rd ra rb neg zi =>
    obtain ⟨hlt, hneg, hzi⟩ := basemulImm_fields neg zi
    rw [encode, decode_encodeFields _ _ _ (by decide) (by omega)]
    simp only [decodeFields, Nat.div_eq_of_lt hlt, hneg, hzi, beq_self_eq_true]
  | pwacc rd ra rb K =>
    rw [encode, decode_encodeFields _ _ _ (by decide) (by omega)]
    simp [decodeFields, Nat.div_eq_of_lt K.isLt]
  | getnoiseEta2 rd nonce | getnoiseEta3 rd nonce =>
    rw [encode, decode_encodeFields _ _ _ (by decide) (by omega)]
    simp [decodeFields, Nat.div_eq_of_lt nonce.isLt]
  | gena rd row col t =>
    rw [encode, decode_encodeFields _ _ _ (by decide) (by cases t <;> decide)]
    cases t <;> simp [decodeFields]
  | ctcmp len =>
    rw [encode, decode_encodeFields _ _ _ (by decide) len.isLt]
    simp [decodeFields]
  | cbdEta2 r bs blk | cbdEta3 r bs blk | compressD4 r bs blk | compressD5 r bs blk
  | compressD10 r bs blk | compressD11 r bs blk | decompressD4 r bs blk | decompressD5 r bs blk
  | decompressD10 r bs blk | decompressD11 r bs blk | frommsg r bs blk | tomsg r bs blk
  | tobytes r bs blk | frombytes r bs blk =>
    rw [encode, decode_encodeFields _ _ _ (by decide) (recordImm_lt bs blk)]
    simp [decodeFields, checkedRecord]

/-! ### What a word decodes to -/

/-- The opcodes of the 22 commands (30_encoding.md R83). -/
def opcodes : List Nat := [0x01, 0x02, 0x03, 0x04, 0x05, 0x10, 0x11, 0x12, 0x13, 0x20, 0x21, 0x28, 0x30,
  0x31, 0x32, 0x40, 0x41, 0x48, 0x49, 0x4A, 0x4B, 0x50]

/-- The ways the opcode `op` and the fields `f` can decode (30_encoding.md R84): the opcode is of no command;
or the parameter in rb is in no row of the opcode; or the checks of one command are made, and if the
must-be-zero bits are 0 the word is the one of that command. -/
inductive Decodes (op : Nat) (f : Fields) : Except DecodeError Instr → Prop
  | noCommand (unknown : op ∉ opcodes) : Decodes op f (.error .illegalOpcode)
  | noRow (known : op ∈ opcodes) : Decodes op f (.error .illegalField)
  | row (zeros : Bool) (i : Instr) (known : op ∈ opcodes)
      (word : zeros = true → encode i = encodeFields op f.rd f.ra f.rb f.imm) :
      Decodes op f (checked zeros i)

/-- One row for each opcode and parameter; in each, the bits that must be zero are the ones its command's
word does not take from the fields. -/
theorem decodeFields_decodes (op : Nat) (f : Fields) (hi : f.imm < 4096) :
    Decodes op f (decodeFields op f) := by
  unfold decodeFields
  split
  case h_23 => exact .noCommand (by simp_all [opcodes])
  -- CBD and GETNOISE, with two legal values of eta in rb
  case h_13 | h_14 =>
    split
    case h_3 => exact .noRow (by simp [opcodes])
    all_goals
      rename_i heta
      refine .row _ _ (by simp [opcodes]) fun hz => ?_
      simp only [Bool.and_eq_true, beq_iff_eq] at hz
      simp [encode, encodeFields, heta, hz, recordImm_bs_blk hi, imm_mod_eq_self]
  -- COMPRESS and DECOMPRESS, with four legal values of d in rb
  case h_16 | h_17 =>
    split
    case h_5 => exact .noRow (by simp [opcodes])
    all_goals
      rename_i hd
      refine .row _ _ (by simp [opcodes]) fun hz => ?_
      simp only [Bool.and_eq_true, beq_iff_eq] at hz
      simp [encode, encodeFields, hd, hz, recordImm_bs_blk hi]
  -- the commands with one row
  all_goals
    refine .row _ _ (by simp [opcodes]) fun hz => ?_
    simp only [Bool.and_eq_true, beq_iff_eq] at hz
    simp [encode, hz, basemulImm_eq, genaImm_eq, imm_mod_eq_self, Nat.mod_eq_of_lt hi,
      recordImm_bs_blk hi]

theorem decode_decodes (w : Word) : Decodes (opcodeOf w) (fieldsOf w) (decode w) :=
  decodeFields_decodes _ _ (fieldsOf_imm_lt w)

/-- The opcode is looked at before anything else. -/
theorem decode_illegalOpcode_iff {w : Word} : decode w = .error .illegalOpcode ↔ opcodeOf w ∉ opcodes := by
  generalize hr : decode w = r
  have hd : Decodes (opcodeOf w) (fieldsOf w) r := hr ▸ decode_decodes w
  cases hd with
  | noCommand unknown => simp [unknown]
  | noRow known => simp [known]
  | row zeros i known word => simp [known, checked_ne_illegalOpcode]

/-- Every word has a command whose word it is, unless its opcode or its fields are refused. -/
theorem exists_encode_eq {w : Word} (ho : decode w ≠ .error .illegalOpcode)
    (hf : decode w ≠ .error .illegalField) : ∃ i : Instr, encode i = w := by
  generalize hr : decode w = r at ho hf
  have hd : Decodes (opcodeOf w) (fieldsOf w) r := hr ▸ decode_decodes w
  cases hd with
  | noCommand _ => exact absurd rfl ho
  | noRow _ => exact absurd rfl hf
  | row zeros i _ word =>
    rw [ne_eq, checked_eq_illegalField_iff, not_not] at hf
    exact ⟨i, (word hf.1).trans (encodeFields_fieldsOf w)⟩

/-- IllegalField comes second: the opcode is known, and the word is the one of no command with legal fields. -/
theorem decode_illegalField_iff {w : Word} : decode w = .error .illegalField ↔
    opcodeOf w ∈ opcodes ∧ ¬∃ i : Instr, i.fieldsLegal = true ∧ encode i = w := by
  constructor
  · intro h
    refine ⟨?_, ?_⟩
    · by_contra unknown
      simp [decode_illegalOpcode_iff.mpr unknown] at h
    · rintro ⟨i, hlegal, rfl⟩
      rw [decode_encode, checked_eq_illegalField_iff] at h
      exact h ⟨rfl, hlegal⟩
  · rintro ⟨known, hnone⟩
    by_contra hf
    obtain ⟨i, rfl⟩ := exists_encode_eq (mt decode_illegalOpcode_iff.mp (not_not.mpr known)) hf
    rw [decode_encode, checked_eq_illegalField_iff, not_not] at hf
    exact hnone ⟨i, hf.2, rfl⟩

/-- BufRange comes last: the word is the one of a command with legal fields whose range is not. -/
theorem decode_bufRange_iff {w : Word} : decode w = .error .bufRange ↔
    ∃ i : Instr, i.fieldsLegal = true ∧ i.rangeLegal = false ∧ encode i = w := by
  constructor
  · intro h
    obtain ⟨i, rfl⟩ := exists_encode_eq (w := w) (by simp [h]) (by simp [h])
    rw [decode_encode, checked_eq_bufRange_iff] at h
    obtain ⟨-, hfields, hrange⟩ := h
    exact ⟨i, hfields, hrange, rfl⟩
  · rintro ⟨i, hfields, hrange, rfl⟩
    rw [decode_encode, checked_eq_bufRange_iff]
    exact ⟨rfl, hfields, hrange⟩

/-! ### The obligations -/

/-- Settles O1: the word of a command decodes to the checks of the command, which a legal one passes. -/
theorem decodeEncodeRoundTrip : Obligations.DecodeEncodeRoundTrip := by
  intro i hwf
  rw [decode_encode, checked_eq_ok_iff]
  exact ⟨rfl, hwf, rfl⟩

/-- Settles O2: the word is the one of some command, and its decoding passed that command's checks. -/
theorem decodedWordEncodesBack : Obligations.DecodedWordEncodesBack := by
  intro w i h
  obtain ⟨j, rfl⟩ := exists_encode_eq (w := w) (by simp [h]) (by simp [h])
  rw [decode_encode, checked_eq_ok_iff] at h
  obtain ⟨-, hwf, rfl⟩ := h
  exact ⟨hwf, rfl⟩

theorem toNat_ushiftRight_eq_opcodeOf (w : Word) : (w >>> 24).toNat = opcodeOf w := by
  rw [BitVec.toNat_ushiftRight, Nat.shiftRight_eq_div_pow, opcodeOf]

/-- Settles O3: the three errors in the order of 30_encoding.md R84. -/
theorem decodeErrorsByPriority : Obligations.DecodeErrorsByPriority := by
  intro w
  rw [toNat_ushiftRight_eq_opcodeOf]
  exact ⟨decode_illegalOpcode_iff, decode_illegalField_iff, decode_bufRange_iff⟩

/-- Settles O4: the 14 words are those of their commands. -/
theorem workedEncodings : Obligations.WorkedEncodings := by
  unfold Obligations.WorkedEncodings
  decide

end Sys2Proof

/-! # 40_reduction.md: the reductions, and the commands that apply them -/

namespace Sys2Proof.Machine

/-! ### Signed values of words and coefficients (00_scope.md R10) -/

/-- A coefficient holds a 16-bit signed value. -/
theorem fits16_toInt (x : Coeff) : Fits16 x.toInt := by
  have hlo := BitVec.le_toInt x
  have hhi := x.toInt_lt
  constructor <;> omega

/-- `low16` then `sext_16` is the balanced residue modulo 2^16. -/
theorem sext16_emod (v : Int) : sext16 (v % 65536) = v.bmod 65536 := by
  rw [sext16, Int.bmod_def]; rfl

/-- A difference that fits 16 bits is exact in 16 bits. -/
theorem toInt_sub_of_fits16 {x y : Coeff} (h : Fits16 (x.toInt - y.toInt)) :
    (x - y).toInt = x.toInt - y.toInt := by
  rw [BitVec.toInt_sub, Int.bmod_eq_of_le] <;> omega

/-! ### Montgomery reduction (40_reduction.md R111) -/

/-- The factor `t` of 40_reduction.md R111, by which q is multiplied. -/
def montFactor (a : Int) : Int := (a * 62209).bmod 65536

theorem montRed_eq (a : Int) : montRed a = (a - montFactor a * 3329) / 65536 := by
  have hu : low16 a * 62209 % 65536 = a * 62209 % 65536 := by unfold low16; omega
  change (a - sext16 (low16 a * 62209 % 65536) * 3329) / 65536 = _
  rw [hu, sext16_emod, montFactor]

theorem fits16_montFactor (a : Int) : Fits16 (montFactor a) := by
  unfold montFactor
  rw [Int.bmod_def]
  omega

/-- The shift of R111 is exact, because q * 62209 is 1 modulo 2^16. -/
theorem dvd_sub_montFactor (a : Int) : 65536 ∣ a - montFactor a * 3329 := by
  unfold montFactor
  rw [Int.bmod_def]
  omega

theorem montRed_mul (a : Int) : montRed a * 65536 = a - montFactor a * 3329 := by
  rw [montRed_eq, Int.ediv_mul_cancel (dvd_sub_montFactor a)]

/-- The result times 2^16 is congruent to the argument, on every integer. -/
theorem montRed_mul_emod (a : Int) : montRed a * 65536 % 3329 = a % 3329 := by
  rw [montRed_mul, Int.sub_mul_emod_self_right]

/-- The result is the argument times 169, the inverse of 2^16 modulo q (00_scope.md R12). -/
theorem montRed_emod (a : Int) : montRed a % 3329 = a * 169 % 3329 := by
  have h := montRed_mul_emod a
  omega

theorem montRed_bounds {a : Int} (h : MontRange a) : -3329 < montRed a ∧ montRed a < 3329 := by
  have hmul := montRed_mul a
  have hfac := fits16_montFactor a
  omega

/-- The 16-bit truncating multiply by 62209 computes the factor. -/
theorem toInt_truncate_mul (a : Word) : (a.truncate 16 * 62209 : Coeff).toInt = montFactor a.toInt := by
  rw [BitVec.toInt_mul, BitVec.toInt_setWidth, montFactor, BitVec.toInt_eq_toNat_bmod a]
  simp only [Int.bmod_def]
  have h : (62209 : Coeff).toInt = -3327 := rfl
  rw [h]
  omega

/-- The 16 x 16 -> 32 multiply by q is exact. -/
theorem toInt_signExtend_mul (u : Coeff) : (u.signExtend 32 * 3329 : Word).toInt = u.toInt * 3329 := by
  have hu := fits16_toInt u
  have hq : (3329 : Word).toInt = 3329 := rfl
  rw [BitVec.toInt_mul, BitVec.toInt_signExtend_of_le (by decide), hq, Int.bmod_eq_of_le] <;> omega

/-- The 32-bit subtraction and the arithmetic shift by 16 of R111, for a multiple of q in reach of a 16-bit
factor. -/
theorem toInt_sub_sshiftRight {a m : Word} {t : Int} (ha : MontRange a.toInt) (ht : Fits16 t)
    (hm : m.toInt = t * 3329) : ((a - m).sshiftRight 16).toInt = (a.toInt - t * 3329) / 65536 := by
  rw [BitVec.toInt_sshiftRight, Int.shiftRight_eq_div_pow, BitVec.toInt_sub, hm, Int.bmod_eq_of_le]
  · rfl
  all_goals omega

/-- Settles O22: each step of the datapath computes its step of R111, and the rest is the exact division by
2^16. -/
theorem montRedIsTheDatapath : Obligations.MontRedIsTheDatapath := by
  intro a ha u m
  have hm : m.toInt = montFactor a.toInt * 3329 := by
    rw [toInt_signExtend_mul, toInt_truncate_mul]
  refine ⟨?_, ?_, montRed_mul_emod _, montRed_bounds ha⟩
  · rw [montRed_eq, toInt_sub_sshiftRight ha (fits16_montFactor _) hm]
  · rw [hm]
    exact dvd_sub_montFactor _

/-! ### Conditional subtraction (40_reduction.md R115) -/

theorem csubq_of_lt {x : Int} (h : x < 3329) : csubq x = x := by
  rw [csubq, if_pos (by omega), Int.sub_add_cancel]

theorem csubq_of_le {x : Int} (h : 3329 ≤ x) : csubq x = x - 3329 := by
  rw [csubq, if_neg (by omega)]

/-- csubq makes 0 to 2q-1 canonical. -/
theorem csubq_eq_emod {x : Int} (h0 : 0 ≤ x) (h1 : x < 6658) : csubq x = x % 3329 := by
  rcases lt_or_ge x 3329 with h | h
  · rw [csubq_of_lt h, Int.emod_eq_of_lt h0 h]
  · rw [csubq_of_le h]; omega

/-- The result stays within 16 bits: q is subtracted from values of at least q only. -/
theorem fits16_csubq {x : Int} (h : Fits16 x) : Fits16 (csubq x) := by
  rcases lt_or_ge x 3329 with hx | hx
  · rwa [csubq_of_lt hx]
  · rw [csubq_of_le hx]; omega

/-- The mask of R115: all ones below 0 and no ones from 0 on. -/
theorem sshiftRight_signBit (t : Coeff) :
    t.sshiftRight 15 = if t.toInt < 0 then BitVec.allOnes 16 else 0#16 := by
  have ht := fits16_toInt t
  apply BitVec.eq_of_toInt_eq
  rw [BitVec.toInt_sshiftRight, Int.shiftRight_eq_div_pow]
  split
  · change t.toInt / 32768 = -1
    omega
  · change t.toInt / 32768 = 0
    omega

/-- Adding q where the mask is set is the conditional subtraction of q from `t + q`. -/
theorem csubq_eq_mask {x : Coeff} (h : CsubqRange x.toInt) :
    csubq x.toInt = (x - 3329 + ((x - 3329).sshiftRight 15 &&& 3329)).toInt := by
  have hx := fits16_toInt x
  have hq : (3329 : Coeff).toInt = 3329 := rfl
  have ht : (x - 3329).toInt = x.toInt - 3329 := toInt_sub_of_fits16 (by rw [hq]; omega)
  rw [sshiftRight_signBit, ht]
  rcases lt_or_ge x.toInt 3329 with hlt | hge
  · rw [csubq_of_lt hlt, if_pos (by omega), BitVec.allOnes_and, BitVec.sub_add_cancel]
  · rw [csubq_of_le hge, if_neg (by omega), BitVec.zero_and, BitVec.add_zero, ht]

/-- Settles O24: the mask adds q back exactly where x - q is negative. -/
theorem csubqIsTheMaskForm : Obligations.CsubqIsTheMaskForm := by
  intro x hx t
  refine ⟨csubq_eq_mask hx, csubq_eq_emod, fun h => csubq_of_lt (by omega), fun h => ?_⟩
  rw [csubq_of_le (by omega)]
  omega

/-! ### Barrett reduction (40_reduction.md R113) -/

theorem barrett_eq (a : Int) : barrett a = a - 20159 * a / 67108864 * 3329 := rfl

theorem barrett_emod (a : Int) : barrett a % 3329 = a % 3329 :=
  Int.sub_mul_emod_self_right ..

/-- The quotient of R113 is never above `a / q` and misses it by one at most. -/
theorem barrett_bounds {a : Int} (h : Fits16 a) : 0 ≤ barrett a ∧ barrett a ≤ 3329 := by
  rw [barrett_eq]
  omega

theorem fits16_barrett {a : Int} (h : Fits16 a) : Fits16 (barrett a) := by
  obtain ⟨hlo, hhi⟩ := barrett_bounds h
  omega

/-- Barrett gives q on the negative multiples of q alone: 20159 * 3329 is 2^26 + 447, so the quotient of
`3329 * k` is `k` for k from 0 on and `k - 1` below. -/
theorem barrett_eq_q_iff {a : Int} (h : Fits16 a) :
    barrett a = 3329 ↔ a ∈ [-3329, -6658, -9987, -13316, -16645, -19974, -23303, -26632, -29961] := by
  simp only [List.mem_cons, List.not_mem_nil, or_false]
  rw [barrett_eq]
  omega

/-- Off those multiples the result is the residue. -/
theorem barrett_eq_emod {a : Int} (h : Fits16 a) (hq : barrett a ≠ 3329) : barrett a = a % 3329 := by
  obtain ⟨hlo, hhi⟩ := barrett_bounds h
  rw [← barrett_emod, Int.emod_eq_of_lt hlo (lt_of_le_of_ne hhi hq)]

/-- csubq makes the result of Barrett canonical. -/
theorem csubq_barrett {a : Int} (h : Fits16 a) : csubq (barrett a) = a % 3329 := by
  obtain ⟨hlo, hhi⟩ := barrett_bounds h
  rw [csubq_eq_emod hlo (by omega), barrett_emod]

/-- Settles O23: the result is congruent to its argument and in 0..q, so it is the residue unless it is q. -/
theorem barrettResidue : Obligations.BarrettResidue := by
  intro a hlo hhi
  have ha : Fits16 a := ⟨hlo, hhi⟩
  refine ⟨rfl, ?_, (barrett_bounds ha).1, (barrett_bounds ha).2, csubq_barrett ha⟩
  split
  case isTrue hmem => exact (barrett_eq_q_iff ha).mpr hmem
  case isFalse hmem => exact barrett_eq_emod ha (mt (barrett_eq_q_iff ha).mp hmem)

/-- Settles O25: both congruences hold on every integer. -/
theorem reductionsAgreeWithReference : Obligations.ReductionsAgreeWithReference :=
  ⟨fun a _ => ⟨montRed_emod a, barrett_emod a⟩, fun a _ => montRed_emod a⟩

/-! ### The scalar commands (40_reduction.md R112, R114, R116, R118) -/

/-- Settles O26: the precondition of MontRed decides between the write and the refusal. -/
theorem montredCommand : Obligations.MontredCommand :=
  ⟨fun _ _ _ => ⟨requiring_pos _, requiring_neg _⟩, by decide⟩

/-- Settles O27: BARRETT has no precondition. -/
theorem barrettCommand : Obligations.BarrettCommand :=
  ⟨fun _ _ _ => rfl, by decide⟩

/-- Settles O28: the precondition of csubq decides between the write and the refusal. -/
theorem csubqCommand : Obligations.CsubqCommand :=
  ⟨fun _ _ _ => ⟨requiring_pos _, requiring_neg _⟩, by decide⟩

/-- One operand within 3328 keeps the product of two 16-bit values in range (40_reduction.md R117). -/
theorem montRange_mul {a b : Int} (ha : Fits16 a) (hb : -3328 ≤ b ∧ b ≤ 3328) : MontRange (a * b) := by
  have habs : |a * b| ≤ 32768 * 3328 := by
    rw [abs_mul]
    exact mul_le_mul (abs_le.mpr (by omega)) (abs_le.mpr hb) (abs_nonneg b) (by decide)
  have := abs_le.mp habs
  omega

/-- Settles O29: MontRed of the product, with its laws. -/
theorem montmulCommand : Obligations.MontmulCommand := by
  refine ⟨fun s rd ra rb => ?command, fun x => ?zero, by decide, by decide⟩
  case command =>
    intro a b
    refine ⟨fun h => ⟨requiring_pos _ h, montRed_mul_emod _, montRed_bounds h⟩,
      montRange_mul (fits16_toInt _), fun h => requiring_neg _ h⟩
  case zero =>
    rw [fqmul, mul_zero]
    decide

/-! ### The coefficient-wise commands (40_reduction.md R119 to R123) -/

/-- A written slot holds what was written, and nothing but memory changed. -/
theorem next_writeSlot {s : State} {k : Result} {r : Nat} {p : List Int} (h : k = .next (s.writeSlot r p))
    (hl : p.length = 256) (hf : ∀ c ∈ p, Fits16 c) :
    ∃ t, k = .next t ∧ t = { s with mem := t.mem } ∧ t.readSlot r = some p :=
  ⟨_, h, rfl, readSlot_writeSlot_self s r p hl hf⟩

/-- PADD and PSUB with their operation as a parameter: coefficient by coefficient, from the sources as they
stood. -/
theorem execPointwise_coefficients {f : Int → Int → Int} {rd ra rb : Slot} {s : State} {p q : List Int}
    (hp : s.readSlot ra.val = some p) (hq : s.readSlot rb.val = some q)
    (h : ∀ i < 256, Fits16 (f (p.getD i 0) (q.getD i 0))) :
    ∃ t r, execPointwise f rd ra rb s = .next t ∧ t = { s with mem := t.mem } ∧
      t.readSlot rd.val = some r ∧ r.length = 256 ∧ ∀ i < 256, r.getD i 0 = f (p.getD i 0) (q.getD i 0) := by
  obtain ⟨hpl, -⟩ := readSlot_some hp
  obtain ⟨hql, -⟩ := readSlot_some hq
  have hlen : (List.zipWith f p q).length = 256 := by rw [List.length_zipWith, hpl, hql, Nat.min_self]
  have hget : ∀ i < 256, (List.zipWith f p q).getD i 0 = f (p.getD i 0) (q.getD i 0) := by
    intro i hi
    simp [hpl, hql, hi]
  have hfits : ∀ c ∈ List.zipWith f p q, Fits16 c := by
    intro c hc
    obtain ⟨i, hi, rfl⟩ := List.mem_iff_getElem.mp hc
    rw [← List.getD_eq_getElem _ 0 hi, hget i (hlen ▸ hi)]
    exact h i (hlen ▸ hi)
  obtain ⟨t, ht, hframe, hread⟩ :=
    next_writeSlot (execPointwise_next.mpr ⟨p, q, hp, hq, hfits, rfl⟩) hlen hfits
  exact ⟨t, _, ht, hframe, hread, hlen, hget⟩

/-- PBARRETT and PCSUBQ with their function as a parameter: on a readable source that meets the precondition
the destination takes the function of every coefficient. -/
theorem withSlot_map {f : Int → Int} {rd ra : Slot} {s : State} {k : List Int → Result} {p : List Int}
    (hp : s.readSlot ra.val = some p) (hk : k p = .next (s.writeSlot rd.val (p.map f)))
    (hfits : ∀ c, Fits16 c → Fits16 (f c)) :
    ∃ t, withSlot s ra k = .next t ∧ t = { s with mem := t.mem } ∧ t.readSlot rd.val = some (p.map f) := by
  obtain ⟨hl, hf⟩ := readSlot_some hp
  refine next_writeSlot (withSlot_next.mpr ⟨p, hp, hk⟩) (by rw [List.length_map, hl]) ?_
  rw [List.forall_mem_map]
  exact fun c hc => hfits c (hf c hc)

theorem execPbarrett_of_readSlot {rd ra : Slot} {s : State} {p : List Int}
    (hp : s.readSlot ra.val = some p) :
    ∃ t, execPbarrett rd ra s = .next t ∧ t = { s with mem := t.mem } ∧
      t.readSlot rd.val = some (p.map barrett) :=
  withSlot_map hp rfl fun _ => fits16_barrett

theorem execPcsubq_of_readSlot {rd ra : Slot} {s : State} {p : List Int}
    (hp : s.readSlot ra.val = some p) (h : ∀ c ∈ p, CsubqRange c) :
    ∃ t, execPcsubq rd ra s = .next t ∧ t = { s with mem := t.mem } ∧
      t.readSlot rd.val = some (p.map csubq) :=
  withSlot_map hp (requiring_pos _ h) fun _ => fits16_csubq

/-- Each coefficient of a slot fits 16 bits. -/
theorem fits16_getD {s : State} {r i : Nat} {p : List Int} (hp : s.readSlot r = some p) (hi : i < 256) :
    Fits16 (p.getD i 0) := by
  obtain ⟨hl, hf⟩ := readSlot_some hp
  rw [List.getD_eq_getElem _ 0 (hl ▸ hi)]
  exact hf _ (List.getElem_mem _)

/-- Settles O30: each command writes its values, which fit 16 bits, to its destination. -/
theorem pointwiseCommands : Obligations.PointwiseCommands := by
  refine ⟨fun s rd ra p hp => ⟨?pbarrett, fun h => ?pcsubq⟩, fun s rd ra rb p q hp hq =>
    ⟨execPointwise_coefficients hp hq, execPointwise_coefficients hp hq⟩⟩
  case pbarrett =>
    obtain ⟨t, ht, hframe, hread⟩ := execPbarrett_of_readSlot (rd := rd) hp
    refine ⟨t, ht, hframe, hread, fun i hi => ?_⟩
    obtain ⟨hlo, hhi⟩ := barrett_bounds (fits16_getD hp hi)
    exact ⟨hlo, hhi, barrett_emod _⟩
  case pcsubq =>
    obtain ⟨t, ht, hframe, hread⟩ := execPcsubq_of_readSlot (rd := rd) hp h
    refine ⟨t, ht, hframe, hread, fun hcanon => ?_⟩
    rw [List.forall_mem_map]
    intro c hc
    obtain ⟨hlo, hhi⟩ := hcanon c hc
    rw [csubq_eq_emod hlo (by omega)]
    omega

end Sys2Proof.Machine


/-! # 41_ntt.md: the twiddle ROM, the loops of the transforms, their bounds, and what they compute -/

namespace Sys2Proof.Machine

/-! ### The twiddle ROM (41_ntt.md R141, R142) -/

/-- A bound of a table's entries is a bound of what any index reads: past the table that is 0. -/
theorem getD_le_of_forall {l : List Nat} {b : Nat} (h : ∀ z ∈ l, z ≤ b) (k : Nat) : l.getD k 0 ≤ b := by
  rcases lt_or_ge k l.length with hk | hk
  · rw [List.getD_eq_getElem _ 0 hk]
    exact h _ (List.getElem_mem hk)
  · rw [List.getD_eq_default _ 0 hk]
    exact Nat.zero_le b

theorem zeta_bounds (k : Nat) : -3328 ≤ zeta k ∧ zeta k ≤ 3328 := by
  have h : zetas.getD k 0 ≤ 3328 := getD_le_of_forall (by decide +kernel) k
  unfold zeta
  omega

theorem zetaInv_bounds (k : Nat) : -3328 ≤ zetaInv k ∧ zetaInv k ≤ 3328 := by
  have h : zetasInv.getD k 0 ≤ 3328 := getD_le_of_forall (by decide +kernel) k
  unfold zetaInv
  omega

/-- The printed table is the formula of R141. -/
theorem zeta_eq : ∀ k : Fin 128, zeta k.val = 65536 * 17 ^ brv7 k.val % 3329 := by decide

/-- The printed table is the formula of R142. -/
theorem zetaInv_eq : ∀ k : Fin 128,
    zetaInv k.val = if k.val = 127 then 512 else (3329 - zeta (127 - k.val)) % 3329 := by decide +kernel

/-- Entry `k` of the two tables as they stand one after the other in the ROM window. -/
def romEntry (k : Nat) : Nat := (zetas ++ zetasInv).getD k 0

theorem zeta_eq_romEntry (k : Fin 128) : zeta k.val = romEntry k.val := by
  rw [romEntry, List.getD_append _ _ _ _ k.isLt, zeta]

theorem zetaInv_eq_romEntry (k : Fin 128) : zetaInv k.val = romEntry (128 + k.val) := by
  rw [romEntry, List.getD_append_right _ _ _ _ (Nat.le_add_right 128 k.val), zetaInv]
  exact congrArg (fun i => ((zetasInv.getD i 0 : Nat) : Int)) (Nat.add_sub_cancel_left 128 k.val).symm

theorem romEntry_lt (k : Nat) : romEntry k < 2 ^ 16 :=
  (getD_le_of_forall (b := 3328) (by decide +kernel) k).trans_lt (by decide)

theorem regionAt_rom {k : Nat} (h : k < 0x200) : regionAt (0x4000 + k) = .rom k := by
  have hw := window_regionAt (0x4000 + k)
  cases hr : regionAt (0x4000 + k) <;> rw [hr] at hw <;> simp only [Region.Window, InStorage] at hw
  case rom j => rw [show j = k by omega]
  all_goals omega

/-- The two bytes of an entry, low byte first, are those of the entry as a word. -/
theorem romByte_eq {k i : Nat} (h : i < 2) :
    romByte (2 * k + i) = (BitVec.ofNat 32 (romEntry k)).extractLsb' (8 * i) 8 := by
  have hlt := romEntry_lt k
  have hq : (2 * k + i) / 2 = k := by omega
  have hm : (2 * k + i) % 2 = i := by omega
  have hp : 256 ^ i = 2 ^ (8 * i) := (Nat.pow_mul 2 8 i).symm
  apply BitVec.eq_of_toNat_eq
  rw [romByte, hq, hm, hp, BitVec.extractLsb'_toNat, BitVec.toNat_ofNat, BitVec.toNat_ofNat,
    Nat.mod_eq_of_lt (hlt.trans (by decide)), Nat.shiftRight_eq_div_pow]
  rfl

/-- A 2-byte read of the ROM window at an even offset finds the entry. -/
theorem load_rom (s : State) {k : Nat} (h : k < 256) :
    s.load (0x4000 + 2 * k) 2 = some (BitVec.ofInt 32 (romEntry k)) := by
  have hbytes : ∀ i ∈ List.range 2, s.byteAt (0x4000 + 2 * k + i) =
      some ((BitVec.ofNat 32 (romEntry k)).extractLsb' (8 * i) 8) := by
    intro i hi
    have hi2 : i < 2 := List.mem_range.mp hi
    rw [State.byteAt, Nat.add_assoc, regionAt_rom (by omega), ← romByte_eq hi2]
  have hword : wordOfBytes (wordBytes 2 (BitVec.ofNat 32 (romEntry k))) = BitVec.ofNat 32 (romEntry k) :=
    wordOfBytes_wordBytes (by
      rw [BitVec.toNat_ofNat]
      exact (Nat.mod_le _ _).trans_lt (romEntry_lt k))
  rw [State.load, regionAt_rom (by omega)]
  change ((List.range 2).mapM fun i => s.byteAt (0x4000 + 2 * k + i)).map wordOfBytes = _
  rw [mapM_eq_some_map hbytes, BitVec.ofInt_natCast]
  exact congrArg some hword

theorem hostRead_rom {s : State} (hb : s.busy = false) {k : Nat} (h : k < 256) :
    hostRead (0x4000 + 2 * k) 2 s = .next { s with readData := BitVec.ofInt 32 (romEntry k) } :=
  hostRead_load (.inl hb) ((accessOk_iff_readable _ _).mpr (by unfold Readable; omega)) (load_rom s h)

/-- Settles O21: the tables entry by entry, and the read of an entry's two bytes. -/
theorem twiddleRomContents : Obligations.TwiddleRomContents := by
  refine ⟨zeta_eq, zetaInv_eq, fun s k hb => ⟨?zetas, ?zetasInv⟩⟩
  case zetas =>
    rw [zeta_eq_romEntry]
    exact hostRead_rom hb (k.isLt.trans (by decide))
  case zetasInv =>
    rw [zetaInv_eq_romEntry, ← hostRead_rom hb (show 128 + k.val < 256 by omega),
      show 0x4000 + 2 * (128 + k.val) = 0x4100 + 2 * k.val by omega]
    rfl

/-! ### The butterflies in place (41_ntt.md R143, R145) -/

/-- A butterfly on positions `j` and `j + len` of the array: both new values come from the old pair. -/
def butterflyAt (f : Int → Int → Int × Int) (len : Nat) (r : List Int) (j : Nat) : List Int :=
  (r.set j (f (r.getD j 0) (r.getD (j + len) 0)).1).set (j + len) (f (r.getD j 0) (r.getD (j + len) 0)).2

theorem fwdButterflyAt_eq {len : Nat} (h : 0 < len) (z : Int) :
    fwdButterflyAt len z = butterflyAt (fwdButterfly z) len := by
  funext r j
  exact List.set_comm _ _ (by omega)

theorem invButterflyAt_eq (len : Nat) (red : Bool) (z : Int) :
    invButterflyAt len red z = butterflyAt (invButterfly red z) len := rfl

/-- On an array that shows its positions `j` and `j + len` the butterfly replaces just those two. -/
theorem butterflyAt_append (f : Int → Int → Int × Int) {len : Nat} (pre mid post : List Int) (a b : Int)
    (h : len = mid.length + 1) :
    butterflyAt f len (pre ++ a :: mid ++ b :: post) pre.length =
      pre ++ (f a b).1 :: mid ++ (f a b).2 :: post := by
  subst h
  have hlo : (pre ++ a :: mid ++ b :: post).getD pre.length 0 = a := by simp
  have hhi : (pre ++ a :: mid ++ b :: post).getD (pre.length + (mid.length + 1)) 0 = b := by simp
  rw [butterflyAt, hlo, hhi]
  simp

/-- The loop over `j` in one group: `mid` holds the low results of the pairs done before and the high positions
of those to come. -/
theorem foldl_butterflyAt (f : Int → Int → Int × Int) {len : Nat} (lo : List Int) :
    ∀ pre mid hi post : List Int, hi.length = lo.length → lo.length + mid.length = len →
      (List.range' pre.length lo.length).foldl (butterflyAt f len) (pre ++ lo ++ mid ++ hi ++ post) =
      pre ++ (List.zipWith f lo hi).map Prod.fst ++ mid ++ (List.zipWith f lo hi).map Prod.snd ++ post := by
  induction lo with
  | nil =>
    intro pre mid hi post h _
    obtain rfl := List.eq_nil_of_length_eq_zero h
    simp
  | cons a lo ih =>
    intro pre mid hi post h hlen
    obtain ⟨b, hi, rfl⟩ := List.exists_cons_of_length_eq_add_one h
    have hstep := butterflyAt_append f (len := len) pre (lo ++ mid) (hi ++ post) a b
      (by simp at hlen ⊢; omega)
    have hrest := ih (pre ++ [(f a b).1]) (mid ++ [(f a b).2]) hi post (Nat.succ.inj h)
      (by simp at hlen ⊢; omega)
    simp only [List.append_assoc, List.cons_append, List.nil_append, List.length_append,
      List.length_singleton] at hstep hrest ⊢
    rw [List.length_cons, List.range'_succ, List.foldl_cons, hstep, hrest]
    simp

/-! ### The loops of a layer give the layer (41_ntt.md R144, R146) -/

/-- One group of a layer, in place. -/
theorem foldl_group (f : Int → Int → Int × Int) {len : Nat} (pre r : List Int) (h : 2 * len ≤ r.length) :
    (List.range' pre.length len).foldl (butterflyAt f len) (pre ++ r) =
      pre ++ (List.zipWith f (r.take len) ((r.drop len).take len)).map Prod.fst ++
        (List.zipWith f (r.take len) ((r.drop len).take len)).map Prod.snd ++ r.drop (2 * len) := by
  have hlo : (r.take len).length = len := List.length_take_of_le (by omega)
  have hhi : ((r.drop len).take len).length = len := List.length_take_of_le (by rw [List.length_drop]; omega)
  have hsplit : r = r.take len ++ (r.drop len).take len ++ r.drop (2 * len) := by
    rw [List.append_assoc, two_mul, ← List.drop_drop, List.take_append_drop, List.take_append_drop]
  have hloop := foldl_butterflyAt f (r.take len) pre [] ((r.drop len).take len) (r.drop (2 * len))
    (hhi.trans hlo.symm) hlo
  rw [hlo, List.append_nil, List.append_nil, List.append_assoc, List.append_assoc,
    ← List.append_assoc (r.take len), ← hsplit] at hloop
  exact hloop

/-- The groups from the `g`-th on, in place: those before are done. -/
theorem foldl_groups (bf : Int → Int → Int → Int × Int) {len : Nat} (tw : Nat → Int) :
    ∀ (n g : Nat) (pre r : List Int), pre.length = 2 * len * g → r.length = n * (2 * len) →
      (List.range' g n).foldl
        (fun r g => (List.range' (2 * len * g) len).foldl (butterflyAt (bf (tw g)) len) r) (pre ++ r) =
      pre ++ layer bf len ((List.range' g n).map tw) r
  | 0, _, _, r, _, hr => by
    obtain rfl : r = [] := List.eq_nil_of_length_eq_zero (by rw [hr, Nat.zero_mul])
    rfl
  | n + 1, g, pre, r, hpre, hr => by
    have hr' : r.length = n * (2 * len) + 2 * len := by rw [hr, Nat.succ_mul]
    have hgroup := foldl_group (bf (tw g)) pre r (show 2 * len ≤ r.length by omega)
    rw [List.range'_succ, List.foldl_cons, ← hpre, hgroup, foldl_groups bf tw n (g + 1)]
    · simp [layer]
    · simp; rw [Nat.mul_succ]; omega
    · rw [List.length_drop]; omega

/-- The loops over `start` and `j` write what the walk over the groups gives. -/
theorem layerLoop_eq (bf : Int → Int → Int → Int × Int) {len : Nat} (tw : Nat → Int) {r : List Int}
    (h : r.length = 128 / len * (2 * len)) :
    layerLoop (fun z => butterflyAt (bf z) len) len tw r =
      layer bf len ((List.range (128 / len)).map tw) r := by
  rw [layerLoop, List.range_eq_range']
  exact foldl_groups bf tw (128 / len) 0 [] r rfl h

theorem fwdTwiddles_eq (k n : Nat) : fwdTwiddles k n = (List.range n).map fun g => zeta (k + g) := by
  rw [fwdTwiddles, List.range'_eq_map_range, List.map_map]
  rfl

theorem invTwiddles_eq (k n : Nat) : invTwiddles k n = (List.range n).map fun g => zetaInv (k + g) := by
  rw [invTwiddles, List.range'_eq_map_range, List.map_map]
  rfl

/-- The span `len` cuts 256 positions into whole groups. -/
abbrev IsSpan (len : Nat) : Prop := 0 < len ∧ 128 / len * (2 * len) = 256

theorem fwdLayer_eq_loop {len : Nat} (h : IsSpan len) {r : List Int} (hr : r.length = 256) :
    layerLoop (fwdButterflyAt len) len (fun g => zeta (128 / len + g)) r = fwdLayer r len := by
  obtain ⟨hpos, hcut⟩ := h
  rw [show fwdButterflyAt len = _ from funext (fwdButterflyAt_eq hpos), layerLoop_eq _ _ (by rw [hr, hcut]),
    fwdLayer, fwdTwiddles_eq]

theorem invLayer_eq_loop {l : InvLayer} (h : IsSpan l.len) {r : List Int} (hr : r.length = 256) :
    layerLoop (invButterflyAt l.len l.red) l.len (fun g => zetaInv (l.first + g)) r = invLayer r l := by
  rw [show invButterflyAt l.len l.red = _ from funext (invButterflyAt_eq _ _),
    layerLoop_eq _ _ (by rw [hr, h.2]), invLayer, invTwiddles_eq]

/-- Two runs through the same layers agree when each layer does on every whole slot. -/
theorem foldl_layers_congr {α : Type} {f g : List Int → α → List Int} {ls : List α}
    (h : ∀ l ∈ ls, ∀ r : List Int, r.length = 256 → f r l = g r l ∧ (g r l).length = 256) :
    ∀ r : List Int, r.length = 256 → ls.foldl f r = ls.foldl g r := by
  induction ls with
  | nil => exact fun _ _ => rfl
  | cons l ls ih =>
    intro r hr
    obtain ⟨hfg, hlen⟩ := h l List.mem_cons_self r hr
    rw [List.foldl_cons, List.foldl_cons, hfg]
    exact ih (fun l' hl' => h l' (List.mem_cons_of_mem l hl')) _ hlen

theorem nttLoops_eq_ntt {r : List Int} (hr : r.length = 256) : nttLoops r = ntt r := by
  have hspan : ∀ len ∈ [128, 64, 32, 16, 8, 4, 2], IsSpan len := by decide
  rw [nttLoops, ntt, nttLayers, foldl_layers_congr (g := fwdLayer) _ r hr]
  exact fun len hl r hr =>
    ⟨fwdLayer_eq_loop (hspan len hl) hr, length_fwdLayer r len hr (hspan len hl).2⟩

/-- Each inverse layer has a span, and its first twiddle is the one at which its loop begins. -/
theorem invLayers_spec : ∀ l ∈ invLayers, IsSpan l.len ∧ 128 - 256 / l.len = l.first := by decide

theorem inttLoops_eq_intt {r : List Int} (hr : r.length = 256) : inttLoops r = intt r := by
  have hlist : [(2, true), (4, false), (8, true), (16, false), (32, true), (64, false), (128, true)] =
      invLayers.map fun l => (l.len, l.red) := rfl
  rw [inttLoops, hlist, List.foldl_map, intt, foldl_layers_congr (g := invLayer) _ r hr]
  intro l hl r hr
  obtain ⟨hspan, hfirst⟩ := invLayers_spec l hl
  rw [hfirst]
  exact ⟨invLayer_eq_loop hspan hr, length_invLayer r l hr hspan.2⟩

/-! ### Bounds of the intermediate values (41_ntt.md R150) -/

/-- The value is at most `b` away from 0. -/
abbrev Near (b c : Int) : Prop := -b ≤ c ∧ c ≤ b

/-- A bound of the two values of the butterfly is a bound of the layer. -/
theorem near_layer {bf : Int → Int → Int → Int × Int} {b b' : Int} {len : Nat} {zs : List Int}
    (h : ∀ z ∈ zs, ∀ lo hi, Near b lo → Near b hi → Near b' (bf z lo hi).1 ∧ Near b' (bf z lo hi).2) :
    ∀ r : List Int, (∀ c ∈ r, Near b c) → ∀ c ∈ layer bf len zs r, Near b' c := by
  induction zs with
  | nil => exact fun _ _ _ hc => nomatch hc
  | cons z zs ih =>
    intro r hr c hc
    have hpair : ∀ p ∈ List.zipWith (bf z) (r.take len) ((r.drop len).take len), Near b' p.1 ∧ Near b' p.2 := by
      rw [← List.map_uncurry_zip_eq_zipWith, List.forall_mem_map]
      rintro ⟨lo, hi⟩ hmem
      obtain ⟨hlo, hhi⟩ := List.of_mem_zip hmem
      exact h z List.mem_cons_self lo hi (hr lo (List.mem_of_mem_take hlo))
        (hr hi (List.mem_of_mem_drop (List.mem_of_mem_take hhi)))
    rw [layer, List.mem_append, List.mem_append, List.mem_map, List.mem_map] at hc
    rcases hc with (⟨p, hp, rfl⟩ | ⟨p, hp, rfl⟩) | hc
    · exact (hpair p hp).1
    · exact (hpair p hp).2
    · exact ih (fun z' hz' => h z' (List.mem_cons_of_mem z hz')) _
        (fun c hc => hr c (List.mem_of_mem_drop hc)) c hc

/-- A product with a twiddle meets the precondition of MontRed. -/
theorem near_fqmul {z x : Int} (hz : Near 3328 z) (hx : Fits16 x) : Near 3328 (fqmul z x) := by
  have h := montRed_bounds (montRange_mul hx hz)
  rw [fqmul, mul_comm]
  omega

theorem near_fwdLayer {b : Int} (hb : b ≤ 32767) {r : List Int} (len : Nat) (hr : ∀ c ∈ r, Near b c) :
    ∀ c ∈ fwdLayer r len, Near (b + 3328) c := by
  refine near_layer (fun z hz lo hi hlo hhi => ?_) r hr
  obtain ⟨k, -, rfl⟩ := List.mem_map.mp hz
  have ht := near_fqmul (zeta_bounds k) (x := hi) (by omega)
  simp only [fwdButterfly]
  omega

/-- Every layer adds 3328 to the bound at most. -/
theorem near_foldl_fwdLayer (lens : List Nat) : ∀ (b : Int) (r : List Int), b + 3328 * lens.length ≤ 32767 →
    (∀ c ∈ r, Near b c) → ∀ c ∈ lens.foldl fwdLayer r, Near (b + 3328 * lens.length) c := by
  induction lens with
  | nil => intro b r _ hr; simpa using hr
  | cons len lens ih =>
    intro b r hb hr
    have hsum : b + 3328 * (len :: lens).length = b + 3328 + 3328 * lens.length := by
      rw [List.length_cons]; omega
    rw [hsum] at hb ⊢
    exact ih _ _ hb (near_fwdLayer (by omega) len hr)

theorem fits16_nttLayers {r : List Int} (hr : ∀ c ∈ r, NttRange c) : ∀ c ∈ nttLayers r, Fits16 c := by
  intro c hc
  have h := near_foldl_fwdLayer [128, 64, 32, 16, 8, 4, 2] 9471 r (by decide) hr c hc
  rw [show (9471 : Int) + 3328 * [128, 64, 32, 16, 8, 4, 2].length = 32767 by decide] at h
  omega

theorem ntt_bounds {r : List Int} (hr : ∀ c ∈ r, NttRange c) : ∀ c ∈ ntt r, 0 ≤ c ∧ c ≤ 3329 := by
  rw [ntt, List.forall_mem_map]
  exact fun c hc => barrett_bounds (fits16_nttLayers hr c hc)

/-- A layer with the Barrett reduction takes sums and differences of 16 bits back to `q` at most. -/
theorem near_invLayer_red {r : List Int} (len k : Nat) (hr : ∀ c ∈ r, Near 16383 c) :
    ∀ c ∈ invLayer r ⟨len, true, k⟩, Near 3329 c := by
  refine near_layer (fun z hz lo hi hlo hhi => ?_) r hr
  obtain ⟨k, -, rfl⟩ := List.mem_map.mp hz
  have hsum := barrett_bounds (a := lo + hi) (by omega)
  have hdiff := near_fqmul (zetaInv_bounds k) (x := lo - hi) (by omega)
  simp only [invButterfly, if_true]
  omega

/-- A layer without it doubles the bound at most, which a reducing layer still takes. -/
theorem near_invLayer_plain {r : List Int} (len k : Nat) (hr : ∀ c ∈ r, Near 3329 c) :
    ∀ c ∈ invLayer r ⟨len, false, k⟩, Near 16383 c := by
  refine near_layer (fun z hz lo hi hlo hhi => ?_) r hr
  obtain ⟨k, -, rfl⟩ := List.mem_map.mp hz
  have hdiff := near_fqmul (zetaInv_bounds k) (x := lo - hi) (by omega)
  simp only [invButterfly, Bool.false_eq_true, if_false]
  omega

/-- The reducing layers alternate with the others. -/
theorem near_invLayers {r : List Int} (hr : ∀ c ∈ r, InttRange c) :
    ∀ c ∈ invLayers.foldl invLayer r, Near 3329 c :=
  have h2 := near_invLayer_plain 4 64 (near_invLayer_red 2 0 hr)
  have h4 := near_invLayer_plain 16 112 (near_invLayer_red 8 96 h2)
  have h6 := near_invLayer_plain 64 124 (near_invLayer_red 32 120 h4)
  near_invLayer_red 128 126 h6

theorem intt_bounds {r : List Int} (hr : ∀ c ∈ r, InttRange c) : ∀ c ∈ intt r, -3328 ≤ c ∧ c ≤ 3328 := by
  rw [intt, List.forall_mem_map]
  intro c hc
  have hc' := near_invLayers hr c hc
  exact near_fqmul (zetaInv_bounds 127) (by omega)

/-! ### The commands (41_ntt.md R144, R146) -/

/-- A transform of a readable slot in place: the precondition decides between the write and the refusal. -/
theorem withSlot_transform {f : List Int → List Int} {pre : Int → Prop} [DecidablePred pre] {rd : Slot}
    {s : State} {p : List Int} {k : Result} (hp : s.readSlot rd.val = some p)
    (hk : k = withSlot s rd fun r => requiring (∀ c ∈ r, pre c) (.next (s.writeSlot rd.val (f r))))
    (hlen : (f p).length = 256) (hfits : (∀ c ∈ p, pre c) → ∀ c ∈ f p, Fits16 c) :
    ((∀ c ∈ p, pre c) → ∃ t, k = .next t ∧ t = { s with mem := t.mem } ∧ t.readSlot rd.val = some (f p)) ∧
      ((¬∀ c ∈ p, pre c) → k = .refused .contractViolation) := by
  rw [withSlot, hp, written_some] at hk
  exact ⟨fun h => next_writeSlot (hk.trans (requiring_pos _ h)) hlen (hfits h),
    fun h => hk.trans (requiring_neg _ h)⟩

theorem execNtt_transform {rd : Slot} {s : State} {p : List Int} (hp : s.readSlot rd.val = some p) :
    ((∀ c ∈ p, NttRange c) → ∃ t, execNtt rd s = .next t ∧ t = { s with mem := t.mem } ∧
        t.readSlot rd.val = some (ntt p)) ∧
      ((¬∀ c ∈ p, NttRange c) → execNtt rd s = .refused .contractViolation) := by
  refine withSlot_transform hp rfl (length_ntt (readSlot_some hp).1) fun h c hc => ?_
  have hc' := ntt_bounds h c hc
  omega

theorem execIntt_transform {rd : Slot} {s : State} {p : List Int} (hp : s.readSlot rd.val = some p) :
    ((∀ c ∈ p, InttRange c) → ∃ t, execIntt rd s = .next t ∧ t = { s with mem := t.mem } ∧
        t.readSlot rd.val = some (intt p)) ∧
      ((¬∀ c ∈ p, InttRange c) → execIntt rd s = .refused .contractViolation) := by
  refine withSlot_transform hp rfl (length_intt (readSlot_some hp).1) fun h c hc => ?_
  have hc' := intt_bounds h c hc
  omega

/-- Settles O31: the loops compute the model's transform, whose values are bounded layer by layer. -/
theorem nttCommand : Obligations.NttCommand := by
  intro s rd p hp
  obtain ⟨hrun, hrefuse⟩ := execNtt_transform hp
  rw [nttLoops_eq_ntt (readSlot_some hp).1]
  refine ⟨fun h => ?_, hrefuse⟩
  obtain ⟨t, ht, hframe, hread⟩ := hrun h
  exact ⟨t, ht, hframe, hread, ntt_bounds h⟩

/-- Settles O32: the loops compute the model's transform, whose values are bounded layer by layer. -/
theorem inttCommand : Obligations.InttCommand := by
  intro s rd p hp
  obtain ⟨hrun, hrefuse⟩ := execIntt_transform hp
  rw [inttLoops_eq_intt (readSlot_some hp).1]
  refine ⟨fun h => ?_, hrefuse⟩
  obtain ⟨t, ht, hframe, hread⟩ := hrun h
  exact ⟨t, ht, hframe, hread, intt_bounds h⟩

/-! ### The datapath modulo q (41_ntt.md R141 to R145) -/

/-- The residues modulo q. -/
abbrev Zq := ZMod 3329

/-- Integers are equal residues when their remainders agree. -/
theorem cast_eq_cast_iff {a b : Int} : (a : Zq) = (b : Zq) ↔ a % 3329 = b % 3329 :=
  ZMod.intCast_eq_intCast_iff' a b 3329

theorem cast_barrett (a : Int) : (barrett a : Zq) = a := cast_eq_cast_iff.mpr (barrett_emod a)

/-- MontRed divides by 2^16: 169 is its inverse (00_scope.md R12). -/
theorem cast_fqmul (z x : Int) : (fqmul z x : Zq) = z * 169 * x := by
  have h : (fqmul z x : Zq) = ((z * x * 169 : Int) : Zq) := cast_eq_cast_iff.mpr (montRed_emod _)
  rw [h]
  push_cast
  ring

/-- Out of Montgomery form, entry `k` of the forward table is 17 to the bit reversal of `k`. -/
theorem cast_zeta {k : Nat} (hk : k < 128) : (zeta k : Zq) * 169 = 17 ^ brv7 k := by
  have hone : (65536 * 169 : Zq) = 1 := by decide
  have h : (zeta k : Zq) = ((65536 * 17 ^ brv7 k : Int) : Zq) := by
    rw [zeta_eq ⟨k, hk⟩]
    exact ZMod.intCast_mod _ 3329
  rw [h]
  push_cast
  linear_combination (17 : Zq) ^ brv7 k * hone

/-- The forward butterfly multiplies the high value by the twiddle, then adds and subtracts. -/
theorem cast_fwdButterfly (z lo hi : Int) :
    ((fwdButterfly z lo hi).1 : Zq) = lo + z * 169 * hi ∧
      ((fwdButterfly z lo hi).2 : Zq) = lo - z * 169 * hi := by
  simp [fwdButterfly, cast_fqmul]

/-- The inverse butterfly adds and subtracts, then multiplies the difference by the twiddle; Barrett keeps the
residue. -/
theorem cast_invButterfly (red : Bool) (z lo hi : Int) :
    ((invButterfly red z lo hi).1 : Zq) = lo + hi ∧
      ((invButterfly red z lo hi).2 : Zq) = z * 169 * (lo - hi) := by
  cases red <;> simp [invButterfly, cast_fqmul, cast_barrett]

/-! ### A layer pair by pair -/

/-- Where the two values of each pair stand in a layer's array, and where the later groups stand. -/
theorem getD_pairs_append (ps : List (Int × Int)) (rest : List Int) :
    (∀ (j : Nat) (h : j < ps.length),
      (ps.map Prod.fst ++ ps.map Prod.snd ++ rest).getD j 0 = ps[j].1 ∧
      (ps.map Prod.fst ++ ps.map Prod.snd ++ rest).getD (j + ps.length) 0 = ps[j].2) ∧
    ∀ i, (ps.map Prod.fst ++ ps.map Prod.snd ++ rest).getD (2 * ps.length + i) 0 = rest.getD i 0 := by
  refine ⟨fun j h => ⟨?_, ?_⟩, fun i => ?_⟩
  · rw [List.append_assoc, List.getD_append _ _ _ _ (by simpa), List.getD_eq_getElem _ 0 (by simpa),
      List.getElem_map]
  · rw [List.append_assoc, List.getD_append_right _ _ _ _ (by simp), List.length_map, Nat.add_sub_cancel,
      List.getD_append _ _ _ _ (by simpa), List.getD_eq_getElem _ 0 (by simpa), List.getElem_map]
  · rw [List.getD_append_right _ _ _ _ (by simp; omega)]
    simp [two_mul]

theorem getD_drop_zero (r : List Int) (n i : Nat) : (r.drop n).getD i 0 = r.getD (n + i) 0 := by
  rw [List.getD_eq_getElem?_getD, List.getElem?_drop, List.getD_eq_getElem?_getD]

/-- Pair `j` of group `g` after a layer is the butterfly of that pair before it. -/
theorem getD_layer (bf : Int → Int → Int → Int × Int) {len j : Nat} (hj : j < len) (zs : List Int) :
    ∀ (r : List Int) (g : Nat), r.length = zs.length * (2 * len) → g < zs.length →
      (layer bf len zs r).getD (2 * len * g + j) 0 =
        (bf (zs.getD g 0) (r.getD (2 * len * g + j) 0) (r.getD (2 * len * g + j + len) 0)).1 ∧
      (layer bf len zs r).getD (2 * len * g + j + len) 0 =
        (bf (zs.getD g 0) (r.getD (2 * len * g + j) 0) (r.getD (2 * len * g + j + len) 0)).2 := by
  induction zs with
  | nil => intro r g _ hg; exact nomatch hg
  | cons z zs ih =>
    intro r g hr hg
    have hr' : r.length = zs.length * (2 * len) + 2 * len := by rw [hr, List.length_cons, Nat.succ_mul]
    have hlen : (List.zipWith (bf z) (r.take len) ((r.drop len).take len)).length = len := by
      rw [List.length_zipWith, List.length_take, List.length_take, List.length_drop]; omega
    obtain ⟨hfirst, hlater⟩ := getD_pairs_append
      (List.zipWith (bf z) (r.take len) ((r.drop len).take len)) (layer bf len zs (r.drop (2 * len)))
    simp only [hlen] at hfirst hlater
    cases g with
    | zero =>
      have hlo : j < r.length := by omega
      have hhi : len + j < r.length := by omega
      have hpair : (List.zipWith (bf z) (r.take len) ((r.drop len).take len))[j]'(hlen.symm ▸ hj) =
          bf z (r.getD j 0) (r.getD (j + len) 0) := by
        simp [hlo, hhi, Nat.add_comm j len]
      rw [Nat.mul_zero, Nat.zero_add, List.getD_cons_zero, ← hpair]
      exact hfirst j hj
    | succ g =>
      have hlo : 2 * len * (g + 1) + j = 2 * len + (2 * len * g + j) := by rw [Nat.mul_succ]; omega
      have hrest := ih (r.drop (2 * len)) g (by rw [List.length_drop]; omega) (Nat.lt_of_succ_lt_succ hg)
      rw [getD_drop_zero, getD_drop_zero] at hrest
      rw [hlo, Nat.add_assoc (2 * len), layer, hlater, hlater, List.getD_cons_succ]
      exact hrest

/-- What holds at both positions of every pair holds at every position. -/
theorem forall_of_pairs {P : Nat → Prop} {n len : Nat}
    (h : ∀ g < n, ∀ j < len, P (2 * len * g + j) ∧ P (2 * len * g + j + len)) : ∀ i < n * (2 * len), P i := by
  intro i hi
  have hpos : 0 < 2 * len := Nat.pos_of_ne_zero (by rintro h0; simp [h0] at hi)
  have hg : i / (2 * len) < n := Nat.div_lt_of_lt_mul (by rwa [Nat.mul_comm])
  have hi' := Nat.div_add_mod i (2 * len)
  have hm := Nat.mod_lt i hpos
  rcases lt_or_ge (i % (2 * len)) len with hlt | hge
  · rw [← hi']
    exact (h _ hg _ hlt).1
  · have hj := (h _ hg (i % (2 * len) - len) (by omega)).2
    rwa [show 2 * len * (i / (2 * len)) + (i % (2 * len) - len) + len = i by omega] at hj

/-- A forward layer pair by pair, modulo q. -/
theorem cast_fwdLayer {len g j : Nat} (h : IsSpan len) {r : List Int} (hr : r.length = 256)
    (hg : g < 128 / len) (hj : j < len) :
    ((fwdLayer r len).getD (2 * len * g + j) 0 : Zq) =
        r.getD (2 * len * g + j) 0 + zeta (128 / len + g) * 169 * r.getD (2 * len * g + j + len) 0 ∧
      ((fwdLayer r len).getD (2 * len * g + j + len) 0 : Zq) =
        r.getD (2 * len * g + j) 0 - zeta (128 / len + g) * 169 * r.getD (2 * len * g + j + len) 0 := by
  obtain ⟨hlo, hhi⟩ := getD_layer fwdButterfly hj (fwdTwiddles (128 / len) (128 / len)) r g
    (by rw [hr, fwdTwiddles_eq, List.length_map, List.length_range, h.2])
    (by rwa [fwdTwiddles_eq, List.length_map, List.length_range])
  have hz : (fwdTwiddles (128 / len) (128 / len)).getD g 0 = zeta (128 / len + g) := by
    simp [fwdTwiddles_eq, hg]
  rw [fwdLayer, hlo, hhi, hz]
  exact cast_fwdButterfly _ _ _

/-- An inverse layer pair by pair, modulo q. -/
theorem cast_invLayer {l : InvLayer} {g j : Nat} (h : IsSpan l.len) {r : List Int} (hr : r.length = 256)
    (hg : g < 128 / l.len) (hj : j < l.len) :
    ((invLayer r l).getD (2 * l.len * g + j) 0 : Zq) =
        r.getD (2 * l.len * g + j) 0 + r.getD (2 * l.len * g + j + l.len) 0 ∧
      ((invLayer r l).getD (2 * l.len * g + j + l.len) 0 : Zq) =
        zetaInv (l.first + g) * 169 *
          (r.getD (2 * l.len * g + j) 0 - r.getD (2 * l.len * g + j + l.len) 0) := by
  obtain ⟨hlo, hhi⟩ := getD_layer (invButterfly l.red) hj (invTwiddles l.first (128 / l.len)) r g
    (by rw [hr, invTwiddles_eq, List.length_map, List.length_range, h.2])
    (by rwa [invTwiddles_eq, List.length_map, List.length_range])
  have hz : (invTwiddles l.first (128 / l.len)).getD g 0 = zetaInv (l.first + g) := by
    simp [invTwiddles_eq, hg]
  rw [invLayer, hlo, hhi, hz]
  exact cast_invButterfly _ _ _ _

/-! ### The inverse layers undo the forward layers (41_ntt.md R149) -/

/-- The twiddle of a group in an inverse layer is the inverse, in Montgomery form, of the group's twiddle in the
forward layer of the same span (41_ntt.md R142). -/
theorem zetaInv_mul_zeta : ∀ l ∈ invLayers, ∀ g < 128 / l.len,
    zetaInv (l.first + g) * zeta (128 / l.len + g) % 3329 = 65536 * 65536 % 3329 := by decide +kernel

theorem cast_zetaInv_mul_zeta {l : InvLayer} (hl : l ∈ invLayers) {g : Nat} (hg : g < 128 / l.len) :
    (zetaInv (l.first + g) * 169 : Zq) * (zeta (128 / l.len + g) * 169) = 1 := by
  have h : (((zetaInv (l.first + g) * zeta (128 / l.len + g) : Int)) : Zq) = ((65536 * 65536 : Int) : Zq) :=
    cast_eq_cast_iff.mpr (zetaInv_mul_zeta l hl g hg)
  have hone : (65536 * 169 * (65536 * 169) : Zq) = 1 := by decide
  push_cast at h
  linear_combination 169 * 169 * h + hone

/-- Modulo q, every coefficient of the first array is `c` times that of the second. -/
def Scaled (c : Zq) (r s : List Int) : Prop := ∀ i < 256, (r.getD i 0 : Zq) = c * s.getD i 0

/-- An inverse layer takes the forward layer of its span back to twice the array before it. -/
theorem scaled_invLayer {c : Zq} {l : InvLayer} (hl : l ∈ invLayers) {r s : List Int} (hr : r.length = 256)
    (hs : s.length = 256) (h : Scaled c r (fwdLayer s l.len)) : Scaled (2 * c) (invLayer r l) s := by
  obtain ⟨hspan, -⟩ := invLayers_spec l hl
  have hpairs := forall_of_pairs (n := 128 / l.len) (len := l.len)
    (P := fun i => ((invLayer r l).getD i 0 : Zq) = 2 * c * s.getD i 0) fun g hg j hj => ?_
  · rwa [hspan.2] at hpairs
  · have hg' : 2 * l.len * g + 2 * l.len ≤ 256 := by
      rw [← hspan.2, Nat.mul_comm (128 / l.len), ← Nat.mul_succ]
      exact Nat.mul_le_mul_left _ hg
    obtain ⟨hflo, hfhi⟩ := cast_fwdLayer hspan hs hg hj
    obtain ⟨hilo, hihi⟩ := cast_invLayer hspan hr hg hj
    have hrlo := h (2 * l.len * g + j) (by omega)
    have hrhi := h (2 * l.len * g + j + l.len) (by omega)
    have hinv := cast_zetaInv_mul_zeta hl hg
    rw [hflo] at hrlo
    rw [hfhi] at hrhi
    constructor
    · rw [hilo, hrlo, hrhi]
      ring
    · rw [hihi, hrlo, hrhi]
      linear_combination 2 * c * s.getD (2 * l.len * g + j + l.len) 0 * hinv

/-- The forward layers in the order in which the inverse layers undo them. -/
theorem nttLayers_eq_foldr (p : List Int) :
    nttLayers p = invLayers.foldr (fun l s => fwdLayer s l.len) p := rfl

theorem length_foldr_fwdLayer {ls : List InvLayer} (hls : ∀ l ∈ ls, l ∈ invLayers) {p : List Int}
    (hp : p.length = 256) : (ls.foldr (fun l s => fwdLayer s l.len) p).length = 256 := by
  induction ls with
  | nil => exact hp
  | cons l ls ih =>
    exact length_fwdLayer _ _ (ih fun l' hl' => hls l' (List.mem_cons_of_mem l hl'))
      (invLayers_spec l (hls l List.mem_cons_self)).1.2

/-- Inverse layers, each undoing the last forward layer left, double the factor each. -/
theorem scaled_foldl_invLayer {p : List Int} (hp : p.length = 256) {ls : List InvLayer} :
    (∀ l ∈ ls, l ∈ invLayers) → ∀ (c : Zq) (r : List Int), r.length = 256 →
      Scaled c r (ls.foldr (fun l s => fwdLayer s l.len) p) →
      Scaled (2 ^ ls.length * c) (ls.foldl invLayer r) p := by
  induction ls with
  | nil => intro _ c r _ h; simpa using h
  | cons l ls ih =>
    intro hls c r hr h
    have hl := hls l List.mem_cons_self
    have hls' : ∀ l' ∈ ls, l' ∈ invLayers := fun l' hl' => hls l' (List.mem_cons_of_mem l hl')
    have hstep := scaled_invLayer hl hr (length_foldr_fwdLayer hls' hp) h
    have hlen := length_invLayer r l hr (invLayers_spec l hl).1.2
    rw [List.length_cons, pow_succ, mul_assoc]
    exact ih hls' (2 * c) _ hlen hstep

/-- A function that keeps 0 acts on an array's coefficients, those past its end included. -/
theorem getD_map_zero {f : Int → Int} (hf : f 0 = 0) (r : List Int) (i : Nat) :
    (r.map f).getD i 0 = f (r.getD i 0) := by
  rw [← List.getD_map r 0 f, hf]

theorem scaled_ntt (p : List Int) : Scaled 1 (ntt p) (nttLayers p) := by
  intro i _
  rw [ntt, getD_map_zero rfl, cast_barrett, one_mul]

/-- INTT after NTT gives every coefficient back modulo q: the scale pass divides by 2^7. -/
theorem cast_intt_ntt {p : List Int} (hp : p.length = 256) {i : Nat} (hi : i < 256) :
    ((intt (ntt p)).getD i 0 : Zq) = p.getD i 0 := by
  have h := scaled_foldl_invLayer hp (ls := invLayers) (fun _ hl => hl) 1 (ntt p) (length_ntt hp)
    (nttLayers_eq_foldr p ▸ scaled_ntt p) i hi
  have hone : (512 * 169 * (2 ^ 7 * 1) : Zq) = 1 := by decide
  rw [intt, getD_map_zero rfl, cast_fqmul, h, show invLayers.length = 7 from rfl,
    show zetaInv 127 = 512 from rfl]
  push_cast
  linear_combination (p.getD i 0 : Zq) * hone

theorem intt_ntt_emod {p : List Int} (hp : p.length = 256) (hcanon : ∀ c ∈ p, 0 ≤ c ∧ c ≤ 3328) {i : Nat}
    (hi : i < 256) : (intt (ntt p)).getD i 0 % 3329 = p.getD i 0 := by
  obtain ⟨hlo, hhi⟩ := hcanon (p.getD i 0) (by
    rw [List.getD_eq_getElem _ 0 (hp ▸ hi)]
    exact List.getElem_mem _)
  rw [cast_eq_cast_iff.mp (cast_intt_ntt hp hi), Int.emod_eq_of_lt hlo (by omega)]

/-- Barrett and csubq of coefficients congruent to canonical ones give those. -/
theorem map_csubq_map_barrett {b p : List Int} (hb : b.length = 256) (hp : p.length = 256)
    (hfits : ∀ c ∈ b, Fits16 c) (h : ∀ i < 256, b.getD i 0 % 3329 = p.getD i 0) :
    (b.map barrett).map csubq = p := by
  refine List.ext_getElem (by simp [hb, hp]) fun i hib hip => ?_
  have hi : i < 256 := hp ▸ hip
  have hcongr := h i hi
  rw [List.getD_eq_getElem _ 0 (hb ▸ hi), List.getD_eq_getElem _ 0 hip] at hcongr
  rw [List.getElem_map, List.getElem_map, csubq_barrett (hfits _ (List.getElem_mem _)), hcongr]

/-- Settles O33: each inverse layer undoes a forward layer up to a factor 2, the scale pass removes the seven
factors, and PBARRETT then PCSUBQ give the canonical residue. -/
theorem transformRoundTrip : Obligations.TransformRoundTrip := by
  intro s r p hp hcanon
  obtain ⟨hlen, -⟩ := readSlot_some hp
  have hntt : ∀ c ∈ p, NttRange c := fun c hc => by have := hcanon c hc; omega
  have hintt : ∀ c ∈ ntt p, InttRange c := fun c hc => by have := ntt_bounds hntt c hc; omega
  have hback := fun i (hi : i < 256) => intt_ntt_emod hlen hcanon hi
  have hlenb := length_intt (length_ntt hlen)
  have hbounds := intt_bounds hintt
  obtain ⟨t1, h1, -, hread1⟩ := (execNtt_transform hp).1 hntt
  obtain ⟨t2, h2, -, hread2⟩ := (execIntt_transform hread1).1 hintt
  obtain ⟨t3, h3, -, hread3⟩ := execPbarrett_of_readSlot (rd := r) hread2
  obtain ⟨hlen2, hfits⟩ := readSlot_some hread2
  have hcsubq : ∀ c ∈ (intt (ntt p)).map barrett, CsubqRange c := by
    rw [List.forall_mem_map]
    intro c hc
    have := barrett_bounds (hfits c hc)
    omega
  obtain ⟨t4, h4, -, hread4⟩ := execPcsubq_of_readSlot (rd := r) hread3 hcsubq
  rw [map_csubq_map_barrett hlenb hlen hfits hback] at hread4
  refine ⟨t1, t2, t3, t4, h1, h2, ⟨_, hread2, fun i hi => ⟨hback i hi, ?_⟩⟩, h3, h4, hread4⟩
  rw [List.getD_eq_getElem _ 0 (hlenb ▸ hi)]
  exact hbounds _ (List.getElem_mem _)

/-! ### The remainders modulo the 128 quadratics (41_ntt.md R148) -/

/-- The layers walk a binary tree whose node `c` is the modulus X^m - w for this `w`: node 1 is X^256 + 1, and
the layer that reaches node `c` below 128 splits it, by the twiddle of index `c`, into nodes 2c and 2c + 1. -/
def nodeRoot (c : Nat) : Zq := (-1) ^ (c % 2) * 17 ^ brv7 (c / 2)

theorem nodeRoot_even (c : Nat) : nodeRoot (2 * c) = 17 ^ brv7 c := by
  rw [nodeRoot, Nat.mul_mod_right, Nat.mul_div_cancel_left c (by decide), pow_zero, one_mul]

theorem nodeRoot_odd (c : Nat) : nodeRoot (2 * c + 1) = -17 ^ brv7 c := by
  rw [nodeRoot, Nat.mul_add_mod, show (2 * c + 1) / 2 = c by omega, Nat.mod_eq_of_lt (by decide), pow_one,
    neg_one_mul]

/-- 17 is a primitive 256th root of unity modulo q (41_ntt.md R141). -/
theorem pow_128 : (17 : Zq) ^ 128 = -1 := by
  have h : ((17 ^ 128 : Int) : Zq) = ((-1 : Int) : Zq) := cast_eq_cast_iff.mpr (by decide)
  rwa [Int.cast_pow, Int.cast_ofNat, Int.cast_neg, Int.cast_one] at h

/-- Halving an index doubles its bit reversal, but for the bit shifted out. -/
theorem two_mul_brv7 : ∀ c : Fin 128, 2 * brv7 c = brv7 (c / 2) + 128 * (c % 2) := by decide

/-- The square of a node's twiddle is its root, so X^(2m) - w splits into X^m minus and plus the twiddle. -/
theorem sq_twiddle {c : Nat} (hc : c < 128) : ((17 : Zq) ^ brv7 c) ^ 2 = nodeRoot c := by
  rw [← pow_mul, Nat.mul_comm, two_mul_brv7 ⟨c, hc⟩, pow_add, pow_mul, pow_128, nodeRoot, mul_comm]

/-- The root of a leaf is the power of R148. -/
theorem nodeRoot_leaf {i : Nat} (hi : i < 128) : nodeRoot (128 + i) = 17 ^ (2 * brv7 i + 1) := by
  have hbrv : ∀ i : Fin 128, brv7 ((128 + i) / 2) + 128 * ((128 + i) % 2) = 2 * brv7 i + 1 := by decide
  rw [nodeRoot, ← hbrv ⟨i, hi⟩, pow_add, pow_mul, pow_128, mul_comm]

/-- A polynomial's terms of even and of odd degree. -/
theorem sum_even_add_odd (n : Nat) (f : Nat → Zq) (w : Zq) :
    ∑ m ∈ Finset.range (2 * n), f m * w ^ m =
      ∑ m ∈ Finset.range n, f (2 * m) * (w ^ 2) ^ m +
        w * ∑ m ∈ Finset.range n, f (2 * m + 1) * (w ^ 2) ^ m := by
  induction n with
  | zero => simp
  | succ n ih =>
    rw [Nat.mul_succ, Finset.sum_range_succ, Finset.sum_range_succ, ih, Finset.sum_range_succ,
      Finset.sum_range_succ]
    ring

/-- Coefficient `j` of the remainder of `a` modulo X^len - w, where `n * len` coefficients are given. -/
def remainderCoeff (a : List Int) (n len : Nat) (w : Zq) (j : Nat) : Zq :=
  ∑ m ∈ Finset.range n, (a.getD (len * m + j) 0 : Zq) * w ^ m

/-- The remainder modulo X^len - w from that modulo X^(2 len) - w^2. -/
theorem remainderCoeff_split (a : List Int) (n len : Nat) (w : Zq) (j : Nat) :
    remainderCoeff a (2 * n) len w j =
      remainderCoeff a n (2 * len) (w ^ 2) j + w * remainderCoeff a n (2 * len) (w ^ 2) (j + len) := by
  have heven : ∀ m, len * (2 * m) + j = 2 * len * m + j := fun m => by ring
  have hodd : ∀ m, len * (2 * m + 1) + j = 2 * len * m + (j + len) := fun m => by ring
  rw [remainderCoeff, sum_even_add_odd n (fun m => (a.getD (len * m + j) 0 : Zq))]
  simp only [heven, hodd, remainderCoeff]

/-- The array holds, block by block, the remainders of `a` modulo the `n` moduli X^len - w of one depth of the
tree. -/
structure HoldsRemainders (a : List Int) (n len : Nat) (r : List Int) : Prop where
  length : r.length = 256
  coeff : ∀ b < n, ∀ j < len, (r.getD (len * b + j) 0 : Zq) = remainderCoeff a n len (nodeRoot (n + b)) j

theorem holdsRemainders_self {a : List Int} (ha : a.length = 256) : HoldsRemainders a 1 256 a where
  length := ha
  coeff b hb j _ := by
    obtain rfl : b = 0 := Nat.lt_one_iff.mp hb
    simp [remainderCoeff]

/-- A forward layer goes one step down the tree. -/
theorem HoldsRemainders.fwdLayer {a r : List Int} {n len : Nat} (h : HoldsRemainders a n (2 * len) r)
    (hspan : IsSpan len) (hn : 128 / len = n) (hn64 : n ≤ 64) :
    HoldsRemainders a (2 * n) len (fwdLayer r len) where
  length := length_fwdLayer r len h.length hspan.2
  coeff b hb j hj := by
    have hg : b / 2 < n := by omega
    obtain ⟨hlo, hhi⟩ := cast_fwdLayer hspan h.length (hn ▸ hg) hj
    rw [hn, cast_zeta (by omega), Nat.add_assoc (2 * len * _), h.coeff _ hg _ (by omega),
      h.coeff _ hg _ (by omega), ← sq_twiddle (by omega)] at hlo hhi
    rw [remainderCoeff_split]
    rcases Nat.mod_two_eq_zero_or_one b with hb2 | hb2
    · have hc : 2 * n + b = 2 * (n + b / 2) := by omega
      have hi : len * b + j = 2 * len * (b / 2) + j := by
        rw [Nat.mul_comm 2 len, Nat.mul_assoc, show 2 * (b / 2) = b by omega]
      rw [hc, nodeRoot_even, hi, hlo]
    · have hc : 2 * n + b = 2 * (n + b / 2) + 1 := by omega
      have hi : len * b + j = 2 * len * (b / 2) + (j + len) := by
        rw [show len * b = len * (2 * (b / 2) + 1) by rw [show 2 * (b / 2) + 1 = b by omega]]
        ring
      rw [hc, nodeRoot_odd, hi, hhi, neg_sq]
      ring

/-- The seven layers lead from X^256 + 1 to the 128 quadratics. -/
theorem holdsRemainders_nttLayers {a : List Int} (ha : a.length = 256) :
    HoldsRemainders a 128 2 (nttLayers a) := by
  have h1 := (holdsRemainders_self ha).fwdLayer (len := 128) (by decide) rfl (by decide)
  have h2 := h1.fwdLayer (len := 64) (by decide) rfl (by decide)
  have h3 := h2.fwdLayer (len := 32) (by decide) rfl (by decide)
  have h4 := h3.fwdLayer (len := 16) (by decide) rfl (by decide)
  have h5 := h4.fwdLayer (len := 8) (by decide) rfl (by decide)
  have h6 := h5.fwdLayer (len := 4) (by decide) rfl (by decide)
  exact h6.fwdLayer (len := 2) (by decide) rfl (by decide)

/-- Each coefficient of a pair of the result is the sum of R148. -/
theorem ntt_getD_emod {a : List Int} (ha : a.length = 256) {i j : Nat} (hi : i < 128) (hj : j < 2) :
    (ntt a).getD (2 * i + j) 0 % 3329 =
      ((List.range 128).map fun m => a.getD (2 * m + j) 0 * 17 ^ ((2 * brv7 i + 1) * m)).sum % 3329 := by
  apply cast_eq_cast_iff.mp
  rw [scaled_ntt a _ (by omega), one_mul, (holdsRemainders_nttLayers ha).coeff i hi j hj, nodeRoot_leaf hi,
    remainderCoeff]
  change _ = ((∑ m ∈ Finset.range 128, a.getD (2 * m + j) 0 * 17 ^ ((2 * brv7 i + 1) * m) : Int) : Zq)
  push_cast
  simp only [pow_mul]

/-- Settles O34: the layers compute remainders down a tree of moduli, and Barrett keeps the residues. -/
theorem nttIsTheRemainders : Obligations.NttIsTheRemainders := fun _ ha _ _ hi =>
  ⟨ntt_getD_emod (j := 0) ha hi (by decide), ntt_getD_emod (j := 1) ha hi (by decide)⟩

end Sys2Proof.Machine

/-! # 42_basemul.md: the base multiplication, the polynomial product pair by pair, and the sum of PWACC -/

namespace Sys2Proof.Machine

/-! ### Bounds of products and sums -/

theorem near_mul {m n x y : Int} (hx : Near m x) (hy : Near n y) : Near (m * n) (x * y) := by
  rw [Near, ← abs_le, abs_mul]
  exact mul_le_mul (abs_le.mpr hx) (abs_le.mpr hy) (abs_nonneg y) ((abs_nonneg x).trans (abs_le.mpr hx))

theorem near_sum {b : Int} {l : List Int} (h : ∀ c ∈ l, Near b c) : Near (l.length * b) l.sum := by
  have hlo := List.card_nsmul_le_sum l (-b) fun c hc => (h c hc).1
  have hhi := List.sum_le_card_nsmul l b fun c hc => (h c hc).2
  rw [nsmul_eq_mul] at hlo hhi
  exact ⟨by rwa [← mul_neg], hhi⟩

/-- A bound of the coefficients is a bound of what any index reads: past the end that is 0. -/
theorem near_getD {b : Int} (hb : 0 ≤ b) {r : List Int} (h : ∀ c ∈ r, Near b c) (i : Nat) :
    Near b (r.getD i 0) := by
  rcases lt_or_ge i r.length with hi | hi
  · rw [List.getD_eq_getElem _ 0 hi]
    exact h _ (List.getElem_mem hi)
  · rw [List.getD_eq_default _ 0 hi]
    omega

theorem near_montRed {a : Int} (h : MontRange a) : Near 3328 (montRed a) := by
  have hb := montRed_bounds h
  omega

/-! ### The base multiplication (42_basemul.md R171) -/

/-- Coefficients within 7385 meet the precondition: 2 * 7385^2 is below 2^15 * q, and 2 * 7386^2 is
not. -/
theorem BasemulArgs.legal_of_near {c : BasemulArgs} (hz : Near 3328 c.z) (ha0 : Near 7385 c.a0)
    (ha1 : Near 7385 c.a1) (hb0 : Near 7385 c.b0) (hb1 : Near 7385 c.b1) : c.Legal := by
  have h00 := near_mul ha0 hb0
  have h01 := near_mul ha0 hb1
  have h10 := near_mul ha1 hb0
  have h11 := near_mul ha1 hb1
  have hprod : MontRange (c.a1 * c.b1) := by omega
  have hu := near_mul (near_montRed hprod) hz
  refine ⟨hprod, ?s0, ?s1⟩
  case s0 => rw [BasemulArgs.s0]; omega
  case s1 => rw [BasemulArgs.s1]; omega

theorem BasemulArgs.Legal.near_product {c : BasemulArgs} (h : c.Legal) :
    Near 3328 c.product.1 ∧ Near 3328 c.product.2 := by
  obtain ⟨-, hs0, hs1⟩ := h
  exact ⟨near_montRed hs0, near_montRed hs1⟩

/-- MontRed divides by 2^16 modulo q. -/
theorem cast_montRed_mul (a : Int) : (montRed a : Zq) * 65536 = a := by
  have h := cast_eq_cast_iff.mpr (montRed_mul_emod a)
  exact_mod_cast h

/-- The two factors 2^16, of the twiddle and of the inner MontRed, cancel in `s0`. -/
theorem BasemulArgs.s0_emod {c : BasemulArgs} {ζ : Int} (hz : c.z % 3329 = 65536 * ζ % 3329) :
    c.s0 % 3329 = (c.a0 * c.b0 + c.a1 * c.b1 * ζ) % 3329 := by
  have hz' := cast_eq_cast_iff.mpr hz
  have hu := cast_montRed_mul (c.a1 * c.b1)
  apply cast_eq_cast_iff.mp
  rw [BasemulArgs.s0]
  push_cast at hz' hu ⊢
  linear_combination (montRed (c.a1 * c.b1) : Zq) * hz' + (ζ : Zq) * hu

/-- Settles O35: MontRed divides both sums by 2^16, and the bounds of the four products bound the sums. -/
theorem basemulIsQuadraticProduct : Obligations.BasemulIsQuadraticProduct := by
  intro c hzlo hzhi
  refine ⟨fun hlegal ζ hζ => ?product, fun h1 h2 h3 h4 h5 h6 h7 h8 =>
    BasemulArgs.legal_of_near ⟨hzlo, hzhi⟩ ⟨h1, h2⟩ ⟨h3, h4⟩ ⟨h5, h6⟩ ⟨h7, h8⟩⟩
  obtain ⟨⟨hlo0, hhi0⟩, hlo1, hhi1⟩ := hlegal.near_product
  exact ⟨(montRed_mul_emod c.s0).trans (BasemulArgs.s0_emod hζ), montRed_mul_emod c.s1,
    hlo0, hhi0, hlo1, hhi1⟩

/-! ### BASEMUL (42_basemul.md R172) -/

/-- A register read by its number. -/
theorem getD_x (s : State) (r : Reg) : s.x.getD r.val 0 = s.x[r] := by
  simp [Vector.getD]

/-- What a register write leaves in the register of any number. -/
theorem getD_writeX (s : State) (i : Reg) (v : Int) (n : Nat) :
    (s.writeX i v).x.getD n 0 = if n = i.val then BitVec.ofInt 32 v else s.x.getD n 0 := by
  rcases lt_or_ge n 16 with hn | hn
  · simp [Vector.getD, hn, Array.getElem_set, eq_comm]
  · simp [Vector.getD, Nat.not_lt.mpr hn, show n ≠ i.val by omega]

theorem operand16_eq_getD (s : State) (r : Reg) :
    s.operand16 r = ((s.x.getD r.val 0).truncate 16).toInt := by
  rw [State.operand16, getD_x]

/-- Register `n` as a 16-bit source, by its number. -/
def State.coeffReg (s : State) (n : Nat) : Int := ((s.x.getD n 0).truncate 16).toInt

/-- The arguments of a BASEMUL whose pairs start at the registers numbered `ra` and `rb`. -/
def State.pairOperands (s : State) (ra rb : Nat) (neg : Bool) (zi : Nat) : BasemulArgs :=
  ⟨s.coeffReg ra, s.coeffReg (ra + 1), s.coeffReg rb, s.coeffReg (rb + 1), basemulTwiddle neg zi⟩

theorem basemulOperands_eq {s : State} {ra rb : Reg} {neg : Bool} {zi : Fin 128} (hra : ra.val ≤ 14)
    (hrb : rb.val ≤ 14) :
    s.basemulOperands ra rb neg zi = s.pairOperands ra.val rb.val neg zi.val := by
  simp only [State.basemulOperands, operand16_eq_getD, pairUpper_val hra, pairUpper_val hrb,
    State.pairOperands, State.coeffReg]

/-- On pairs inside the register file BASEMUL is its precondition and two writes. -/
theorem execBasemul_of_pairs {s : State} {rd ra rb : Reg} {neg : Bool} {zi : Fin 128}
    (h : rd.val ≤ 14 ∧ ra.val ≤ 14 ∧ rb.val ≤ 14) :
    execBasemul rd ra rb neg zi s = requiring (s.pairOperands ra.val rb.val neg zi.val).Legal
      (.next ((s.writeX rd (s.pairOperands ra.val rb.val neg zi.val).product.1).writeX (pairUpper rd)
        (s.pairOperands ra.val rb.val neg zi.val).product.2)) := by
  have ⟨_, hra, hrb⟩ := h
  rw [execBasemul, unlessError_pos _ _ _ h, basemulOperands_eq hra hrb]

/-- Settles O36: the operands are those of the state at issue, and the two writes hit two different
registers. -/
theorem basemulCommand : Obligations.BasemulCommand := by
  intro s rd ra rb neg zi low c
  refine ⟨fun hpair => ?legal, unlessError_neg _ _ _⟩
  have hrd := pairUpper_val hpair.1
  have hexec := execBasemul_of_pairs (neg := neg) (zi := zi) (s := s) hpair
  refine ⟨fun h => ⟨_, hexec.trans (requiring_pos _ h), ?low, ?high, fun n hlow hhigh => ?others, rfl⟩,
    fun h => hexec.trans (requiring_neg _ h)⟩
  case low => rw [getD_writeX, if_neg (by omega), getD_writeX, if_pos rfl]; rfl
  case high => rw [getD_writeX, if_pos hrd.symm]; rfl
  case others => rw [getD_writeX, if_neg (by omega), getD_writeX, if_neg hlow]

/-! ### The polynomial product pair by pair (42_basemul.md R173) -/

/-- The `k`-th base multiplication of `PolyMulNTT(a, b)`. -/
def pairArg (a b : List Int) (k : Nat) : BasemulArgs where
  a0 := a.getD (2 * k) 0
  a1 := a.getD (2 * k + 1) 0
  b0 := b.getD (2 * k) 0
  b1 := b.getD (2 * k + 1) 0
  z := basemulTwiddle (k % 2 == 1) (64 + k / 2)

theorem pairArgs_eq_map (a b : List Int) : pairArgs 128 0 a b = (List.range 128).map (pairArg a b) := by
  apply List.ext_getElem?
  intro k
  rcases lt_or_ge k 128 with hk | hk
  · simp [getElem?_pairArgs 128 0 a b k hk, hk, pairArg]
  · rw [List.getElem?_eq_none (by rwa [length_pairArgs]), List.getElem?_eq_none (by simpa)]

/-- A list laid out in pairs holds pair `k` at 2k and 2k+1. -/
theorem getD_flatMap_pair {α : Type} (f g : α → Int) : ∀ (l : List α) (k : Nat) (hk : k < l.length),
    (l.flatMap fun c => [f c, g c]).getD (2 * k) 0 = f l[k] ∧
      (l.flatMap fun c => [f c, g c]).getD (2 * k + 1) 0 = g l[k]
  | _ :: _, 0, _ => ⟨rfl, rfl⟩
  | _ :: l, k + 1, hk => getD_flatMap_pair f g l k (Nat.lt_of_succ_lt_succ hk)

theorem polyMulNtt_pair (a b : List Int) {k : Nat} (hk : k < 128) :
    ((polyMulNtt a b).getD (2 * k) 0, (polyMulNtt a b).getD (2 * k + 1) 0) = (pairArg a b k).product := by
  obtain ⟨hlow, hhigh⟩ := getD_flatMap_pair (fun c : BasemulArgs => c.product.1) (fun c => c.product.2)
    ((List.range 128).map (pairArg a b)) k (by simpa)
  rw [polyMulNtt, pairArgs_eq_map, hlow, hhigh, List.getElem_map, List.getElem_range]

/-- Settles O37: quadruple `i` is the pairs 2i and 2i+1, of which the second has the negated twiddle. -/
theorem polyMulQuadruples : Obligations.PolyMulQuadruples := by
  intro a b i hi c
  have heven : pairArg a b (2 * i) = c 0 (zeta (64 + i)) := by
    simp [pairArg, basemulTwiddle, c, ← mul_assoc]
  have hodd : pairArg a b (2 * i + 1) = c 2 (-zeta (64 + i)) := by
    simp [pairArg, basemulTwiddle, c, mul_add, ← mul_assoc, Nat.mul_add_div]
  have h0 := polyMulNtt_pair a b (k := 2 * i) (by omega)
  have h1 := polyMulNtt_pair a b (k := 2 * i + 1) (by omega)
  rw [heven, ← mul_assoc] at h0
  rw [hodd, mul_add, ← mul_assoc] at h1
  exact ⟨length_polyMulNtt a b, h0, h1⟩

/-! ### The precondition and the bounds of the product (42_basemul.md R171, R175) -/

theorem near_basemulTwiddle (neg : Bool) (zi : Nat) : Near 3328 (basemulTwiddle neg zi) := by
  have h := zeta_bounds zi
  cases neg
  · exact h
  · rw [basemulTwiddle, if_pos rfl]; omega

theorem polyMulLegal_of_near {a b : List Int} (ha : ∀ c ∈ a, Near 7385 c) (hb : ∀ c ∈ b, Near 7385 c) :
    PolyMulLegal a b := by
  rw [PolyMulLegal, pairArgs_eq_map, List.forall_mem_map]
  intro k _
  have h0 : (0 : Int) ≤ 7385 := by decide
  exact BasemulArgs.legal_of_near (near_basemulTwiddle _ _) (near_getD h0 ha _) (near_getD h0 ha _)
    (near_getD h0 hb _) (near_getD h0 hb _)

theorem near_polyMulNtt {a b : List Int} (h : PolyMulLegal a b) : ∀ c ∈ polyMulNtt a b, Near 3328 c := by
  intro c hc
  obtain ⟨args, hargs, hmem⟩ := List.mem_flatMap.mp hc
  obtain ⟨hlow, hhigh⟩ := (h args hargs).near_product
  simp only [List.mem_cons, List.not_mem_nil, or_false] at hmem
  rcases hmem with rfl | rfl
  · exact hlow
  · exact hhigh

/-! ### PWACC (42_basemul.md R174, R175) -/

/-- Adding products to an accumulator adds their coefficients. -/
theorem getD_foldl_polyMulNtt {i : Nat} (hi : i < 256) :
    ∀ (abs : List (List Int × List Int)) (acc : List Int), acc.length = 256 →
    (abs.foldl (fun acc ab => List.zipWith (fun u v => u + v) acc (polyMulNtt ab.1 ab.2)) acc).getD i 0 =
      acc.getD i 0 + (abs.map fun ab => (polyMulNtt ab.1 ab.2).getD i 0).sum
  | [], acc, _ => (add_zero _).symm
  | ab :: rest, acc, hacc => by
    have hsum : (List.zipWith (fun u v => u + v) acc (polyMulNtt ab.1 ab.2)).getD i 0 =
        acc.getD i 0 + (polyMulNtt ab.1 ab.2).getD i 0 := by
      simp [hacc, hi]
    rw [List.foldl_cons, getD_foldl_polyMulNtt hi rest _ (by simp [hacc]), hsum, List.map_cons,
      List.sum_cons, add_assoc]

theorem getD_pwaccSum (abs : List (List Int × List Int)) {i : Nat} (hi : i < 256) :
    (pwaccSum abs).getD i 0 = (abs.map fun ab => (polyMulNtt ab.1 ab.2).getD i 0).sum := by
  cases abs with
  | nil => rfl
  | cons ab rest => exact getD_foldl_polyMulNtt hi rest _ (length_polyMulNtt ..)

/-- No more than 3328 for each product summed. -/
theorem near_getD_pwaccSum {abs : List (List Int × List Int)} (h : ∀ ab ∈ abs, PolyMulLegal ab.1 ab.2)
    {i : Nat} (hi : i < 256) : Near (abs.length * 3328) ((pwaccSum abs).getD i 0) := by
  have hterms : ∀ c ∈ abs.map fun ab => (polyMulNtt ab.1 ab.2).getD i 0, Near 3328 c := by
    rw [List.forall_mem_map]
    exact fun ab hab => near_getD (by decide) (near_polyMulNtt (h ab hab)) i
  have hsum := near_sum hterms
  rwa [List.length_map, ← getD_pwaccSum abs hi] at hsum

/-- Up to 9 products sum within 16 bits. -/
theorem fits16_pwaccSum {abs : List (List Int × List Int)} (hne : abs ≠ []) (hle : abs.length ≤ 9)
    (h : ∀ ab ∈ abs, PolyMulLegal ab.1 ab.2) : ∀ c ∈ pwaccSum abs, Fits16 c := by
  intro c hc
  obtain ⟨i, hi, rfl⟩ := List.mem_iff_getElem.mp hc
  have hb := near_getD_pwaccSum h (length_pwaccSum hne ▸ hi)
  rw [List.getD_eq_getElem _ 0 hi] at hb
  omega

/-- The pairs of polynomials of two vectors. -/
def vectorPairs (as bs : Nat → List Int) (K : Nat) : List (List Int × List Int) :=
  (List.range K).map fun k => (as k, bs k)

theorem forall_mem_vectorPairs {as bs : Nat → List Int} {K : Nat} :
    (∀ ab ∈ vectorPairs as bs K, PolyMulLegal ab.1 ab.2) ↔ ∀ k < K, PolyMulLegal (as k) (bs k) := by
  simp only [vectorPairs, List.forall_mem_map, List.mem_range]

theorem readVector_eq_some {s : State} {r : Slot} {K : Nat} {ps : Nat → List Int}
    (h : ∀ k < K, s.readSlot (r.val + k) = some (ps k)) : s.readVector r K = some ((List.range K).map ps) :=
  mapM_eq_some_map fun k hk => h k (List.mem_range.mp hk)

/-- On readable vectors PWACC is its precondition and one write. -/
theorem execPwacc_of_readSlot {s : State} {rd ra rb : Slot} {K : Fin 8} {as bs : Nat → List Int}
    (hlegal : 1 ≤ K.val ∧ K.val ≤ 4 ∧ ra.val + K.val ≤ 16 ∧ rb.val + K.val ≤ 16)
    (ha : ∀ k < K.val, s.readSlot (ra.val + k) = some (as k))
    (hb : ∀ k < K.val, s.readSlot (rb.val + k) = some (bs k)) :
    execPwacc rd ra rb K s = requiring (∀ ab ∈ vectorPairs as bs K.val, PolyMulLegal ab.1 ab.2)
      (.next (s.writeSlot rd.val (pwaccSum (vectorPairs as bs K.val)))) := by
  rw [execPwacc, unlessError_pos _ _ _ hlegal, readVector_eq_some ha, readVector_eq_some hb, written_some,
    written_some, List.zip_map', vectorPairs]

/-- Settles O38: both vectors are read before the one write, which stores the sum of the K products. -/
theorem pwaccCommand : Obligations.PwaccCommand := by
  intro s rd ra rb K
  refine ⟨fun as bs hpos hle hra hrb hread => ?readable, unlessError_neg _ _ _⟩
  have hexec := execPwacc_of_readSlot (rd := rd) ⟨hpos, hle, hra, hrb⟩ (fun k hk => (hread k hk).1)
    (fun k hk => (hread k hk).2)
  have hlen : (vectorPairs as bs K.val).length = K.val := by simp [vectorPairs]
  have hne : vectorPairs as bs K.val ≠ [] := List.ne_nil_of_length_pos (by omega)
  refine ⟨fun h => ?runs, fun h => ?refused, fun h k hk => polyMulLegal_of_near (h k hk).1 (h k hk).2⟩
  case runs =>
    have h' := forall_mem_vectorPairs.mpr h
    obtain ⟨t, ht, hframe, hslot⟩ := next_writeSlot (hexec.trans (requiring_pos _ h')) (length_pwaccSum hne)
      (fits16_pwaccSum hne (by omega) h')
    refine ⟨t, _, ht, hframe, hslot, fun i hi => ⟨?sum, ?bounds⟩⟩
    case sum => rw [getD_pwaccSum _ hi, vectorPairs, List.map_map]; rfl
    case bounds =>
      have hb := near_getD_pwaccSum h' hi
      rwa [hlen] at hb
  case refused => exact hexec.trans (requiring_neg _ (mt forall_mem_vectorPairs.mp h))

end Sys2Proof.Machine


/-! # 43_sampler.md: the samplers' bits and candidates, GENA's session, and what each sampler leaves -/

namespace Sys2Proof.Machine

/-! ### Streams of bits, LSB first (00_scope.md R13) -/

theorem getElem?_chunks {α : Type} (w : Nat) : ∀ (n : Nat) (l : List α) (i : Nat), i < n →
    (chunks w n l)[i]? = some ((l.drop (w * i)).take w)
  | n + 1, l, 0, _ => rfl
  | n + 1, l, i + 1, h => by
    rw [chunks, List.getElem?_cons_succ, getElem?_chunks w n _ i (by omega), List.drop_drop, Nat.mul_succ,
      Nat.add_comm]

theorem length_le_of_mem_chunks {α : Type} {w : Nat} {c : List α} :
    ∀ {n : Nat} {l : List α}, c ∈ chunks w n l → c.length ≤ w
  | n + 1, l, h => by
    rcases List.mem_cons.mp h with rfl | h
    · exact List.length_take_le w l
    · exact length_le_of_mem_chunks h

theorem bitLSB_cons_of_lt {b : Byte} {bs : List Byte} {k : Nat} (h : k < 8) :
    bitLSB (b :: bs) k = b.getLsbD k := by
  rw [bitLSB, Nat.div_eq_of_lt h, Nat.mod_eq_of_lt h, List.getD_cons_zero]

theorem bitLSB_cons_add (b : Byte) (bs : List Byte) (k : Nat) : bitLSB (b :: bs) (8 + k) = bitLSB bs k := by
  rw [bitLSB, Nat.add_div_left k (by decide), Nat.add_mod_left, List.getD_cons_succ, bitLSB]

/-- The bit stream of a byte string is its bits in order. -/
theorem bitStream_eq_map : ∀ bytes : List Byte,
    bitStream bytes = (List.range (8 * bytes.length)).map (bitLSB bytes)
  | [] => rfl
  | b :: bs => by
    have hcons : bitStream (b :: bs) = bitsOfNat 8 b.toNat ++ bitStream bs := rfl
    rw [hcons, bitStream_eq_map bs, List.length_cons, Nat.mul_succ, Nat.add_comm, List.range_add,
      List.map_append, List.map_map]
    exact congrArg₂ (· ++ ·)
      (List.map_congr_left fun k hk => (bitLSB_cons_of_lt (List.mem_range.mp hk)).symm)
      (List.map_congr_left fun k _ => (bitLSB_cons_add b bs k).symm)

theorem take_drop_bitStream {bytes : List Byte} {p n : Nat} (h : p + n ≤ 8 * bytes.length) :
    ((bitStream bytes).drop p).take n = (List.range n).map fun j => bitLSB bytes (p + j) := by
  obtain ⟨m, hm⟩ := Nat.exists_eq_add_of_le h
  rw [bitStream_eq_map, hm, Nat.add_assoc, List.range_add, List.map_append, List.drop_left' (by simp),
    List.range_add, List.map_append, List.map_append, List.take_left' (by simp), List.map_map]
  rfl

/-! ### Centered binomial sampling (43_sampler.md R191, R194) -/

theorem popcount_nonneg (bits : List Bool) : 0 ≤ popcount bits := Int.natCast_nonneg _

theorem popcount_le_length (bits : List Bool) : popcount bits ≤ bits.length :=
  Int.ofNat_le.mpr List.count_le_length

theorem popcount_eq_sum : ∀ bits : List Bool, popcount bits = (bits.map fun b => (b.toNat : Int)).sum
  | [] => rfl
  | b :: bits => by
    rw [List.map_cons, List.sum_cons, ← popcount_eq_sum bits]
    cases b <;> simp [popcount, Int.add_comm]

theorem popcount_map_bitLSB (bytes : List Byte) (p n : Nat) :
    popcount ((List.range n).map fun j => bitLSB bytes (p + j)) = onesAt bytes p n := by
  rw [popcount_eq_sum, List.map_map]; rfl

theorem near_cbdCoeff {eta : Nat} {bits : List Bool} (h : bits.length ≤ 2 * eta) :
    Near eta (cbdCoeff eta bits) := by
  have htake := popcount_le_length (bits.take eta)
  have hdrop := popcount_le_length (bits.drop eta)
  have := popcount_nonneg (bits.take eta)
  have := popcount_nonneg (bits.drop eta)
  rw [List.length_take] at htake
  rw [List.length_drop] at hdrop
  unfold Near cbdCoeff
  omega

/-- Every coefficient of cbd lies in -eta..eta (43_sampler.md R191). -/
theorem near_cbd (eta : Nat) (buf : List Byte) : ∀ c ∈ cbd eta buf, Near eta c := by
  rw [cbd, List.forall_mem_map]
  exact fun bits h => near_cbdCoeff (length_le_of_mem_chunks h)

/-- The coefficient of some bits is the ones among the first eta less the ones among the next eta. -/
theorem cbdCoeff_map_bitLSB (eta : Nat) (bytes : List Byte) (p : Nat) :
    cbdCoeff eta ((List.range (2 * eta)).map fun j => bitLSB bytes (p + j)) =
      onesAt bytes p eta - onesAt bytes (p + eta) eta := by
  rw [cbdCoeff, two_mul, List.range_add, List.map_append, List.take_left' (by simp),
    List.drop_left' (by simp), List.map_map, popcount_map_bitLSB, ← popcount_map_bitLSB bytes (p + eta)]
  simp only [Function.comp_def, Nat.add_assoc]

/-- Coefficient `i` is a function of its own `2 * eta` bits of the stream. -/
theorem getD_cbd {eta : Nat} {buf : List Byte} (hbuf : buf.length = 64 * eta) {i : Nat} (hi : i < 256) :
    (cbd eta buf).getD i 0 =
      cbdCoeff eta ((List.range (2 * eta)).map fun j => bitLSB buf (2 * eta * i + j)) := by
  have hend : 2 * eta * i + 2 * eta ≤ 8 * buf.length := by
    have hle : 2 * eta * (i + 1) ≤ 2 * eta * 256 := Nat.mul_le_mul_left _ hi
    rw [Nat.mul_succ] at hle
    omega
  rw [← take_drop_bitStream hend, cbd, List.getD_eq_getElem?_getD, List.getElem?_map,
    getElem?_chunks _ _ _ _ hi]
  rfl

theorem length_bitPatterns : ∀ n : Nat, (bitPatterns n).length = 2 ^ n
  | 0 => rfl
  | n + 1 => by simp [bitPatterns, length_bitPatterns n, pow_succ]

/-- Each pattern of one more bit comes from the one pattern of its later bits. -/
theorem count_cons_patterns (b : Bool) (bits : List Bool) : ∀ l : List (List Bool),
    (l.flatMap fun p => [false :: p, true :: p]).count (b :: bits) = l.count bits
  | [] => rfl
  | p :: l => by
    rw [List.flatMap_cons, List.count_append, count_cons_patterns b bits l]
    cases b <;> simp [List.count_cons, Nat.add_comm]

/-- Each pattern of `n` bits is listed once. -/
theorem count_bitPatterns : ∀ bits : List Bool, (bitPatterns bits.length).count bits = 1
  | [] => rfl
  | b :: bits => by
    rw [List.length_cons, bitPatterns, count_cons_patterns, count_bitPatterns bits]

theorem cbdWeights_two : [-2, -1, 0, 1, 2].map (cbdWeight 2) = [1, 4, 6, 4, 1] := by decide

theorem cbdWeights_three : [-3, -2, -1, 0, 1, 2, 3].map (cbdWeight 3) = [1, 6, 15, 20, 15, 6, 1] := by
  decide +kernel

/-- Settles O39: a coefficient is computed from its own slice of the stream, and the weights are counted over
the list of all patterns. -/
theorem cbdCoefficients : Obligations.CbdCoefficients := by
  intro eta heta
  refine ⟨fun buf hbuf i hi => ⟨?ones, getD_cbd hbuf hi, ?bounds⟩, fun bits hbits => ?once, ?all, ?weights,
    cbdWeights_two, cbdWeights_three⟩
  case ones => rw [getD_cbd hbuf hi, cbdCoeff_map_bitLSB]
  case bounds =>
    rw [getD_cbd hbuf hi]
    exact near_cbdCoeff (by simp)
  case once => rw [← hbits, count_bitPatterns]
  case all => exact (length_bitPatterns _).trans (pow_mul 2 2 eta)
  case weights =>
    intro v hlo hhi
    rcases heta with rfl | rfl <;> interval_cases v <;> decide +kernel

/-! ### CBD and GETNOISE (43_sampler.md R192, R200) -/

theorem fits16_cbd {eta : Nat} (heta : eta ≤ 3) (buf : List Byte) : ∀ c ∈ cbd eta buf, Fits16 c := by
  intro c hc
  obtain ⟨hlo, hhi⟩ := near_cbd eta buf c hc
  omega

theorem execCbd_of_readBuf {eta : Nat} (heta : eta ≤ 3) {rd : Slot} {bs : BufSel} {blk : Blk} {s : State}
    {buf : List Byte} (hin : RecordInside (64 * eta) blk)
    (hread : s.readBuf bs (blk.val * (64 * eta)) (64 * eta) = some buf) :
    ∃ t, execCbd eta rd bs blk s = .next t ∧ t = { s with mem := t.mem } ∧
      t.readSlot rd.val = some (cbd eta buf) ∧
      t.readBuf bs (blk.val * (64 * eta)) (64 * eta) = some buf :=
  ⟨_, execCbd_next.mpr (.inl ⟨hin, buf, hread, rfl⟩), rfl,
    readSlot_writeSlot_self _ _ _ (length_cbd ..) (fits16_cbd heta buf),
    (readBuf_writeSlot _ _ _ _ _ _ (record_inside hin)).trans hread⟩

/-- Settles O40: the record is read, and the slot written is apart from it. -/
theorem cbdCommand : Obligations.CbdCommand := by
  intro s rd bs blk c hc
  simp only [List.mem_cons, List.not_mem_nil, or_false] at hc
  rcases hc with rfl | rfl
  · exact ⟨fun _ => execCbd_of_readBuf (eta := 2) (by decide), unlessError_neg _ _ _⟩
  · exact ⟨fun _ => execCbd_of_readBuf (eta := 3) (by decide), unlessError_neg _ _ _⟩

/-- A request uses up one answer (43_sampler.md R199). -/
theorem nextAnswer_snd (answers : List SourceAnswer) : (nextAnswer answers).2 = answers.drop 1 := by
  cases answers <;> rfl

theorem prfBytes_listed {src : ByteSource} {in33 out : List Byte}
    (h : src.prf.lookup (in33, out.length) = some out) : src.prfBytes in33 out.length = out := by
  rw [ByteSource.prfBytes, h, Option.getD_some, listedThenFree_listed _ _ _ _ (le_refl _), List.take_length]

section Getnoise

variable {eta : Nat} {rd : Slot} {nonce : Byte} {s : State}

theorem execGetnoise_ok (heta : eta ≤ 3) (h : (nextAnswer s.source.answers).1 = .ok) :
    ∃ t, execGetnoise eta rd nonce s = .next t ∧
      t = { s with mem := t.mem, source := { s.source with answers := s.source.answers.drop 1 } } ∧
      SameMemoryBut (slotBase rd.val) 512 s t ∧ t.readSlot rd.val = some (s.noise eta nonce) := by
  rw [execGetnoise_eq, h, nextAnswer_snd]
  have hlen : (s.noise eta nonce).length = 256 := length_cbd ..
  exact ⟨_, rfl, rfl, read_writeSlot_outside (s.setAnswers _) _ _ hlen,
    readSlot_writeSlot_self _ _ _ hlen (fits16_cbd heta _)⟩

theorem execGetnoise_fail {code : Word} (h : (nextAnswer s.source.answers).1 = .fail code) :
    ∃ t, execGetnoise eta rd nonce s = .next t ∧
      t = { s with mem := t.mem, source := { s.source with answers := s.source.answers.drop 1 },
                   err := .xofFail, errInfo := code, busy := false } ∧
      SameMemoryBut (slotBase rd.val) 512 s t ∧ t.err.code = 4 ∧ t.readSlot rd.val = none := by
  rw [execGetnoise_eq, h, nextAnswer_snd]
  exact ⟨_, rfl, rfl, read_eraseSlot_outside (s.setAnswers _) _, rfl, readSlot_eraseSlot_self _ _⟩

theorem execGetnoise_silent (h : (nextAnswer s.source.answers).1 = .silent) :
    ∃ t, execGetnoise eta rd nonce s = .next t ∧ t.busy = true := by
  rw [execGetnoise_eq, h]
  exact ⟨_, rfl, rfl⟩

/-- Whatever the answer, a GETNOISE changes the byte source by its one request only. -/
theorem source_of_execGetnoise {t : State} (h : execGetnoise eta rd nonce s = .next t) :
    t.source = { s.source with answers := s.source.answers.drop 1 } := by
  rw [execGetnoise_eq, nextAnswer_snd] at h
  cases ha : (nextAnswer s.source.answers).1 <;> rw [ha] at h <;> cases h <;> rfl

end Getnoise

/-- Settles O41: the three answers of the PRF service, each with what it leaves. -/
theorem getnoiseCommand : Obligations.GetnoiseCommand := by
  refine ⟨fun src in33 out => prfBytes_listed, fun s rd nonce => ?_⟩
  intro source c hc
  simp only [List.mem_cons, List.not_mem_nil, or_false] at hc
  rcases hc with rfl | rfl
  · exact ⟨execGetnoise_ok (eta := 2) (by decide), fun _ => execGetnoise_fail, execGetnoise_silent⟩
  · exact ⟨execGetnoise_ok (eta := 3) (by decide), fun _ => execGetnoise_fail, execGetnoise_silent⟩

/-! ### The candidates of a block (43_sampler.md R203) -/

/-- The 12-bit field number `i` of the LSB-first stream of a block. -/
def candidateField (block : List Byte) (i : Nat) : Nat :=
  ((List.range 12).map fun j => (bitLSB block (12 * i + j)).toNat * 2 ^ j).sum

/-- A number's low bits spell it modulo a power of two. -/
theorem sum_testBit (x : Nat) : ∀ n : Nat,
    ((List.range n).map fun j => (x.testBit j).toNat * 2 ^ j).sum = x % 2 ^ n
  | 0 => (Nat.mod_one x).symm
  | n + 1 => by
    rw [List.range_succ, List.map_append, List.sum_append, sum_testBit x n, Nat.mod_pow_succ,
      List.map_singleton, List.sum_singleton, Nat.toNat_testBit, Nat.mul_comm]

/-- The bits of a 3-byte group are those of the number the bytes spell, low byte first. -/
theorem bitLSB_group (b0 b1 b2 : Byte) (rest : List Byte) {k : Nat} (hk : k < 24) :
    bitLSB (b0 :: b1 :: b2 :: rest) k = (256 * (256 * b2.toNat + b1.toNat) + b0.toNat).testBit k := by
  have hlow : ∀ (b : Byte) (x i : Nat), (256 * x + b.toNat).testBit i =
      if i < 8 then b.getLsbD i else x.testBit (i - 8) :=
    fun b x => Nat.testBit_two_pow_mul_add x b.isLt
  rcases lt_or_ge k 8 with h | h
  · rw [hlow, if_pos h, bitLSB_cons_of_lt h]
  obtain ⟨k, rfl⟩ := Nat.exists_eq_add_of_le h
  rw [hlow, if_neg (by omega), Nat.add_sub_cancel_left, bitLSB_cons_add]
  rcases lt_or_ge k 8 with h | h
  · rw [hlow, if_pos h, bitLSB_cons_of_lt h]
  obtain ⟨k, rfl⟩ := Nat.exists_eq_add_of_le h
  rw [hlow, if_neg (by omega), Nat.add_sub_cancel_left, bitLSB_cons_add, bitLSB_cons_of_lt (by omega)]
  rfl

/-- A field inside a 3-byte group is 12 bits of the number the bytes spell. -/
theorem candidateField_group (b0 b1 b2 : Byte) (rest : List Byte) {i : Nat} (hi : i < 2) :
    candidateField (b0 :: b1 :: b2 :: rest) i =
      (256 * (256 * b2.toNat + b1.toNat) + b0.toNat) / 2 ^ (12 * i) % 2 ^ 12 := by
  rw [candidateField, ← sum_testBit]
  refine congrArg List.sum (List.map_congr_left fun j hj => ?_)
  have := List.mem_range.mp hj
  rw [bitLSB_group _ _ _ _ (by omega), Nat.testBit_div_two_pow, Nat.add_comm j]

theorem candidateField_later (b0 b1 b2 : Byte) (rest : List Byte) (i : Nat) :
    candidateField (b0 :: b1 :: b2 :: rest) (2 + i) = candidateField rest i := by
  refine congrArg List.sum (List.map_congr_left fun j _ => ?_)
  have hbit : 12 * (2 + i) + j = 8 + (8 + (8 + (12 * i + j))) := by omega
  rw [hbit, bitLSB_cons_add, bitLSB_cons_add, bitLSB_cons_add]

/-- The candidates of a string of 3-byte groups are its fields of 12 bits, in order. -/
theorem candidates_eq_map : ∀ (n : Nat) {block : List Byte}, block.length = 3 * n →
    candidates block = (List.range (2 * n)).map (candidateField block)
  | 0, [], _ => rfl
  | n + 1, b0 :: b1 :: b2 :: rest, h => by
    have hgroup : groupCandidates b0 b1 b2 = (List.range 2).map (candidateField (b0 :: b1 :: b2 :: rest)) := by
      have h0 := candidateField_group b0 b1 b2 rest (i := 0) (by decide)
      have h1 := candidateField_group b0 b1 b2 rest (i := 1) (by decide)
      have hr : List.range 2 = [0, 1] := rfl
      rw [hr, List.map_cons, List.map_singleton, h0, h1]
      refine List.cons_eq_cons.mpr ⟨?_, List.cons_eq_cons.mpr ⟨?_, rfl⟩⟩ <;> omega
    have hlen : rest.length = 3 * n := by simp only [List.length_cons] at h; omega
    rw [candidates, hgroup, candidates_eq_map n hlen, Nat.mul_succ, Nat.add_comm, List.range_add,
      List.map_append, List.map_map]
    exact congrArg _ (List.map_congr_left fun i _ => (candidateField_later b0 b1 b2 rest i).symm)

theorem xofBlock_listed {src : ByteSource} {in34 stream : List Byte} {k : Nat}
    (h : src.xof.lookup in34 = some stream) (hlen : 168 * (k + 1) ≤ stream.length) :
    src.xofBlock in34 k = (stream.drop (168 * k)).take 168 := by
  rw [ByteSource.xofBlock, h, Option.getD_some]
  refine listedThenFree_listed _ _ _ _ ?_
  rw [List.length_drop]
  change 168 ≤ stream.length - 168 * k
  omega

/-! ### The accepted candidates of the stream (43_sampler.md R203) -/

theorem canonical_of_mem_acceptedIn {block : Nat → List Byte} {n : Nat} {c : Int}
    (h : c ∈ acceptedIn block n) : 0 ≤ c ∧ c ≤ 3328 := by
  obtain ⟨d, -, hd⟩ := List.mem_filterMap.mp h
  split_ifs at hd with hlt
  obtain rfl := Option.some.inj hd
  exact ⟨Int.natCast_nonneg d, Int.ofNat_le.mpr (Nat.le_of_lt_succ hlt)⟩

/-- A block of 168 bytes adds at most its 112 candidates. -/
theorem length_acceptedIn_le {block : Nat → List Byte} (hblock : ∀ k, (block k).length = 168) :
    ∀ n : Nat, (acceptedIn block n).length ≤ 112 * n
  | 0 => Nat.le_refl 0
  | n + 1 => by
    have hnew : (acceptedOf (candidates (block n))).length ≤ 112 := by
      refine (List.length_filterMap_le _ _).trans_eq ?_
      rw [candidates_eq_map 56 (hblock n), List.length_map, List.length_range]
    have := length_acceptedIn_le hblock n
    rw [acceptedIn_succ, List.length_append]
    omega

/-- What GENA holds after `n` blocks: the first 256 accepted candidates of the stream so far. -/
abbrev heldAfter (block : Nat → List Byte) (n : Nat) : List Int := (acceptedIn block n).take 256

theorem acceptedIn_of_le (block : Nat → List Byte) {m n : Nat} (h : m ≤ n) :
    ∃ later, acceptedIn block n = acceptedIn block m ++ later := by
  induction h with
  | refl => exact ⟨[], (List.append_nil _).symm⟩
  | step _ ih =>
    obtain ⟨later, hlater⟩ := ih
    exact ⟨_, by rw [acceptedIn_succ, hlater, List.append_assoc]⟩

/-- Once 256 are held, later blocks change nothing. -/
theorem heldAfter_of_le {block : Nat → List Byte} {m n : Nat} (hmn : m ≤ n)
    (h : 256 ≤ (acceptedIn block m).length) : heldAfter block n = heldAfter block m := by
  obtain ⟨later, hlater⟩ := acceptedIn_of_le block hmn
  rw [heldAfter, hlater, List.take_append_of_le_length h]

theorem length_heldAfter {block : Nat → List Byte} {n : Nat} (h : 256 ≤ (acceptedIn block n).length) :
    (heldAfter block n).length = 256 := by
  rw [List.length_take, Nat.min_eq_left h]

/-! ### A session of GENA with the XOF service (43_sampler.md R199, R205) -/

/-- One request: answered ok the session goes on with the answers that remain, else it ends. -/
def request (answers : List SourceAnswer) (goOn : List SourceAnswer → RejEnd × List SourceAnswer) :
    RejEnd × List SourceAnswer :=
  match (nextAnswer answers).1 with
  | .ok => goOn (nextAnswer answers).2
  | .fail code => (.fail code, (nextAnswer answers).2)
  | .silent => (.silent, (nextAnswer answers).2)

theorem rejSession_eq_request (block : Nat → List Byte) (cap : Nat) (answers : List SourceAnswer) :
    rejSession block cap answers =
      request (answers.drop 0) fun rest => rejLoop block cap 0 rest (heldAfter block 0) := rfl

/-- While too few candidates are held and the cap is not reached, the loop requests the next block. -/
theorem rejLoop_eq_request (block : Nat → List Byte) (left nblk : Nat) (answers : List SourceAnswer)
    (h : (acceptedIn block nblk).length < 256) :
    rejLoop block (left + 1) nblk answers (heldAfter block nblk) =
      request answers fun rest => rejLoop block left (nblk + 1) rest (heldAfter block (nblk + 1)) := by
  rw [rejLoop, if_pos (by rw [List.length_take]; omega), rejParse_acceptedIn]
  rfl

theorem rejLoop_cap (block : Nat → List Byte) (nblk : Nat) (answers : List SourceAnswer)
    (h : (acceptedIn block nblk).length < 256) :
    rejLoop block 0 nblk answers (heldAfter block nblk) = (.cap, answers) := by
  rw [rejLoop, if_pos (by rw [List.length_take]; omega)]

theorem rejLoop_done (block : Nat → List Byte) (left nblk : Nat) (answers : List SourceAnswer)
    (h : 256 ≤ (acceptedIn block nblk).length) :
    rejLoop block left nblk answers (heldAfter block nblk) = (.done (heldAfter block nblk), answers) :=
  rejLoop_full block left nblk answers (length_heldAfter h).ge

section Request

variable {answers : List SourceAnswer} {k : Nat} {goOn : List SourceAnswer → RejEnd × List SourceAnswer}

theorem nextAnswer_drop {a : SourceAnswer} (h : answers[k]? = some a) :
    nextAnswer (answers.drop k) = (a, answers.drop (k + 1)) := by
  rw [List.drop_eq_getElem?_toList_append, h]; rfl

theorem nextAnswer_drop_none (h : answers[k]? = none) :
    nextAnswer (answers.drop k) = (.ok, answers.drop (k + 1)) := by
  have hlen := List.getElem?_eq_none_iff.mp h
  rw [List.drop_of_length_le hlen, List.drop_of_length_le (by omega)]; rfl

theorem request_ok (h : ∀ a, answers[k]? = some a → a = .ok) :
    request (answers.drop k) goOn = goOn (answers.drop (k + 1)) := by
  cases hk : answers[k]? with
  | none => rw [request, nextAnswer_drop_none hk]
  | some a =>
    obtain rfl := h a hk
    rw [request, nextAnswer_drop hk]

theorem request_fail {code : Word} (h : answers[k]? = some (.fail code)) :
    request (answers.drop k) goOn = (.fail code, answers.drop (k + 1)) := by
  rw [request, nextAnswer_drop h]

theorem request_silent (h : answers[k]? = some .silent) :
    request (answers.drop k) goOn = (.silent, answers.drop (k + 1)) := by
  rw [request, nextAnswer_drop h]

end Request

/-- The first `k` answers are ok; a list at its end answers ok (log 4). -/
abbrev AnswersOk (k : Nat) (answers : List SourceAnswer) : Prop := ∀ a ∈ answers.take k, a = .ok

theorem AnswersOk.mono {k j : Nat} {answers : List SourceAnswer} (h : AnswersOk k answers) (hj : j ≤ k) :
    AnswersOk j answers :=
  fun a ha => h a (List.take_subset_take_left _ hj ha)

theorem AnswersOk.getElem? {k j : Nat} {answers : List SourceAnswer} (h : AnswersOk k answers) (hj : j < k)
    (a : SourceAnswer) (ha : answers[j]? = some a) : a = .ok := by
  refine h a (List.mem_of_getElem? (i := j) ?_)
  rw [List.getElem?_take_of_lt hj, ha]

section Session

variable {block : Nat → List Byte} {cap : Nat} {answers : List SourceAnswer}

/-- The state of the session after `k` blocks, where it gets so far: the start and `k` blocks are answered ok,
and before each of them too few candidates are accepted. -/
theorem rejSession_afterBlocks : ∀ {k : Nat}, k ≤ cap → AnswersOk (k + 1) answers →
    (∀ j < k, (acceptedIn block j).length < 256) →
    rejSession block cap answers = rejLoop block (cap - k) k (answers.drop (k + 1)) (heldAfter block k)
  | 0, _, hok, _ => by
    rw [rejSession_eq_request, request_ok (hok.getElem? Nat.zero_lt_one), Nat.sub_zero]
  | k + 1, hcap, hok, hfew => by
    obtain ⟨left, hleft⟩ : ∃ left, cap - k = left + 1 := ⟨cap - (k + 1), by omega⟩
    rw [rejSession_afterBlocks (Nat.le_of_succ_le hcap) (hok.mono (by omega)) fun j hj => hfew j (by omega),
      hleft, rejLoop_eq_request _ _ _ _ (hfew k (by omega)), request_ok (hok.getElem? (by omega)),
      show cap - (k + 1) = left by omega]

/-- Request `k` is made, if the answers before it are ok and too few candidates are accepted before it. -/
theorem rejSession_makesRequest {k : Nat} (hcap : k ≤ cap) (hok : AnswersOk k answers)
    (hfew : (acceptedIn block (k - 1)).length < 256) :
    ∃ goOn, rejSession block cap answers = request (answers.drop k) goOn := by
  cases k with
  | zero => exact ⟨_, rejSession_eq_request block cap answers⟩
  | succ k =>
    rw [Nat.add_sub_cancel] at hfew
    obtain ⟨left, hleft⟩ : ∃ left, cap - k = left + 1 := ⟨cap - k - 1, by omega⟩
    rw [rejSession_afterBlocks (by omega) hok fun j hj =>
      (length_acceptedIn_mono block hj.le).trans_lt hfew, hleft, rejLoop_eq_request _ _ _ _ hfew]
    exact ⟨_, rfl⟩

theorem rejSession_cap (hok : AnswersOk (1 + cap) answers) (hfew : (acceptedIn block cap).length < 256) :
    (rejSession block cap answers).1 = .cap := by
  rw [rejSession_afterBlocks (le_refl cap) (Nat.add_comm 1 cap ▸ hok) fun j hj =>
    (length_acceptedIn_mono block hj.le).trans_lt hfew, Nat.sub_self, rejLoop_cap _ _ _ hfew]

theorem rejSession_done {n : Nat} (hcap : n ≤ cap) (hok : AnswersOk (n + 1) answers)
    (hfull : 256 ≤ (acceptedIn block n).length) :
    (rejSession block cap answers).1 = .done (heldAfter block n) := by
  have hex : ∃ n, 256 ≤ (acceptedIn block n).length := ⟨n, hfull⟩
  have hle : Nat.find hex ≤ n := Nat.find_min' hex hfull
  have hfind := Nat.find_spec hex
  rw [rejSession_afterBlocks (hle.trans hcap) (hok.mono (Nat.succ_le_succ hle)) fun j hj =>
       Nat.lt_of_not_le (Nat.find_min hex hj), rejLoop_done _ _ _ _ hfind,
    heldAfter_of_le hle hfind]

end Session

/-- Every way a session of at most `cap` block requests can end, with the answers it leaves: answer 0 is that
of the start request, answer k that of the k-th block request. -/
inductive SessionEnd (block : Nat → List Byte) (cap : Nat) (answers : List SourceAnswer) :
    RejEnd × List SourceAnswer → Prop
  | done (n : Nat) (le_cap : n ≤ cap) (full : 256 ≤ (acceptedIn block n).length) :
      SessionEnd block cap answers (.done (heldAfter block n), answers.drop (n + 1))
  | fail (k : Nat) (le_cap : k ≤ cap) (code : Word) (answer : answers[k]? = some (.fail code)) :
      SessionEnd block cap answers (.fail code, answers.drop (k + 1))
  | silent (k : Nat) (le_cap : k ≤ cap) (answer : answers[k]? = some .silent) :
      SessionEnd block cap answers (.silent, answers.drop (k + 1))
  | cap : SessionEnd block cap answers (.cap, answers.drop (cap + 1))

namespace SessionEnd

variable {block : Nat → List Byte} {cap : Nat} {answers : List SourceAnswer}

theorem of_request {k : Nat} (hk : k ≤ cap) {goOn : List SourceAnswer → RejEnd × List SourceAnswer}
    (h : SessionEnd block cap answers (goOn (answers.drop (k + 1)))) :
    SessionEnd block cap answers (request (answers.drop k) goOn) := by
  match ha : answers[k]? with
  | some (.fail code) => rw [request_fail ha]; exact fail k hk code ha
  | some .silent => rw [request_silent ha]; exact silent k hk ha
  | some .ok | none => rw [request_ok (by simp [ha])]; exact h

theorem of_rejLoop : ∀ {left nblk : Nat}, nblk + left = cap →
    SessionEnd block cap answers (rejLoop block left nblk (answers.drop (nblk + 1)) (heldAfter block nblk))
  | left, nblk, hsum => by
    rcases le_or_gt 256 (acceptedIn block nblk).length with hfull | hfew
    · rw [rejLoop_done _ _ _ _ hfull]
      exact done nblk (by omega) hfull
    match left with
    | 0 =>
      obtain rfl : nblk = cap := hsum
      rw [rejLoop_cap _ _ _ hfew]
      exact .cap
    | left + 1 =>
      rw [rejLoop_eq_request _ _ _ _ hfew]
      exact of_request (by omega) (of_rejLoop (by omega))

end SessionEnd

theorem rejSession_sessionEnd (block : Nat → List Byte) (cap : Nat) (answers : List SourceAnswer) :
    SessionEnd block cap answers (rejSession block cap answers) := by
  rw [rejSession_eq_request]
  exact .of_request (Nat.zero_le cap) (.of_rejLoop (Nat.zero_add cap))

/-! ### GENA (43_sampler.md R205 to R208) -/

theorem afterSession_source (s : State) (rd : Slot) (e : RejEnd) : (s.afterSession rd e).source = s.source := by
  cases e <;> rfl

/-- A session that completes writes the slot, and STATUS and ERRINFO stay. -/
theorem afterSession_done (s : State) (rd : Slot) {p : List Int} (hlen : p.length = 256)
    (hcanon : ∀ c ∈ p, 0 ≤ c ∧ c ≤ 3328) :
    SameStatus s (s.afterSession rd (.done p)) ∧ (s.afterSession rd (.done p)).readSlot rd.val = some p := by
  refine ⟨⟨rfl, rfl, rfl, rfl⟩, readSlot_writeSlot_self s rd.val p hlen fun c hc => ?_⟩
  have := hcanon c hc
  omega

/-- A session that fails or reaches the cap raises its error, and the slot is lost (60_exceptions.md R285). -/
theorem readSlot_raiseLosing (s : State) (rd : Slot) (e : ErrCode) (info : Word) :
    (s.raiseLosing rd e info).readSlot rd.val = none :=
  readSlot_eraseSlot_self s rd.val

theorem canonical_of_mem_heldAfter {block : Nat → List Byte} {n : Nat} {c : Int} (h : c ∈ heldAfter block n) :
    0 ≤ c ∧ c ≤ 3328 :=
  canonical_of_mem_acceptedIn (List.mem_of_mem_take h)

/-- The session that a GENA holds with the XOF service (43_sampler.md R205). -/
def State.genaSession (s : State) (row col : Fin 16) (t : Bool) : RejEnd × List SourceAnswer :=
  rejSession (s.source.xofBlock (s.matrixInput row col t)) Config.rejMaxBlocks s.source.answers

theorem exec_gena (s : State) (rd : Slot) (row col : Fin 16) (t : Bool) :
    exec (.gena rd row col t) s =
      .next ((s.setAnswers (s.genaSession row col t).2).afterSession rd (s.genaSession row col t).1) := rfl

/-- Settles O42: blocks and candidates are read off the stream, and a session with ok answers holds the first
256 accepted candidates. -/
theorem genaTakesFirstAccepted : Obligations.GenaTakesFirstAccepted := by
  refine ⟨fun src in34 stream k => xofBlock_listed, fun block => candidates_eq_map 56, ?_⟩
  intro s rd row col t n block hn hok hfull
  have hcanon : ∀ c ∈ heldAfter block n, 0 ≤ c ∧ c ≤ 3328 := fun c => canonical_of_mem_heldAfter
  have hdone : (s.genaSession row col t).1 = .done (heldAfter block n) := rejSession_done hn hok hfull
  obtain ⟨hstatus, hread⟩ := afterSession_done (s.setAnswers (s.genaSession row col t).2) rd
    (length_heldAfter hfull) hcanon
  rw [exec_gena, hdone]
  exact ⟨_, rfl, hstatus, hread, hcanon⟩

/-- The ways a GENA can end, from the ways its session can (43_sampler.md R205, 60_exceptions.md R283). -/
theorem afterSession_outcomes {s : State} {rd : Slot} {block : Nat → List Byte} {cap : Nat}
    {answers : List SourceAnswer} {e : RejEnd × List SourceAnswer} (h : SessionEnd block cap answers e) (hb : s.busy = false)
    (he : s.err = .none) :
    let u := s.afterSession rd e.1
    (u.err = .none ∧ u.busy = false ∧ ∃ p, u.readSlot rd.val = some p ∧ ∀ c ∈ p, 0 ≤ c ∧ c ≤ 3328) ∨
      (u.err = .xofFail ∧ u.err.code = 4 ∧ u.busy = false ∧ u.readSlot rd.val = none ∧
        .fail u.errInfo ∈ answers) ∨
      (u.err = .rejCap ∧ u.err.code = 5 ∧ u.errInfo = 0 ∧ u.busy = false ∧ u.readSlot rd.val = none) ∨
      (u.busy = true ∧ .silent ∈ answers) := by
  cases h with
  | done n _ full =>
    have hcanon : ∀ c ∈ heldAfter block n, 0 ≤ c ∧ c ≤ 3328 := fun c => canonical_of_mem_heldAfter
    exact .inl ⟨he, hb, _, (afterSession_done s rd (length_heldAfter full) hcanon).2, hcanon⟩
  | fail k _ code answer =>
    exact .inr (.inl ⟨rfl, rfl, rfl, readSlot_raiseLosing s rd _ _, List.mem_of_getElem? answer⟩)
  | cap => exact .inr (.inr (.inl ⟨rfl, rfl, rfl, rfl, readSlot_raiseLosing s rd _ _⟩))
  | silent k _ answer => exact .inr (.inr (.inr ⟨rfl, List.mem_of_getElem? answer⟩))

/-- Settles O43: the ends of a session, and the answer of a request that is made or the cap forcing one. -/
theorem genaOutcomes : Obligations.GenaOutcomes := by
  intro s rd row col t hb he block
  refine ⟨_, exec_gena s rd row col t, ?ends, fun k hk hok hfew => ?request, fun hok hfew => ?cap⟩
  case ends => exact afterSession_outcomes (rejSession_sessionEnd _ _ _) hb he
  case request =>
    obtain ⟨goOn, hgoOn⟩ : ∃ goOn, s.genaSession row col t = request (s.source.answers.drop k) goOn :=
      rejSession_makesRequest hk hok hfew
    rw [hgoOn]
    refine ⟨fun code hcode => ?_, fun hsilent => ?_⟩
    · rw [request_fail hcode]
      exact ⟨rfl, rfl, rfl, readSlot_raiseLosing _ rd _ _⟩
    · rw [request_silent hsilent]
      rfl
  case cap =>
    have hcap : (s.genaSession row col t).1 = .cap := rejSession_cap hok hfew
    rw [hcap]
    rfl

/-- A session that completes has requested three blocks: two hold at most 224 candidates. -/
theorem three_le_of_full {block : Nat → List Byte} (hblock : ∀ k, (block k).length = 168) {n : Nat}
    (full : 256 ≤ (acceptedIn block n).length) : 3 ≤ n := by
  have := length_acceptedIn_le hblock n
  omega

/-- Each end counts the requests made: one for the start, and one for each block. -/
theorem SessionEnd.requests {block : Nat → List Byte} (hblock : ∀ k, (block k).length = 168) {cap : Nat}
    {answers : List SourceAnswer} {e : RejEnd × List SourceAnswer} (h : SessionEnd block cap answers e) :
    ∃ k ≤ 1 + cap, e.2 = answers.drop k ∧ ∀ r, e.1 = .done r → 4 ≤ k := by
  cases h with
  | done n le_cap full =>
    have := three_le_of_full hblock full
    exact ⟨n + 1, by omega, rfl, fun _ _ => by omega⟩
  | fail k le_cap | silent k le_cap => exact ⟨k + 1, by omega, rfl, nofun⟩
  | cap => exact ⟨cap + 1, by omega, rfl, nofun⟩

theorem genaSession_requests (s : State) (row col : Fin 16) (t : Bool) :
    ∃ k ≤ 1 + Config.rejMaxBlocks, (s.genaSession row col t).2 = s.source.answers.drop k ∧
      ∀ r, (s.genaSession row col t).1 = .done r → 4 ≤ k :=
  (rejSession_sessionEnd _ _ _).requests fun k => length_xofBlock s.source _ k

/-- Only a session that completes leaves neither an error nor a command in progress. -/
theorem done_of_afterSession {s : State} {rd : Slot} {e : RejEnd}
    (he : (s.afterSession rd e).err = .none) (hb : (s.afterSession rd e).busy = false) : ∃ r, e = .done r := by
  cases e with
  | done r => exact ⟨r, rfl⟩
  | fail | cap => exact nomatch he
  | silent => exact nomatch hb

/-- Settles O44: each end of a session counts its requests, and one that completes made three for blocks. -/
theorem requestsAreBounded : Obligations.RequestsAreBounded := by
  refine ⟨fun s u rd row col t h => ?gena, fun s u rd nonce i hi h => ?getnoise⟩
  case gena =>
    cases (exec_gena s rd row col t).symm.trans h
    obtain ⟨k, hk, hrest, hdone⟩ := genaSession_requests s row col t
    refine ⟨k, hk, ?_, fun _ _ he hb => ?_⟩
    · rw [afterSession_source]
      exact hrest
    · obtain ⟨r, hr⟩ := done_of_afterSession he hb
      exact hdone r hr
  case getnoise =>
    simp only [List.mem_cons, List.not_mem_nil, or_false] at hi
    rcases hi with rfl | rfl <;> exact congrArg ByteSource.answers (source_of_execGetnoise h)

theorem matrixInput_transposed (s : State) (i j : Fin 16) :
    s.matrixInput j i true = s.matrixInput i j false := rfl

/-- Settles O45: both ask for the stream of the same 34 bytes. -/
theorem genaTransposition : Obligations.GenaTransposition := by
  intro s rd i j
  rw [exec_gena, exec_gena, State.genaSession, State.genaSession, matrixInput_transposed]

/-! ### The byte source (43_sampler.md R196) -/

/-- The byte source of `t` is that of `s` with some of its answers used up, the oldest first. -/
def SourceUsedUp (s t : State) : Prop :=
  ∃ k, t.source = { s.source with answers := s.source.answers.drop k }

/-- Whatever leaves the byte source alone uses up no answer. -/
theorem SourceUsedUp.of_eq {s t : State} (h : t.source = s.source) : SourceUsedUp s t := ⟨0, h⟩

theorem sourceUsedUp_of_exec {i : Instr} {s t : State} (h : exec i s = .next t) : SourceUsedUp s t := by
  obtain ⟨-, -, -, -, -, hsource⟩ := (exec_effect h).columns
  cases i with
  | getnoiseEta2 | getnoiseEta3 => exact ⟨1, source_of_execGetnoise h⟩
  | gena rd row col tr =>
    cases (exec_gena s rd row col tr).symm.trans h
    obtain ⟨k, -, hrest, -⟩ := genaSession_requests s row col tr
    refine ⟨k, ?_⟩
    rw [afterSession_source, State.setAnswers_source, hrest]
  | _ => exact .of_eq (hsource rfl)

theorem sourceUsedUp_of_issue {w : Word} {s t : State} (h : issue w s = .next t) : SourceUsedUp s t := by
  by_cases herr : s.err = .none
  · cases hd : decode w with
    | ok i => exact sourceUsedUp_of_exec ((issue_ok herr hd).symm.trans h)
    | error e => cases (issue_error herr hd).symm.trans h; exact .of_eq rfl
  · cases (issue_ignored w herr).symm.trans h; exact .of_eq rfl

theorem HostWriteEffect.sourceUsedUp {off n : Nat} {v : Word} {s t : State}
    (h : HostWriteEffect off n v s t) : SourceUsedUp s t := by
  cases h with
  | command _ _ run => exact sourceUsedUp_of_issue run
  | status =>
    unfold writeStatus
    split_ifs <;> exact .of_eq rfl
  | ignored | register | seed | storage => exact .of_eq rfl

/-- No action of the outside, a reset included, changes the byte source otherwise. -/
theorem sourceUsedUp_of_hostAct {a : HostAction} {s t : State} (h : hostAct a s = .next t) :
    SourceUsedUp s t := by
  cases a with
  | read off n => obtain ⟨v, -, rfl⟩ := hostRead_next h; exact .of_eq rfl
  | write off n v => exact (hostWrite_effect h).sourceUsedUp
  | reset => cases h; exact .of_eq rfl

theorem sourceUsedUp_of_step {s t : State} (h : step s = .next t) : SourceUsedUp s t := by
  cases hh : s.host with
  | nil => cases (step_idle hh).symm.trans h; exact .of_eq rfl
  | cons a rest =>
    exact sourceUsedUp_of_hostAct (s := { s with host := rest }) ((step_act hh).symm.trans h)

/-- Settles O47: the functions do not depend on the answers, the one part of the source that a step changes. -/
theorem byteSourceIsAFunction : Obligations.ByteSourceIsAFunction := by
  intro s t h
  obtain ⟨k, hk⟩ := sourceUsedUp_of_step h
  rw [hk]
  exact ⟨fun _ _ => rfl, fun _ _ => rfl, k, rfl⟩

end Sys2Proof.Machine


/-! # 44_compress.md: packing, the compressor's rounding and its error, and the two commands -/

namespace Sys2Proof.Machine
/-! ### Numbers as bits -/

theorem bitsOfNat_succ (d v : Nat) : bitsOfNat (d + 1) v = v.testBit 0 :: bitsOfNat d (v / 2) := by
  simp [bitsOfNat, List.range_succ_eq_map, Nat.testBit_succ]

theorem natOfBits_bitsOfNat : ∀ d v : Nat, natOfBits (bitsOfNat d v) = v % 2 ^ d
  | 0, v => (Nat.mod_one v).symm
  | d + 1, v => by
    rw [bitsOfNat_succ, natOfBits, natOfBits_bitsOfNat d, Nat.toNat_testBit, Nat.pow_zero, Nat.div_one,
      Nat.pow_succ', Nat.mod_mul]

theorem bitsOfNat_natOfBits : ∀ bits : List Bool, bitsOfNat bits.length (natOfBits bits) = bits
  | [] => rfl
  | b :: bits => by
    have hlow : (natOfBits (b :: bits)).testBit 0 = b := by
      cases b <;> simp [natOfBits, Nat.testBit_zero, Nat.add_mod]
    have hrest : natOfBits (b :: bits) / 2 = natOfBits bits := by
      have := b.toNat_lt
      rw [natOfBits]
      omega
    rw [List.length_cons, bitsOfNat_succ, hlow, hrest, bitsOfNat_natOfBits bits]

theorem natOfBits_lt (bits : List Bool) : natOfBits bits < 2 ^ bits.length := by
  have h := natOfBits_bitsOfNat bits.length (natOfBits bits)
  rw [bitsOfNat_natOfBits] at h
  rw [h]
  exact Nat.mod_lt _ (Nat.two_pow_pos _)

/-! ### Packing (44_compress.md R237) -/

/-- The bytes of a bit string have it as their stream. -/
theorem bitStream_bytesOfBits : ∀ {n : Nat} {bits : List Bool}, bits.length = 8 * n →
    bitStream (bytesOfBits n bits) = bits
  | 0, bits, h => (List.length_eq_zero_iff.mp h).symm
  | n + 1, bits, h => by
    have htake : (bits.take 8).length = 8 := by rw [List.length_take]; omega
    have hdrop : (bits.drop 8).length = 8 * n := by rw [List.length_drop]; omega
    have hlt := natOfBits_lt (bits.take 8)
    have hbits := bitsOfNat_natOfBits (bits.take 8)
    rw [htake] at hlt hbits
    change bitsOfNat 8 (BitVec.ofNat 8 (natOfBits (bits.take 8))).toNat ++
      bitStream (bytesOfBits n (bits.drop 8)) = bits
    rw [BitVec.toNat_ofNat, Nat.mod_eq_of_lt hlt, hbits, bitStream_bytesOfBits hdrop,
      List.take_append_drop]

theorem bitStream_packLSB {d : Nat} {vs : List Nat} (h : 8 ∣ vs.length * d) :
    bitStream (packLSB d vs) = vs.flatMap (bitsOfNat d) := by
  refine bitStream_bytesOfBits ?_
  rw [length_flatMap_bits d (fun v => v), Nat.mul_div_cancel' h]

theorem chunks_flatMap_bitsOfNat (d : Nat) : ∀ vs : List Nat,
    chunks d vs.length (vs.flatMap (bitsOfNat d)) = vs.map (bitsOfNat d)
  | [] => rfl
  | v :: vs => by
    rw [List.length_cons, chunks, List.flatMap_cons, List.take_left' (length_bitsOfNat d v),
      List.drop_left' (length_bitsOfNat d v), chunks_flatMap_bitsOfNat d vs, List.map_cons]

/-- The stream of packed values, cut every `d` bits, is the bits of each value. -/
theorem chunks_bitStream_packLSB {d : Nat} {vs : List Nat} (h : 8 ∣ vs.length * d) :
    chunks d vs.length (bitStream (packLSB d vs)) = vs.map (bitsOfNat d) := by
  rw [bitStream_packLSB h, chunks_flatMap_bitsOfNat]

/-- Unpacking undoes packing. -/
theorem unpackLSB_packLSB {d : Nat} {vs : List Nat} (h : 8 ∣ vs.length * d) (hvs : ∀ v ∈ vs, v < 2 ^ d) :
    unpackLSB d vs.length (packLSB d vs) = vs := by
  rw [unpackLSB, chunks_bitStream_packLSB h, List.map_map]
  have hback : ∀ v ∈ vs, natOfBits (bitsOfNat d v) = v := fun v hv => by
    rw [natOfBits_bitsOfNat, Nat.mod_eq_of_lt (hvs v hv)]
  exact (List.map_congr_left hback).trans (List.map_id vs)

/-- Value `i` stands at stream bits `i * d` to `i * d + d - 1`, bit 0 first. -/
theorem bitLSB_packLSB {d : Nat} {vs : List Nat} (h : 8 ∣ vs.length * d) {i b : Nat} (hi : i < vs.length)
    (hb : b < d) : bitLSB (packLSB d vs) (i * d + b) = (vs.getD i 0).testBit b := by
  have hend : d * i + d ≤ 8 * (packLSB d vs).length := by
    rw [length_packLSB, Nat.mul_div_cancel' h, Nat.mul_comm vs.length, ← Nat.mul_succ]
    exact Nat.mul_le_mul_left d hi
  have hchunk := getElem?_chunks d vs.length (bitStream (packLSB d vs)) i hi
  rw [chunks_bitStream_packLSB h, List.getElem?_map, List.getElem?_eq_getElem hi, Option.map_some,
    Option.some_inj, take_drop_bitStream hend] at hchunk
  have hbit := List.map_inj_left.mp hchunk b (List.mem_range.mpr hb)
  rw [Nat.mul_comm i, List.getD_eq_getElem vs 0 hi, hbit]

/-- A value of `d` unpacked bits. -/
theorem lt_of_mem_unpackLSB {d n v : Nat} {bytes : List Byte} (h : v ∈ unpackLSB d n bytes) : v < 2 ^ d := by
  obtain ⟨bits, hbits, rfl⟩ := List.mem_map.mp h
  exact (natOfBits_lt bits).trans_le (Nat.pow_le_pow_right (by decide) (length_le_of_mem_chunks hbits))

/-- Settles O50: 256 values of `d` bits fill whole bytes, whose stream is the values' bits one after another. -/
theorem packIsTheBitStream : Obligations.PackIsTheBitStream := by
  intro d vs _ hlen hvs
  have hbytes : 8 ∣ vs.length * d := by rw [hlen]; exact Dvd.dvd.mul_right (by decide) d
  refine ⟨?_, fun i hi b hb => bitLSB_packLSB hbytes (hlen ▸ hi) hb, ?_⟩
  · rw [length_packLSB, hlen]; omega
  · rw [← hlen, unpackLSB_packLSB hbytes hvs]

/-! ### Compress of one coefficient (44_compress.md R231, R232) -/

/-- csubq takes the argument to its residue, which is then rounded. -/
theorem compress_eq_emod (d : Nat) {x : Int} (h : CompressRange x) :
    compress d x = ((x % 3329 * 2 ^ d + 1664) / 3329 % 2 ^ d).toNat := by
  rw [compress, csubq_eq_emod h.1 (by omega)]

theorem compress_canonical (d : Nat) {c : Int} (h0 : 0 ≤ c) (h1 : c ≤ 3328) :
    compress d c = ((c * 2 ^ d + 1664) / 3329 % 2 ^ d).toNat := by
  rw [compress, csubq_of_lt (by omega)]

theorem compress_natCast (d : Nat) {c : Nat} (h : c ≤ 3328) :
    compress d c = (c * 2 ^ d + 1664) / 3329 % 2 ^ d := by
  rw [compress_canonical d (by omega) (by omega)]
  exact_mod_cast Int.toNat_natCast _

theorem roundedQuotient_le (d : Nat) {c : Nat} (hc : c ≤ 3328) : (c * 2 ^ d + 1664) / 3329 ≤ 2 ^ d := by
  have := Nat.mul_le_mul_right (2 ^ d) hc
  omega

/-- A multiplier `m` of which `q * m` is `e` short of `K`, on a numerator one above: quotients up to `Y` with
remainders from `R` on are exact if the `e * Y` missing at most are within what the remainder and the one add. -/
theorem succ_mul_div_of_short (m K e Y R : Nat) {x : Nat} (hK : 3329 * m + e = K) (he : 0 < e)
    (h : e * Y ≤ m * (R + 1)) (hY : x / 3329 ≤ Y) (hR : R ≤ x % 3329) : (x + 1) * m / K = x / 3329 := by
  have hx := Nat.div_add_mod x 3329
  have hr := Nat.mod_lt x (show 3329 > 0 by decide)
  have hmissing : e * (x / 3329) ≤ m * (x % 3329 + 1) :=
    ((Nat.mul_le_mul_left e hY).trans h).trans (Nat.mul_le_mul_left m (Nat.succ_le_succ hR))
  generalize x / 3329 = y at *
  generalize x % 3329 = r at *
  subst hK hx
  refine Nat.div_eq_of_lt_le ?_ ?_ <;> nlinarith

/-- A multiplier `m` of which `q * m` is `e` above `K`: quotients up to `Y` with remainders up to `R` are exact if
the `e * (Y + 1)` too much at most are below what the remainder lacks to q. -/
theorem mul_div_of_above (m K e Y R : Nat) {x : Nat} (hK : 3329 * m = K + e)
    (h : e * (Y + 1) + m * R < 3329 * m) (hY : x / 3329 ≤ Y) (hR : x % 3329 ≤ R) : x * m / K = x / 3329 := by
  have hx := Nat.div_add_mod x 3329
  have hexcess := Nat.mul_le_mul_left e (Nat.succ_le_succ hY)
  have hrem := Nat.mul_le_mul_left m hR
  generalize x / 3329 = y at *
  generalize x % 3329 = r at *
  subst hx
  refine Nat.div_eq_of_lt_le ?_ ?_ <;> nlinarith

/-- 2079 is the inverse of 2048 modulo q. -/
theorem eq_of_mul_2048_mod {c : Nat} (hc : c ≤ 3328) : c = c * 2048 % 3329 * 2079 % 3329 := by
  have hone : c * 2048 * 2079 = c + 3329 * (1279 * c) := by ring
  rw [Nat.mod_mul_mod, hone, Nat.add_mul_mod_self_left, Nat.mod_eq_of_lt (by omega)]

/-- The remainders above 3325 are left by three residues only. -/
theorem mod_add_half_le (x : Nat) :
    x % 3329 = 1664 ∨ x % 3329 = 1663 ∨ x % 3329 = 1662 ∨ (x + 1664) % 3329 ≤ 3325 := by
  omega

/-- Settles O48: 80635 * q and 1290167 * q are short of their powers of two, 40318 * q and 645084 * q above
theirs, by too little to move a quotient of the width, but for a few extreme remainders at widths 10 and 11,
each left by one value only. -/
theorem compressFixedPointForms : Obligations.CompressFixedPointForms := by
  intro c hc
  have hY := fun d => roundedQuotient_le d hc
  have hinv := eq_of_mul_2048_mod hc
  refine ⟨?_, ?_, ?_, ?_, ?_⟩ <;> rw [compress_natCast _ hc]
  · exact (congrArg (· % 2)
        (succ_mul_div_of_short 80635 (2 ^ 28) 1541 2 0 rfl (by decide) (by decide) (hY 1) (by omega))).symm
  · exact (congrArg (· % 16)
        (succ_mul_div_of_short 80635 (2 ^ 28) 1541 16 0 rfl (by decide) (by decide) (hY 4) (by omega))).symm
  · exact (congrArg (· % 32)
        (mul_div_of_above 40318 (2 ^ 27) 894 32 3328 rfl (by decide) (hY 5) (by omega))).symm
  · have hrem : c * 2048 % 3329 = 1 ∨ 1 ≤ (c * 1024 + 1664) % 3329 := by omega
    rcases hrem with ht | hR
    · obtain rfl : c = 2079 := by rw [hinv, ht]
      rfl
    · exact (congrArg (· % 1024)
        (succ_mul_div_of_short 1290167 (2 ^ 32) 1353 1024 1 rfl (by decide) (by decide) (hY 10) hR)).symm
  · rcases mod_add_half_le (c * 2048) with ht | ht | ht | hR
    · obtain rfl : c = 625 := by rw [hinv, ht]
      rfl
    · obtain rfl : c = 1875 := by rw [hinv, ht]
      rfl
    · obtain rfl : c = 3125 := by rw [hinv, ht]
      rfl
    · exact (congrArg (· % 2048)
        (mul_div_of_above 645084 (2 ^ 31) 988 2048 3325 rfl (by decide) (hY 11) hR)).symm

/-! ### Decompress, and the error of the two together (44_compress.md R234, R240) -/

/-- The widths up to the largest one that COMPRESS packs (44_compress.md R230). -/
abbrev CompressWidth (d : Nat) : Prop := 1 ≤ d ∧ d ≤ 11

/-- A width has a half step `2 ^ (d - 1)`, and it is within half of q. -/
theorem two_pow_width {d : Nat} (h : CompressWidth d) : 2 ^ d = 2 * 2 ^ (d - 1) ∧ 2 ^ (d - 1) ≤ 1024 := by
  obtain ⟨k, rfl⟩ := Nat.exists_eq_add_of_le h.1
  have hk : k ≤ 10 := by omega
  rw [Nat.add_sub_cancel_left, Nat.add_comm, Nat.pow_succ']
  exact ⟨rfl, Nat.pow_le_pow_right (by decide) hk⟩

/-- Decompress rounds to the nearest multiple of a step. -/
theorem decompress_mul_near {d : Nat} (hd : CompressWidth d) (v : Nat) :
    Near (2 ^ (d - 1) : Nat) (decompress d v * (2 ^ d : Nat) - v * 3329) := by
  obtain ⟨htwo, -⟩ := two_pow_width hd
  have hdiv := Nat.div_add_mod (v * 3329 + 2 ^ (d - 1)) (2 ^ d)
  have hmod := Nat.mod_lt (v * 3329 + 2 ^ (d - 1)) (Nat.two_pow_pos d)
  have hval : decompress d v * (2 ^ d : Nat) =
      (2 ^ d * ((v * 3329 + 2 ^ (d - 1)) / 2 ^ d) : Nat) := by
    rw [Nat.mul_comm, Nat.cast_mul]; rfl
  rw [hval]
  omega

theorem decompress_bounds {d v : Nat} (hd : CompressWidth d) (hv : v < 2 ^ d) :
    0 ≤ decompress d v ∧ decompress d v ≤ 3327 := by
  obtain ⟨htwo, hle⟩ := two_pow_width hd
  have hlt : (v * 3329 + 2 ^ (d - 1)) / 2 ^ d < 3328 := by
    rw [Nat.div_lt_iff_lt_mul (Nat.two_pow_pos d)]
    omega
  exact ⟨Int.natCast_nonneg _, Int.ofNat_le.mpr (Nat.le_of_lt_succ hlt)⟩

/-- Half a step is less than half of q, so the value itself is the nearest one. -/
theorem compress_decompress {d v : Nat} (hd : CompressWidth d) (hv : v < 2 ^ d) :
    compress d (decompress d v) = v := by
  obtain ⟨hlo, hhi⟩ := decompress_bounds hd hv
  have hnear := decompress_mul_near hd v
  obtain ⟨-, hle⟩ := two_pow_width hd
  have hcast : (2 : Int) ^ d = (2 ^ d : Nat) := (Nat.cast_pow 2 d).symm
  have hround : (decompress d v * (2 ^ d : Nat) + 1664) / 3329 = v := by omega
  rw [compress_canonical d hlo (by omega), hcast, hround]
  exact Nat.mod_eq_of_lt hv

theorem decompress_zero {d : Nat} (hd : CompressWidth d) : decompress d 0 = 0 := by
  have hlt : 0 * 3329 + 2 ^ (d - 1) < 2 ^ d := by
    obtain ⟨htwo, -⟩ := two_pow_width hd
    have := Nat.two_pow_pos (d - 1)
    omega
  exact congrArg Nat.cast (Nat.div_eq_of_lt hlt)

/-- What a canonical coefficient is off by after compression and decompression, modulo q: half of q and half a
step at most, in units of `2 ^ d`. A quotient of `2 ^ d` wraps to 0, which stands for q. -/
theorem exists_near_error {d : Nat} (hd : CompressWidth d) {c : Nat} (hc : c ≤ 3328) :
    ∃ w : Int, (decompress d (compress d c) - c) % 3329 = w % 3329 ∧
      Near (1664 + 2 ^ (d - 1) : Nat) (w * (2 ^ d : Nat)) := by
  rw [compress_natCast d hc]
  have hpos := Nat.two_pow_pos (d - 1)
  rcases (roundedQuotient_le d hc).lt_or_eq with hlt | heq
  · have hnear := decompress_mul_near hd ((c * 2 ^ d + 1664) / 3329)
    rw [Nat.mod_eq_of_lt hlt]
    refine ⟨_, rfl, ?_⟩
    rw [Int.sub_mul]
    omega
  · rw [heq, Nat.mod_self, decompress_zero hd]
    refine ⟨3329 - c, by omega, ?_⟩
    rw [Int.sub_mul]
    omega

/-- The distance modulo q of a coefficient from its decompressed value (44_compress.md R240). -/
def compressionError (d : Nat) (c : Int) : Int :=
  min ((decompress d (compress d c) - c) % 3329) ((c - decompress d (compress d c)) % 3329)

theorem compressionError_le {d : Nat} (hd : CompressWidth d) {e : Int}
    (he : ∀ w, Near (1664 + 2 ^ (d - 1) : Nat) (w * (2 ^ d : Nat)) → Near e w) {c : Int} (h0 : 0 ≤ c)
    (h1 : c ≤ 3328) : compressionError d c ≤ e := by
  lift c to Nat using h0
  obtain ⟨w, hw, hnear⟩ := exists_near_error hd (Int.ofNat_le.mp h1)
  obtain ⟨hlo, hhi⟩ := he w hnear
  unfold compressionError
  omega

/-- Settles O49: an error of `w` steps of `2 ^ d` is within half of q and half a step, which bounds `w` at each
width; the bound is met first where it is said to be. -/
theorem compressionErrorBound : Obligations.CompressionErrorBound := by
  intro e he
  have hd : CompressWidth e.1 := by revert e; decide
  refine ⟨fun c => compressionError_le hd ?bound, ?attained, ?first, fun v => compress_decompress hd⟩
  case bound =>
    simp only [List.mem_cons, List.not_mem_nil, or_false] at he
    rcases he with rfl | rfl | rfl | rfl <;> dsimp only <;> omega
  case attained => revert e; decide
  case first => revert e; decide +kernel

/-! ### The commands (44_compress.md R233, R236) -/

/-- COMPRESS on a readable slot of coefficients below 2q and a record inside its buffer. -/
theorem execCompress_of_readSlot (d : Nat) {ra : Slot} {bs : BufSel} {blk : Blk} {s : State} {p : List Int}
    (hin : RecordInside (32 * d) blk) (hread : s.readSlot ra.val = some p) (hp : ∀ v ∈ p, CompressRange v) :
    ∃ t, execCompress d ra bs blk s = .next t ∧ t = { s with mem := t.mem } ∧
      t.readSlot ra.val = some p ∧ SameMemoryBut (recordBase bs blk (32 * d)) (32 * d) s t ∧
      t.readBuf bs (blk.val * (32 * d)) (32 * d) = some (compressRecord d p) := by
  have hlen := length_compressRecord d (readSlot_some hread).1
  have hinside := record_inside hin
  refine ⟨_, execPack_next.mpr (.inl ⟨hin, p, hread, hp, rfl⟩), rfl, ?slot,
    read_writeRecord_outside s bs blk hlen, ?record⟩
  case slot => rw [writeRecord_eq, readSlot_writeBuf _ _ _ _ _ (by rwa [hlen]), hread]
  case record =>
    have hself := readBuf_writeBuf_self s bs (blk.val * (32 * d)) (compressRecord d p)
    rwa [hlen] at hself

/-- The record holds the rounded residues. -/
theorem compressRecord_eq (d : Nat) {p : List Int} (hp : ∀ v ∈ p, CompressRange v) :
    compressRecord d p =
      packLSB d (p.map fun v => ((v % 3329 * 2 ^ d + 1664) / 3329 % 2 ^ d).toNat) :=
  congrArg (packLSB d) (List.map_congr_left fun v hv => compress_eq_emod d (hp v hv))

/-- Settles O51: the record is inside its buffer, apart from the slots. -/
theorem compressCommand : Obligations.CompressCommand := by
  intro s ra bs blk c hc
  have hexec : exec c.1 s = execCompress c.2 ra bs blk s := by
    simp only [List.mem_cons, List.not_mem_nil, or_false] at hc
    rcases hc with rfl | rfl | rfl | rfl <;> rfl
  rw [hexec]
  refine ⟨fun p hin hread hp => ?_, unlessError_neg _ _ _⟩
  rw [← compressRecord_eq c.2 hp]
  exact execCompress_of_readSlot c.2 hin hread hp

theorem fits16_decompressRecord {d : Nat} (hd : CompressWidth d) (bytes : List Byte) :
    ∀ c ∈ decompressRecord d bytes, Fits16 c := by
  rw [decompressRecord, List.forall_mem_map]
  intro v hv
  obtain ⟨hlo, hhi⟩ := decompress_bounds hd (lt_of_mem_unpackLSB hv)
  omega

/-- Coefficient `i` is the decompressed value number `i`. -/
theorem getD_decompressRecord (d : Nat) (bytes : List Byte) {i : Nat} (hi : i < 256) :
    (decompressRecord d bytes).getD i 0 = decompress d ((unpackLSB d 256 bytes).getD i 0) := by
  simp [decompressRecord, List.getD_eq_getElem?_getD, hi]

/-- DECOMPRESS on a readable record inside its buffer. -/
theorem execDecompress_of_readBuf {d : Nat} (hd : CompressWidth d) {rd : Slot} {bs : BufSel} {blk : Blk}
    {s : State} {bytes : List Byte} (hin : RecordInside (32 * d) blk)
    (hread : s.readBuf bs (blk.val * (32 * d)) (32 * d) = some bytes) :
    ∃ t, execDecompress d rd bs blk s = .next t ∧ t = { s with mem := t.mem } ∧
      t.readSlot rd.val = some (decompressRecord d bytes) ∧
      t.readBuf bs (blk.val * (32 * d)) (32 * d) = some bytes :=
  ⟨_, execUnpack_next.mpr (.inl ⟨hin, bytes, hread, rfl⟩), rfl,
    readSlot_writeSlot_self _ _ _ (length_decompressRecord ..) (fits16_decompressRecord hd bytes),
    (readBuf_writeSlot _ _ _ _ _ _ (record_inside hin)).trans hread⟩

/-- Settles O52: the record is read, each of its values has the width's bits, and the slot written is apart from
it. -/
theorem decompressCommand : Obligations.DecompressCommand := by
  intro s rd bs blk c hc
  have hexec : exec c.1 s = execDecompress c.2 rd bs blk s ∧ CompressWidth c.2 := by
    simp only [List.mem_cons, List.not_mem_nil, or_false] at hc
    rcases hc with rfl | rfl | rfl | rfl <;> exact ⟨rfl, by simp [CompressWidth]⟩
  obtain ⟨hexec, hd⟩ := hexec
  rw [hexec]
  refine ⟨fun bytes hin hread => ?_, unlessError_neg _ _ _⟩
  obtain ⟨t, ht, hframe, hslot, hrecord⟩ := execDecompress_of_readBuf (rd := rd) hd hin hread
  refine ⟨t, _, ht, hframe, hslot, hrecord, fun i hi => ?_⟩
  have hlen : i < (unpackLSB c.2 256 bytes).length := by rwa [length_unpackLSB]
  have hlt : (unpackLSB c.2 256 bytes).getD i 0 < 2 ^ c.2 := by
    rw [List.getD_eq_getElem _ 0 hlen]
    exact lt_of_mem_unpackLSB (List.getElem_mem hlen)
  obtain ⟨hlo, hhi⟩ := decompress_bounds hd hlt
  rw [getD_decompressRecord c.2 bytes hi]
  exact ⟨hlo, hhi, rfl⟩

end Sys2Proof.Machine


/-! # 45_codec.md: the message codec and the 12-bit byte codec, and their round trips -/

namespace Sys2Proof.Machine

/-! ### Commands that pack a slot into a record, or unpack one (44_compress.md R233, R236) -/

/-- A packing command whose slot is readable and meets its precondition, with its record inside its buffer. -/
theorem execPack_of_readSlot {S : Nat} {pre : Int → Prop} [DecidablePred pre] {f : List Int → List Byte}
    {ra : Slot} {bs : BufSel} {blk : Blk} {s : State} {p : List Int} (hin : RecordInside S blk)
    (hread : s.readSlot ra.val = some p) (hp : ∀ c ∈ p, pre c) (hlen : (f p).length = S) :
    ∃ t, execPack S pre f ra bs blk s = .next t ∧ t = { s with mem := t.mem } ∧
      t.readSlot ra.val = some p ∧ SameMemoryBut (recordBase bs blk S) S s t ∧
      t.readBuf bs (blk.val * S) S = some (f p) := by
  have hinside := record_inside hin
  refine ⟨_, execPack_next.mpr (.inl ⟨hin, p, hread, hp, rfl⟩), rfl, ?slot,
    read_writeRecord_outside s bs blk hlen, ?record⟩
  case slot => rw [writeRecord_eq, readSlot_writeBuf _ _ _ _ _ (by rwa [hlen]), hread]
  case record =>
    have hself := readBuf_writeBuf_self s bs (blk.val * S) (f p)
    rwa [hlen] at hself

/-- A packing command whose slot is readable but not in its range (60_exceptions.md R290). -/
theorem execPack_refused {S : Nat} {pre : Int → Prop} [DecidablePred pre] {f : List Int → List Byte}
    {ra : Slot} {bs : BufSel} {blk : Blk} {s : State} {p : List Int} (hin : RecordInside S blk)
    (hread : s.readSlot ra.val = some p) (hp : ¬∀ c ∈ p, pre c) :
    execPack S pre f ra bs blk s = .refused .contractViolation := by
  rw [execPack, unlessError_pos _ _ _ hin, withSlot, hread, written_some, requiring_neg _ hp]

/-- An unpacking command whose record is readable and inside its buffer. -/
theorem execUnpack_of_readBuf {S : Nat} {f : List Byte → List Int} {rd : Slot} {bs : BufSel} {blk : Blk}
    {s : State} {bytes : List Byte} (hin : RecordInside S blk)
    (hread : s.readBuf bs (blk.val * S) S = some bytes) (hlen : (f bytes).length = 256)
    (hfits : ∀ c ∈ f bytes, Fits16 c) :
    ∃ t, execUnpack S f rd bs blk s = .next t ∧ t = { s with mem := t.mem } ∧
      t.readSlot rd.val = some (f bytes) ∧ t.readBuf bs (blk.val * S) S = some bytes :=
  ⟨_, execUnpack_next.mpr (.inl ⟨hin, bytes, hread, rfl⟩), rfl, readSlot_writeSlot_self _ _ _ hlen hfits,
    (readBuf_writeSlot _ _ _ _ _ _ (record_inside hin)).trans hread⟩

/-! ### Bit streams, cut and joined -/

theorem bitLSB_byte (bytes : List Byte) (i : Nat) {j : Nat} (hj : j < 8) :
    bitLSB bytes (8 * i + j) = (bytes.getD i 0).getLsbD j := by
  rw [bitLSB, Nat.mul_add_div (by decide), Nat.div_eq_of_lt hj, Nat.add_zero, Nat.mul_add_mod,
    Nat.mod_eq_of_lt hj]

/-- A byte string is the bytes of its stream. -/
theorem bytesOfBits_bitStream : ∀ bytes : List Byte, bytesOfBits bytes.length (bitStream bytes) = bytes
  | [] => rfl
  | b :: bytes => by
    have hcons : bitStream (b :: bytes) = bitsOfNat 8 b.toNat ++ bitStream bytes := rfl
    have htail := bytesOfBits_bitStream bytes
    rw [bytesOfBits] at htail
    rw [hcons, bytesOfBits, List.length_cons, chunks, List.take_left' (length_bitsOfNat ..),
      List.drop_left' (length_bitsOfNat ..), List.map_cons, htail, natOfBits_bitsOfNat,
      Nat.mod_eq_of_lt b.isLt, BitVec.ofNat_toNat, BitVec.setWidth_eq]

/-- Pieces of `d` bits, read as numbers and spelled out again, join to the bits they were cut from. -/
theorem flatMap_bitsOfNat_chunks (d : Nat) : ∀ (n : Nat) (bits : List Bool), bits.length = d * n →
    ((chunks d n bits).map natOfBits).flatMap (bitsOfNat d) = bits
  | 0, bits, h => (List.length_eq_zero_iff.mp h).symm
  | n + 1, bits, h => by
    rw [Nat.mul_succ] at h
    have htake : (bits.take d).length = d := by rw [List.length_take]; omega
    have hhead := bitsOfNat_natOfBits (bits.take d)
    rw [htake] at hhead
    have hrest := flatMap_bitsOfNat_chunks d n (bits.drop d) (by rw [List.length_drop]; omega)
    rw [chunks, List.map_cons, List.flatMap_cons, hhead, hrest, List.take_append_drop]

/-- Packing undoes unpacking. -/
theorem packLSB_unpackLSB {d n : Nat} {bytes : List Byte} (h : n * d = 8 * bytes.length) :
    packLSB d (unpackLSB d n bytes) = bytes := by
  have hbits : (bitStream bytes).length = d * n := by rw [length_bitStream, Nat.mul_comm d, h, Nat.mul_comm]
  rw [packLSB, length_unpackLSB, h, Nat.mul_div_cancel_left _ (by decide), unpackLSB,
    flatMap_bitsOfNat_chunks d n _ hbits, bytesOfBits_bitStream]

/-! ### The message codec (45_codec.md R251, R253, R254) -/

theorem messageCoeff_bounds (b : Bool) : 0 ≤ messageCoeff b ∧ messageCoeff b ≤ 1665 := by
  cases b <;> decide

theorem fromMsg_bounds (m : List Byte) : ∀ c ∈ fromMsg m, 0 ≤ c ∧ c ≤ 1665 := by
  rw [fromMsg, List.forall_mem_map]
  exact fun b _ => messageCoeff_bounds b

theorem getD_fromMsg {m : List Byte} {k : Nat} (hk : k < 8 * m.length) :
    (fromMsg m).getD k 0 = messageCoeff (bitLSB m k) := by
  simp [fromMsg, bitStream_eq_map, List.getD_eq_getElem?_getD, hk]

/-- The message bit is 1 on the half of the residues nearest to 1665. -/
theorem messageBit_testBit {c : Int} (h : CompressRange c) :
    (messageBit c).testBit 0 = true ↔ 833 ≤ c % 3329 ∧ c % 3329 ≤ 2496 := by
  rw [messageBit, compress_eq_emod 1 h, Nat.testBit_zero, decide_eq_true_iff]
  omega

theorem messageBit_messageCoeff (b : Bool) : messageBit (messageCoeff b) = b.toNat := by
  cases b <;> decide

/-- Bit `k` of the message is the bit of coefficient `k`. -/
theorem bitLSB_toMsg {p : List Int} (hlen : p.length = 256) {k : Nat} (hk : k < 256) :
    bitLSB (toMsg p) k = (messageBit (p.getD k 0)).testBit 0 := by
  have hbit := bitLSB_packLSB (d := 1) (vs := p.map messageBit) (by simp [hlen]) (i := k) (b := 0)
    (by simpa [hlen]) (by decide)
  rw [Nat.mul_one, Nat.add_zero] at hbit
  rw [toMsg, hbit]
  simp [List.getD_eq_getElem?_getD, hlen, hk]

/-- The bits of one-bit numbers, packed, are the bytes of those bits. -/
theorem packLSB_one (bits : List Bool) :
    packLSB 1 (bits.map Bool.toNat) = bytesOfBits (bits.length / 8) bits := by
  have hbit : ∀ b : Bool, bitsOfNat 1 b.toNat = [b] := by decide
  simp [packLSB, List.flatMap_map, hbit]

theorem toMsg_fromMsg (m : List Byte) : toMsg (fromMsg m) = m := by
  have hbits : (fromMsg m).map messageBit = (bitStream m).map Bool.toNat := by
    rw [fromMsg, List.map_map]
    exact List.map_congr_left fun b _ => messageBit_messageCoeff b
  rw [toMsg, hbits, packLSB_one, length_bitStream, Nat.mul_div_cancel _ (by decide), bytesOfBits_bitStream]

/-- Every record of 32 bytes is inside its buffer (20_memory.md R60). -/
theorem recordInside_message (blk : Blk) : RecordInside 32 blk := by omega

/-- FROMMSG on a readable record. -/
theorem execFrommsg_of_readBuf {rd : Slot} {bs : BufSel} {blk : Blk} {s : State} {m : List Byte}
    (hread : s.readBuf bs (blk.val * 32) 32 = some m) :
    ∃ t, exec (.frommsg rd bs blk) s = .next t ∧ t = { s with mem := t.mem } ∧
      t.readSlot rd.val = some (fromMsg m) ∧ t.readBuf bs (blk.val * 32) 32 = some m := by
  refine execUnpack_of_readBuf (recordInside_message blk) hread (length_fromMsg (readBuf_length hread))
    fun c hc => ?_
  have := fromMsg_bounds m c hc
  omega

/-- TOMSG on a readable slot of coefficients below 2q. -/
theorem execTomsg_of_readSlot {ra : Slot} {bs : BufSel} {blk : Blk} {s : State} {p : List Int}
    (hread : s.readSlot ra.val = some p) (hp : ∀ c ∈ p, CompressRange c) :
    ∃ t, exec (.tomsg ra bs blk) s = .next t ∧ t = { s with mem := t.mem } ∧
      t.readSlot ra.val = some p ∧ SameMemoryBut (recordBase bs blk 32) 32 s t ∧
      t.readBuf bs (blk.val * 32) 32 = some (toMsg p) :=
  execPack_of_readSlot (recordInside_message blk) hread hp (length_toMsg (readSlot_some hread).1)

/-- Settles O53: both codecs act bit by bit on the stream of the message. -/
theorem messageCommands : Obligations.MessageCommands := by
  constructor
  · intro s rd bs blk m hread
    obtain ⟨t, ht, hframe, hslot, hrecord⟩ := execFrommsg_of_readBuf (rd := rd) hread
    refine ⟨t, _, ht, hframe, hslot, hrecord, fun i hi j hj => ?_⟩
    have hlen := readBuf_length hread
    rw [getD_fromMsg (by omega), bitLSB_byte m i hj, messageCoeff]
  · intro s ra bs blk p hread
    refine ⟨fun hp => ?_, execPack_refused (recordInside_message blk) hread⟩
    obtain ⟨t, ht, hframe, hslot, hsame, hrecord⟩ := execTomsg_of_readSlot (bs := bs) (blk := blk) hread hp
    refine ⟨t, _, ht, hframe, hrecord, hslot, hsame, fun i hi j hj => ?_⟩
    have hlen := (readSlot_some hread).1
    have hk : 8 * i + j < 256 := by omega
    have hmem : p.getD (8 * i + j) 0 ∈ p := by
      rw [List.getD_eq_getElem p 0 (by omega)]
      exact List.getElem_mem _
    rw [← bitLSB_byte _ i hj, bitLSB_toMsg hlen hk, messageBit_testBit (hp _ hmem)]

/-! ### The 12-bit byte codec (45_codec.md R255 to R258) -/

theorem natOfBits_map_range : ∀ (n : Nat) (f : Nat → Bool),
    natOfBits ((List.range n).map f) = ((List.range n).map fun j => (f j).toNat * 2 ^ j).sum
  | 0, _ => rfl
  | n + 1, f => by
    have hdouble : ∀ j, (f (j + 1)).toNat * 2 ^ (j + 1) = 2 * ((f (j + 1)).toNat * 2 ^ j) :=
      fun j => by ring
    simp [List.range_succ_eq_map, natOfBits, natOfBits_map_range n, Function.comp_def, hdouble,
      List.sum_map_mul_left]

/-- A byte string of 3-byte groups, unpacked to 12 bits, is its candidates: the fields RejParse scans
(43_sampler.md R203). -/
theorem unpackLSB_twelve {n : Nat} {bytes : List Byte} (h : bytes.length = 3 * n) :
    unpackLSB 12 (2 * n) bytes = candidates bytes := by
  rw [candidates_eq_map n h]
  refine List.ext_getElem? fun i => ?_
  rw [unpackLSB, List.getElem?_map, List.getElem?_map]
  rcases lt_or_ge i (2 * n) with hi | hi
  · rw [getElem?_chunks _ _ _ _ hi, take_drop_bitStream (by omega), List.getElem?_range hi,
      Option.map_some, Option.map_some, natOfBits_map_range, candidateField]
  · simp [hi]

/-- The two candidates of group `i` (45_codec.md R257). -/
theorem getD_candidates : ∀ (i : Nat) {bytes : List Byte}, 3 * i + 2 < bytes.length →
    (candidates bytes).getD (2 * i) 0 =
        (bytes.getD (3 * i) 0).toNat + (bytes.getD (3 * i + 1) 0).toNat % 16 * 256 ∧
      (candidates bytes).getD (2 * i + 1) 0 =
        (bytes.getD (3 * i + 1) 0).toNat / 16 + (bytes.getD (3 * i + 2) 0).toNat * 16
  | 0, _ :: _ :: _ :: _, _ => ⟨rfl, rfl⟩
  | i + 1, _ :: _ :: _ :: rest, h => getD_candidates i (bytes := rest) (by simp at h; omega)

theorem fromBytes_fits12 (bytes : List Byte) : ∀ c ∈ fromBytes bytes, Fits12 c := by
  rw [fromBytes, List.forall_mem_map]
  intro v hv
  have := lt_of_mem_unpackLSB hv
  have := Int.ofNat_eq_natCast v
  omega

/-- The two coefficients of a 3-byte group (45_codec.md R257). -/
theorem getD_fromBytes {bytes : List Byte} (hlen : bytes.length = 384) {i : Nat} (hi : i < 128) :
    (fromBytes bytes).getD (2 * i) 0 =
        (bytes.getD (3 * i) 0).toNat + ((bytes.getD (3 * i + 1) 0).toNat % 16 * 256 : Nat) ∧
      (fromBytes bytes).getD (2 * i + 1) 0 =
        ((bytes.getD (3 * i + 1) 0).toNat / 16 : Nat) + ((bytes.getD (3 * i + 2) 0).toNat * 16 : Nat) := by
  have hfields : fromBytes bytes = (candidates bytes).map Int.ofNat :=
    congrArg (List.map Int.ofNat) (unpackLSB_twelve (n := 128) hlen)
  have hcast : ∀ k, (fromBytes bytes).getD k 0 = ((candidates bytes).getD k 0 : Nat) :=
    fun k => by rw [hfields]; exact List.getD_map ..
  obtain ⟨heven, hodd⟩ := getD_candidates i (bytes := bytes) (by omega)
  rw [hcast, hcast, heven, hodd]
  exact ⟨Int.natCast_add .., Int.natCast_add ..⟩

theorem fromBytes_toBytes {p : List Int} (hlen : p.length = 256) (hp : ∀ c ∈ p, Fits12 c) :
    fromBytes (toBytes p) = p := by
  have hvs : ∀ v ∈ p.map Int.toNat, v < 2 ^ 12 := by
    rw [List.forall_mem_map]
    intro c hc
    have := hp c hc
    omega
  have hunpack := unpackLSB_packLSB (d := 12) (by simp [hlen]) hvs
  rw [List.length_map, hlen] at hunpack
  rw [fromBytes, toBytes, hunpack, List.map_map]
  exact (List.map_congr_left fun c hc => Int.toNat_of_nonneg (hp c hc).1).trans (List.map_id p)

theorem toBytes_fromBytes {bytes : List Byte} (hlen : bytes.length = 384) :
    toBytes (fromBytes bytes) = bytes := by
  have hid : Int.toNat ∘ Int.ofNat = id := rfl
  rw [toBytes, fromBytes, List.map_map, hid, List.map_id, packLSB_unpackLSB (by omega)]

/-- The three bytes of a pair of coefficients (45_codec.md R255), from the layout the way back reads. -/
theorem getD_toBytes {p : List Int} (hlen : p.length = 256) (hp : ∀ c ∈ p, Fits12 c) {i : Nat}
    (hi : i < 128) :
    (((toBytes p).getD (3 * i) 0).toNat : Int) = p.getD (2 * i) 0 % 256 ∧
      (((toBytes p).getD (3 * i + 1) 0).toNat : Int) =
        p.getD (2 * i) 0 / 256 + p.getD (2 * i + 1) 0 % 16 * 16 ∧
      (((toBytes p).getD (3 * i + 2) 0).toNat : Int) = p.getD (2 * i + 1) 0 / 16 := by
  obtain ⟨heven, hodd⟩ := getD_fromBytes (length_toBytes hlen) hi
  rw [fromBytes_toBytes hlen hp] at heven hodd
  rw [heven, hodd]
  have := ((toBytes p).getD (3 * i) 0).isLt
  have := ((toBytes p).getD (3 * i + 1) 0).isLt
  omega

/-- TOBYTES on a readable slot of coefficients that fit 12 bits. -/
theorem execTobytes_of_readSlot {ra : Slot} {bs : BufSel} {blk : Blk} {s : State} {p : List Int}
    (hin : RecordInside 384 blk) (hread : s.readSlot ra.val = some p) (hp : ∀ c ∈ p, Fits12 c) :
    ∃ t, exec (.tobytes ra bs blk) s = .next t ∧ t = { s with mem := t.mem } ∧
      t.readSlot ra.val = some p ∧ SameMemoryBut (recordBase bs blk 384) 384 s t ∧
      t.readBuf bs (blk.val * 384) 384 = some (toBytes p) :=
  execPack_of_readSlot hin hread hp (length_toBytes (readSlot_some hread).1)

/-- FROMBYTES on a readable record inside its buffer. -/
theorem execFrombytes_of_readBuf {rd : Slot} {bs : BufSel} {blk : Blk} {s : State} {bytes : List Byte}
    (hin : RecordInside 384 blk) (hread : s.readBuf bs (blk.val * 384) 384 = some bytes) :
    ∃ t, exec (.frombytes rd bs blk) s = .next t ∧ t = { s with mem := t.mem } ∧
      t.readSlot rd.val = some (fromBytes bytes) ∧ t.readBuf bs (blk.val * 384) 384 = some bytes := by
  refine execUnpack_of_readBuf hin hread (length_fromBytes bytes) fun c hc => ?_
  have := fromBytes_fits12 bytes c hc
  omega

/-- Settles O54: FROMBYTES reads 3-byte groups as RejParse does, and TOBYTES packs what it reads back. -/
theorem byteCodecCommands : Obligations.ByteCodecCommands := by
  intro s r bs blk
  refine ⟨fun p hin hread => ⟨fun hp => ?tobytes, execPack_refused hin hread⟩,
    fun b hin hread => ?frombytes, fun hout => ⟨unlessError_neg _ _ _ hout, unlessError_neg _ _ _ hout⟩⟩
  case tobytes =>
    obtain ⟨t, ht, hframe, hslot, -, hrecord⟩ := execTobytes_of_readSlot (bs := bs) hin hread hp
    exact ⟨t, _, ht, hframe, hrecord, hslot, fun i hi => getD_toBytes (readSlot_some hread).1 hp hi⟩
  case frombytes =>
    obtain ⟨t, ht, hframe, hslot, hrecord⟩ := execFrombytes_of_readBuf (rd := r) hin hread
    exact ⟨t, _, ht, hframe, hslot, hrecord, fun i hi => getD_fromBytes (readBuf_length hread) hi⟩

/-! ### The round trips (45_codec.md R254, R258) -/

/-- Settles O55: the second command finds what the first wrote, and the codecs undo each other. -/
theorem codecRoundTrips : Obligations.CodecRoundTrips := by
  intro s r r' bs bs' blk blk'
  refine ⟨fun m hread => ?message, fun p hin hread hp => ?polynomial, fun b hin hread => ?bytes⟩
  case message =>
    obtain ⟨t, ht, -, hslot, -⟩ := execFrommsg_of_readBuf (rd := r) hread
    have hrange : ∀ c ∈ fromMsg m, CompressRange c := fun c hc => by
      have := fromMsg_bounds m c hc
      omega
    obtain ⟨u, hu, -, -, -, hrecord⟩ := execTomsg_of_readSlot (bs := bs') (blk := blk') hslot hrange
    exact ⟨t, u, ht, hu, by rw [hrecord, toMsg_fromMsg]⟩
  case polynomial =>
    obtain ⟨t, ht, -, -, -, hrecord⟩ := execTobytes_of_readSlot (bs := bs) hin hread hp
    obtain ⟨u, hu, -, hslot, -⟩ := execFrombytes_of_readBuf (rd := r') hin hrecord
    exact ⟨t, u, ht, hu, by rw [hslot, fromBytes_toBytes (readSlot_some hread).1 hp]⟩
  case bytes =>
    obtain ⟨t, ht, -, hslot, -⟩ := execFrombytes_of_readBuf (rd := r) hin hread
    obtain ⟨u, hu, -, -, -, hrecord⟩ := execTobytes_of_readSlot (bs := bs) hin hslot (fromBytes_fits12 b)
    exact ⟨t, u, ht, hu, by rw [hrecord, toBytes_fromBytes (readBuf_length hread)]⟩

end Sys2Proof.Machine


/-! # 46_compare.md: the constant-time comparator -/

namespace Sys2Proof.Machine

/-- An OR accumulated over bytes is 0 only if it starts at 0 and every byte is 0. -/
theorem foldl_or_eq_zero_iff (ds : List Byte) (acc : Byte) :
    ds.foldl (fun acc d => acc ||| d) acc = 0 ↔ acc = 0 ∧ ∀ d ∈ ds, d = 0 := by
  induction ds generalizing acc with
  | nil => simp
  | cons d ds ih =>
    rw [List.foldl_cons, ih, List.forall_mem_cons, ← and_assoc]
    exact and_congr_left' BitVec.or_eq_zero_iff

/-- The comparator's accumulator stays 0 exactly if every pair of bytes XORs to 0, that is, is equal
(46_compare.md R270). -/
theorem orOfXors_eq_zero_iff {a b : List Byte} {n : Nat} (ha : a.length = n) (hb : b.length = n) :
    orOfXors a b = 0 ↔ ∀ i < n, a.getD i 0 = b.getD i 0 := by
  have hlen : (List.zipWith (fun p q => p ^^^ q) a b).length = n := by simp [ha, hb]
  rw [orOfXors, foldl_or_eq_zero_iff, and_iff_right rfl, List.forall_mem_iff_forall_getElem, ← hlen]
  refine forall₂_congr fun i hi => ?_
  rw [List.getElem_zipWith, List.getD_eq_getElem a 0 (by omega), List.getD_eq_getElem b 0 (by omega)]
  exact BitVec.xor_eq_zero_iff

theorem cmpneOf_eq_false_iff {a b : List Byte} {n : Nat} (ha : a.length = n) (hb : b.length = n) :
    cmpneOf a b = false ↔ ∀ i < n, a.getD i 0 = b.getD i 0 := by
  rw [cmpneOf, bne_eq_false_iff_eq, orOfXors_eq_zero_iff ha hb]

/-- CTCMP on readable bytes within the buffers. -/
theorem execCtcmp_of_readBuf {len : Fin 4096} {s : State} {a b : List Byte} (hlen : len.val ≤ 2048)
    (ha : s.readBuf .A 0 len.val = some a) (hb : s.readBuf .B 0 len.val = some b) :
    exec (.ctcmp len) s = .next (s.writeCmpne (cmpneOf a b)) :=
  execCtcmp_next.mpr (.inl ⟨hlen, a, b, ha, hb, rfl⟩)

/-- Settles O56: the only write is CMPNE, the OR of the XORs of two strings of `len` bytes each. -/
theorem ctcmpCommand : Obligations.CtcmpCommand := by
  intro s len
  refine ⟨fun a b hlen ha hb => ⟨_, execCtcmp_of_readBuf hlen ha hb, rfl, ?_⟩,
    fun hout => execCtcmp_next.mpr (.inr ⟨hout, rfl⟩)⟩
  exact cmpneOf_eq_false_iff (readBuf_length ha) (readBuf_length hb)

end Sys2Proof.Machine


/-! # 60_exceptions.md: what an error leaves, what clears it, and what is refused instead of reported -/

namespace Sys2Proof.Machine

/-! ### Operands outside a precondition (60_exceptions.md R290) -/

/-- One element that breaks a condition breaks it for the whole list. -/
theorem not_forall_mem_of_exists {α : Type} {l : List α} {P : α → Prop} (h : ∃ c ∈ l, ¬P c) :
    ¬∀ c ∈ l, P c :=
  fun hall => h.elim fun c hc => hc.2 (hall c hc.1)

/-- A command on one readable slot with a coefficient out of range. -/
theorem withSlot_refused {pre : Int → Prop} [DecidablePred pre] {r : Slot} {s : State} {p : List Int}
    {k : List Int → Result} (hread : s.readSlot r.val = some p) (h : ∃ c ∈ p, ¬pre c) :
    (withSlot s r fun a => requiring (∀ c ∈ a, pre c) (k a)) = .refused .contractViolation := by
  rw [withSlot, hread, written_some, requiring_neg _ (not_forall_mem_of_exists h)]

/-- A coefficient-wise command on readable slots with a result that does not fit 16 bits. -/
theorem execPointwise_refused {f : Int → Int → Int} {rd ra rb : Slot} {s : State} {p q : List Int}
    (hp : s.readSlot ra.val = some p) (hq : s.readSlot rb.val = some q)
    (h : ∃ i < 256, ¬Fits16 (f (p.getD i 0) (q.getD i 0))) :
    execPointwise f rd ra rb s = .refused .contractViolation := by
  obtain ⟨i, hi, hbad⟩ := h
  obtain ⟨hpl, -⟩ := readSlot_some hp
  obtain ⟨hql, -⟩ := readSlot_some hq
  have hmem : f (p.getD i 0) (q.getD i 0) ∈ List.zipWith f p q :=
    List.mem_iff_getElem.mpr ⟨i, by simp [hpl, hql, hi], by simp [hpl, hql, hi]⟩
  rw [execPointwise, withSlot, hp, written_some, withSlot, hq, written_some,
    requiring_neg _ fun hall => hbad (hall _ hmem)]

theorem execBasemul_refused {rd ra rb : Reg} {neg : Bool} {zi : Fin 128} {s : State}
    (hwf : (Instr.basemul rd ra rb neg zi).wellFormed = true) (h : ¬(s.basemulOperands ra rb neg zi).Legal) :
    execBasemul rd ra rb neg zi s = .refused .contractViolation := by
  rw [execBasemul, unlessError_pos _ _ _ (wellFormed_basemul.mp hwf), requiring_neg _ h]

theorem execPwacc_refused {rd ra rb : Slot} {K : Fin 8} {s : State} {as bs : List (List Int)}
    (hwf : (Instr.pwacc rd ra rb K).wellFormed = true) (ha : s.readVector ra K.val = some as)
    (hb : s.readVector rb K.val = some bs) (h : ∃ ab ∈ as.zip bs, ¬PolyMulLegal ab.1 ab.2) :
    execPwacc rd ra rb K s = .refused .contractViolation := by
  rw [execPwacc, unlessError_pos _ _ _ (wellFormed_pwacc.mp hwf), ha, written_some, hb, written_some,
    requiring_neg _ (not_forall_mem_of_exists h)]

/-- Settles O15: each shape of command reads its sources and then refuses what its precondition excludes. -/
theorem contractViolationRefused : Obligations.ContractViolationRefused := by
  intro s
  refine ⟨fun rd ra => requiring_neg _, fun rd ra => requiring_neg _, fun rd ra rb => requiring_neg _,
    fun rd ra rb neg zi => execBasemul_refused, fun rd ra p => withSlot_refused,
    fun rd ra rb p q hp hq => ⟨execPointwise_refused hp hq, execPointwise_refused hp hq⟩,
    fun rd p hp => ⟨withSlot_refused hp, withSlot_refused hp⟩, fun rd ra rb K as bs => execPwacc_refused,
    fun ra bs blk p hp h i hi hwf => ?compressing,
    fun ra bs blk p hp h hwf =>
      execPack_refused (of_decide_eq_true hwf) hp (not_forall_mem_of_exists h)⟩
  case compressing =>
    have hbad : ¬∀ c ∈ p, CompressRange c := not_forall_mem_of_exists h
    simp only [List.mem_cons, List.not_mem_nil, or_false] at hi
    rcases hi with rfl | rfl | rfl | rfl | rfl <;> exact execPack_refused (of_decide_eq_true hwf) hp hbad

/-! ### What XofFail and RejCap leave (60_exceptions.md R285) -/

/-- Only a sampler that loses its slot ends in XofFail or RejCap. -/
theorem CommandEffect.loses_of_err {i : Instr} {s t : State} (h : CommandEffect i s t) (hs : s.err = .none)
    (ht : t.err = .xofFail ∨ t.err = .rejCap) :
    ∃ rest rd e info, i.storeRange = (slotBase rd.val, slotBytes) ∧
      t = (s.setAnswers rest).raiseLosing rd e info := by
  cases h with
  | loses rest rd e info _ _ dest => exact ⟨rest, rd, e, info, dest, rfl⟩
  | raises e he => rcases he with rfl | rfl <;> simp at ht
  | scalar | flag | slot | record | samples | hangs => simp [hs] at ht

theorem slotBase_injective {r r' : Slot} (h : slotBase r.val = slotBase r'.val) : r = r' := by
  unfold slotBase at h
  exact Fin.ext (by omega)

/-- A host read of a byte of storage that holds no value is a fault (10_state.md R37). -/
theorem hostRead_fault {s : State} {off n k : Nat} (hb : s.busy = false) (hacc : StoredAccess off n)
    (hlo : 0x1000 ≤ off) (hk : k < n) (h : s.mem.read (off + k) = none) :
    hostRead off n s = .fault .unwrittenRead := by
  have hin : InStorage off ∧ InStorage (off + k) := by
    rcases hacc.seed_or_storage with ⟨i, hi, -⟩ | ⟨-, hhi⟩ <;> omega
  have hbyte : s.byteAt (off + k) = none := (byteAt_storage s hin.2).trans h
  have hload : s.load off n = none := by
    rw [State.load, regionAt_storage hin.1]
    exact congrArg (Option.map wordOfBytes)
      (mapM_eq_none (f := fun k => s.byteAt (off + k)) (List.mem_range.mpr hk) hbyte)
  rw [hostRead, if_neg (by simp [hb]), if_pos hacc.accessOk, hload, written_none]

/-- No coefficient of a lost slot can be read by the host. -/
theorem hostReadCoeff_raiseLosing (s : State) (rd : Slot) (e : ErrCode) (info : Word) (k : Fin 256) :
    hostAct (hostReadCoeff rd k) (s.raiseLosing rd e info) = .fault .unwrittenRead := by
  refine hostRead_fault (k := 0) rfl (storedAccess_slot (by omega) (by omega) (by omega))
    (by unfold slotBase; omega) (by decide) ?_
  rw [State.raiseLosing_mem, read_eraseRange, if_pos (by unfold slotBytes; omega)]

/-- Settles O46: the command's effect is the loss of its destination slot, and `raiseLosing` leaves the
rest. -/
theorem failedSamplerLosesItsSlot : Obligations.FailedSamplerLosesItsSlot := by
  intro s t rd nonce row col tr i hi hexec hs ht
  obtain ⟨rest, rd', e, info, hdest, rfl⟩ := (exec_effect hexec).loses_of_err hs ht
  have hrange : i.storeRange = (slotBase rd.val, slotBytes) := by
    simp only [List.mem_cons, List.not_mem_nil, or_false] at hi
    rcases hi with rfl | rfl | rfl <;> rfl
  obtain rfl : rd = rd' := slotBase_injective (congrArg Prod.fst (hrange.symm.trans hdest))
  have hlost := readSlot_raiseLosing (s.setAnswers rest) rd e info
  exact ⟨hlost, withSlot_fault hlost, hostReadCoeff_raiseLosing _ rd e info,
    read_eraseSlot_outside (s.setAnswers rest) rd.val, rfl, rfl, rfl⟩

/-! ### Decode errors (60_exceptions.md R281, R282, R284) -/

theorem errCodeOf_ne_xofFail (e : DecodeError) : errCodeOf e ≠ .xofFail := by
  cases e <;> decide

/-- Settles O7: the write raises the decode error, and `raise` writes ERR, ERRINFO and BUSY only. -/
theorem decodeErrorSetsOnlyErr : Obligations.DecodeErrorSetsOnlyErr := by
  intro s rest w e hb he hh hd
  refine ⟨_, (step_hostIssue hb hh).trans (issue_error he hd), rfl, ?code,
    State.raise_errInfo_other _ _ _ (errCodeOf_ne_xofFail e), rfl, rfl, rfl, rfl, rfl, rfl, rfl⟩
  case code => cases e <;> rfl

/-! ### CLRERR (60_exceptions.md R287) -/

/-- A STATUS write while BUSY = 0 (10_state.md R31). -/
theorem step_statusWrite {s : State} {v : Word} {rest : List HostAction} (hb : s.busy = false)
    (hh : s.host = .write 0x04 4 v :: rest) : step s = .next (writeStatus v { s with host := rest }) := by
  rw [step_act hh]
  change hostWrite 0x04 4 v _ = _
  rw [hostWrite, if_neg (by simp [hb]), if_pos (by decide)]
  rfl

theorem writeStatus_set {v : Word} (s : State) (h : v.getLsbD 31 = true) : writeStatus v s = s.clearErr :=
  if_pos h

theorem writeStatus_clear {v : Word} (s : State) (h : v.getLsbD 31 = false) : writeStatus v s = s :=
  if_neg (Bool.eq_false_iff.mp h)

/-- With ERR = 0 there is nothing to clear: ERRINFO is 0 too. -/
theorem clearErr_eq_self {s : State} (herr : s.err = .none) (hinfo : s.errInfo = 0) : s.clearErr = s := by
  rw [State.clearErr, ← herr, ← hinfo]

/-- Settles O8: bit 31 decides between `clearErr` and nothing, and the invariant makes them the same while
ERR = 0. -/
theorem clrErrClearsTheError : Obligations.ClrErrClearsTheError := by
  intro s rest v hb hh
  have hstep := step_statusWrite hb hh
  refine ⟨fun hset => ?set, fun hclear => ?clear, fun hinv herr => ?noError⟩
  case set => rw [hstep, writeStatus_set _ hset]; rfl
  case clear => rw [hstep, writeStatus_clear _ hclear]
  case noError =>
    have hinfo : s.errInfo = 0 := hinv.infoOnlyOfXofFail (by simp [herr])
    have hself := clearErr_eq_self (s := { s with host := rest }) herr hinfo
    cases hv : v.getLsbD 31 with
    | true => rw [hstep, writeStatus_set _ hv, hself]
    | false => rw [hstep, writeStatus_clear _ hv]

end Sys2Proof.Machine


/-! # 70_reset_and_hazards.md: what a busy engine answers, and what a platform reset leaves -/

namespace Sys2Proof.Machine

/-! ### While a command is in progress (70_reset_and_hazards.md R315, R317) -/

/-- A read of STATUS has its answer whether or not the engine is busy. -/
theorem step_hostReadStatus {s : State} {rest : List HostAction} (hh : s.host = hostReadStatus :: rest) :
    step s = .next { s with host := rest, readData := s.statusWord } :=
  (step_act hh).trans (hostRead_load (.inr ⟨rfl, rfl⟩) (by decide) rfl)

theorem getLsbD_statusWord_zero (s : State) : s.statusWord.getLsbD 0 = s.busy :=
  (statusWord_fields s.busy s.cmpne ⟨s.err.code, Nat.lt_succ_of_le (code_le s.err)⟩).1

/-- A read keeps BUSY and a write is not accepted, so only a reset ends a command in progress. -/
theorem eq_reset_of_hostAct_ends_busy {a : HostAction} {s t : State} (hb : s.busy = true)
    (h : hostAct a s = .next t) (ht : t.busy = false) : a = .reset ∧ t = s.platformReset := by
  cases a with
  | read off n =>
    obtain ⟨v, -, rfl⟩ := hostRead_next h
    exact absurd hb (Bool.eq_false_iff.mp ht)
  | write off n v =>
    obtain ⟨hidle, -⟩ := accepted_of_hostWrite_next h
    exact absurd hb (Bool.eq_false_iff.mp hidle)
  | reset => exact ⟨rfl, (Host.Outcome.next.inj h).symm⟩

/-- Settles O14: the refusals and the answer of the host port, and the one action that ends BUSY. -/
theorem busyDiscipline : Obligations.BusyDiscipline := by
  intro s rest hb
  refine ⟨fun off n v hh => ?write, fun off n hs hh => ?read, fun hh => ?status, fun t h ht => ?exit⟩
  case write => exact (step_act hh).trans (hostWrite_busy off n v hb)
  case read => exact (step_act hh).trans (hostRead_busy hb hs)
  case status =>
    exact ⟨_, step_hostReadStatus hh, rfl, rfl, (getLsbD_statusWord_zero s).trans hb⟩
  case exit =>
    cases hh : s.host with
    | nil =>
      cases (step_idle hh).symm.trans h
      exact absurd hb (Bool.eq_false_iff.mp ht)
    | cons a later =>
      obtain ⟨rfl, rfl⟩ := eq_reset_of_hostAct_ends_busy (s := { s with host := later }) hb
        ((step_act hh).symm.trans h) ht
      rfl

/-! ### Platform reset (70_reset_and_hazards.md R310) -/

theorem step_reset {s : State} {rest : List HostAction} (hh : s.host = .reset :: rest) :
    step s = .next ({ s with host := rest } : State).platformReset := step_act hh

@[simp] theorem statusWord_platformReset (s : State) : s.platformReset.statusWord = 0 := rfl

/-- After a platform reset no offset of storage holds a value. -/
theorem read_platformReset (s : State) (a : Nat) : s.platformReset.mem.read a = none := rfl

/-- Settles O11: the fields of the state after a platform reset, which do not depend on the engine's state
before it. -/
theorem platformReset : Obligations.PlatformReset := by
  intro s rest hh
  exact ⟨_, step_reset hh, statusWord_platformReset _, State.platformReset_errInfo _,
    State.platformReset_busy _, State.platformReset_err _, read_platformReset _,
    State.platformReset_host _, State.platformReset_source _, inv_platformReset _⟩

end Sys2Proof.Machine
